-- ==== Sys2Proof/Word.lean ====
section
/-! DEFINITION. The widths the spec names (00_scope R7: every value is unsigned and its width is stated). -/

namespace Sys2Proof

/-- A byte: a V register, a memory cell, a timer, an immediate `kk` (R5, `V_WIDTH`). -/
abbrev Byte := BitVec 8

/-- A 16-bit value: an instruction word, `PC`, `I`, a stack entry (R5). -/
abbrev Word := BitVec 16

/-- A 4-bit field: a register index `x` or `y`, a key, a row count `n` (30_encoding R71). -/
abbrev Nibble := BitVec 4

/-- A 12-bit address field `nnn` (30_encoding R71). -/
abbrev Addr := BitVec 12

end Sys2Proof
end

