-- ==== Sys2Proof/Machine/Flags.lean ====
section
/-! DEFINITION. The values VF takes as a flag (10_state R36). -/

namespace Sys2Proof.Machine

/-- `bool(c)` as a byte (00_scope R7). -/
def flagByte (c : Bool) : Byte := if c then 1 else 0

/-- 8xy4: the exact sum passes 255 (42_alu R137). -/
def carryFlag (a b : Byte) : Byte := flagByte (decide (255 < a.toNat + b.toNat))

/-- 8xy5: strictly greater (42_alu R138). -/
def greaterFlag (a b : Byte) : Byte := flagByte (decide (b.toNat < a.toNat))

/-- 8xy7: the RESULT is less than Vy (42_alu R140; 92_eei D11). -/
def resultLessFlag (r b : Byte) : Byte := flagByte (decide (r.toNat < b.toNat))

/-- 8xy6: bit 0 (42_alu R139). -/
def lowBit (a : Byte) : Byte := a &&& 1

/-- 8xyE: bit 7 (42_alu R141). -/
def highBit (a : Byte) : Byte := a >>> 7

end Sys2Proof.Machine
end

