-- ==== Sys2Proof/Syntax.lean ====
section
/-! DEFINITION. The instructions: one constructor per row of spec/opcode_table.json, in the table's order, with
every operand field of the row (30_encoding R80). An ignored field is kept, so that no bit of a word is lost. -/

namespace Sys2Proof

inductive Instr where
  /-- 00E0 CLS (R180). -/
  | cls
  /-- 00EE RET (R112). -/
  | ret
  /-- 0nnn SYS nnn, other than 00E0 and 00EE: a no-op (R110). -/
  | sys (nnn : Addr)
  /-- 1nnn JP nnn (R111). -/
  | jp (nnn : Addr)
  /-- 2nnn CALL nnn (R114). -/
  | call (nnn : Addr)
  /-- 3xkk SE Vx, kk (R115). -/
  | seImm (x : Nibble) (kk : Byte)
  /-- 4xkk SNE Vx, kk (R116). -/
  | sneImm (x : Nibble) (kk : Byte)
  /-- 5xyn SE Vx, Vy, `n` ignored (R117, R79). -/
  | seReg (x y n : Nibble)
  /-- 6xkk LD Vx, kk (R130). -/
  | ldImm (x : Nibble) (kk : Byte)
  /-- 7xkk ADD Vx, kk (R131). -/
  | addImm (x : Nibble) (kk : Byte)
  /-- 8xy0 LD Vx, Vy (R133). -/
  | ldReg (x y : Nibble)
  /-- 8xy1 OR Vx, Vy (R134). -/
  | or (x y : Nibble)
  /-- 8xy2 AND Vx, Vy (R135). -/
  | and (x y : Nibble)
  /-- 8xy3 XOR Vx, Vy (R136). -/
  | xor (x y : Nibble)
  /-- 8xy4 ADD Vx, Vy (R137). -/
  | addReg (x y : Nibble)
  /-- 8xy5 SUB Vx, Vy (R138). -/
  | sub (x y : Nibble)
  /-- 8xy6 SHR Vx, Vy: `y` is encoded but not read (R139). -/
  | shr (x y : Nibble)
  /-- 8xy7 SUBN Vx, Vy (R140). -/
  | subn (x y : Nibble)
  /-- 8xyE SHL Vx, Vy: `y` is encoded but not read (R141). -/
  | shl (x y : Nibble)
  /-- 8xyn with `n` in 8..D or F: the undefined no-op (R76, R98). -/
  | undef8 (x y n : Nibble)
  /-- 9xyn SNE Vx, Vy, `n` ignored (R118, R79). -/
  | sneReg (x y n : Nibble)
  /-- Annn LD I, nnn (R160). -/
  | ldI (nnn : Addr)
  /-- Bnnn JP V0, nnn (R119). -/
  | jpV0 (nnn : Addr)
  /-- Cxkk RND Vx, kk (R142). -/
  | rnd (x : Nibble) (kk : Byte)
  /-- Dxyn DRW Vx, Vy, n (R181). -/
  | drw (x y n : Nibble)
  /-- Ex9E SKP Vx (R190). -/
  | skp (x : Nibble)
  /-- ExA1 SKNP Vx (R191). -/
  | sknp (x : Nibble)
  /-- Exkk with any other `kk`: the undefined no-op (R77, R98). -/
  | undefE (x : Nibble) (kk : Byte)
  /-- Fx07 LD Vx, DT (R192). -/
  | ldVxDt (x : Nibble)
  /-- Fx0A LD Vx, K (R193). -/
  | ldVxK (x : Nibble)
  /-- Fx15 LD DT, Vx (R194). -/
  | ldDtVx (x : Nibble)
  /-- Fx18 LD ST, Vx (R195). -/
  | ldStVx (x : Nibble)
  /-- Fx1E ADD I, Vx (R161). -/
  | addIVx (x : Nibble)
  /-- Fx29 LD F, Vx (R162). -/
  | ldFVx (x : Nibble)
  /-- Fx33 LD B, Vx (R163). -/
  | ldBVx (x : Nibble)
  /-- Fx55 LD [I], Vx (R164). -/
  | ldMemVx (x : Nibble)
  /-- Fx65 LD Vx, [I] (R165). -/
  | ldVxMem (x : Nibble)
  /-- Fxkk with any other `kk`: the undefined no-op (R78, R98). -/
  | undefF (x : Nibble) (kk : Byte)
  deriving DecidableEq, Repr

end Sys2Proof
end

