-- ==== Sys2Proof/WellFormed.lean ====
section
/-! DEFINITION. Which instructions stand for a word of their own row. Every field has exactly the width its
encoding gives it, so only the rows that take the words another row leaves over have a check. -/

namespace Sys2Proof

/-- The low nibbles that select an instruction of family 8 (30_encoding R76). -/
def family8Defined (n : Nibble) : Bool := decide (n.toNat ≤ 7) || n == 0xE

/-- The low bytes that select an instruction of family E (30_encoding R77). -/
def familyEDefined (kk : Byte) : Bool := kk == 0x9E || kk == 0xA1

/-- The low bytes that select an instruction of family F (30_encoding R78). -/
def familyFDefined (kk : Byte) : Bool :=
  kk == 0x07 || kk == 0x0A || kk == 0x15 || kk == 0x18 || kk == 0x1E || kk == 0x29 || kk == 0x33 || kk == 0x55 ||
    kk == 0x65

/-- SYS is every 0nnn but 00E0 and 00EE (R75); an undefined word is one its family's secondary decode does not
select (R81). -/
def Instr.wellFormed : Instr → Bool
  | .sys nnn => nnn != 0x0E0 && nnn != 0x0EE
  | .undef8 _ _ n => !family8Defined n
  | .undefE _ kk => !familyEDefined kk
  | .undefF _ kk => !familyFDefined kk
  | .cls | .ret | .jp _ | .call _ | .seImm _ _ | .sneImm _ _ | .seReg _ _ _ | .ldImm _ _ | .addImm _ _ => true
  | .ldReg _ _ | .or _ _ | .and _ _ | .xor _ _ | .addReg _ _ | .sub _ _ | .shr _ _ | .subn _ _ | .shl _ _ => true
  | .sneReg _ _ _ | .ldI _ | .jpV0 _ | .rnd _ _ | .drw _ _ _ | .skp _ | .sknp _ => true
  | .ldVxDt _ | .ldVxK _ | .ldDtVx _ | .ldStVx _ | .addIVx _ | .ldFVx _ | .ldBVx _ | .ldMemVx _ | .ldVxMem _ => true

/-- The check as a proposition. -/
abbrev Instr.WellFormed (i : Instr) : Prop := i.wellFormed = true

end Sys2Proof
end

