-- ==== Sys2Proof/Decode.lean ====
section
/-! DEFINITION. From bits to an instruction (30_encoding R70 to R81; 40_cycle R92, R101), and back. -/

namespace Sys2Proof

/-- `op`, bits 15:12 (R71). -/
def opField (w : Word) : Nibble := w.extractLsb' 12 4

/-- `x`, bits 11:8 (R71). -/
def xField (w : Word) : Nibble := w.extractLsb' 8 4

/-- `y`, bits 7:4 (R71). -/
def yField (w : Word) : Nibble := w.extractLsb' 4 4

/-- `n`, bits 3:0 (R71). -/
def nField (w : Word) : Nibble := w.extractLsb' 0 4

/-- `nnn`, bits 11:0 (R71). -/
def nnnField (w : Word) : Addr := w.extractLsb' 0 12

/-- `kk`, bits 7:0 (R71). -/
def kkField (w : Word) : Byte := w.extractLsb' 0 8

/-- Family 0: the word is compared as a whole (R75; 92_eei D7). -/
def decodeFamily0 (w : Word) : Instr :=
  if w = 0x00E0 then .cls else if w = 0x00EE then .ret else .sys (nnnField w)

/-- Family 8: secondary decode on the low nibble (R76; 92_eei D8). -/
def decodeFamily8 (x y n : Nibble) : Instr :=
  if n = 0x0 then .ldReg x y
  else if n = 0x1 then .or x y
  else if n = 0x2 then .and x y
  else if n = 0x3 then .xor x y
  else if n = 0x4 then .addReg x y
  else if n = 0x5 then .sub x y
  else if n = 0x6 then .shr x y
  else if n = 0x7 then .subn x y
  else if n = 0xE then .shl x y
  else .undef8 x y n

/-- Family E: secondary decode on the low byte (R77). -/
def decodeFamilyE (x : Nibble) (kk : Byte) : Instr :=
  if kk = 0x9E then .skp x else if kk = 0xA1 then .sknp x else .undefE x kk

/-- Family F: secondary decode on the low byte (R78). -/
def decodeFamilyF (x : Nibble) (kk : Byte) : Instr :=
  if kk = 0x07 then .ldVxDt x
  else if kk = 0x0A then .ldVxK x
  else if kk = 0x15 then .ldDtVx x
  else if kk = 0x18 then .ldStVx x
  else if kk = 0x1E then .addIVx x
  else if kk = 0x29 then .ldFVx x
  else if kk = 0x33 then .ldBVx x
  else if kk = 0x55 then .ldMemVx x
  else if kk = 0x65 then .ldVxMem x
  else .undefF x kk

/-- The instruction a word is: the primary dispatch on `op` (R74), total on all 65536 words (R81). The last arm is
`op = 0xF`, the one nibble the arms above leave. -/
def decodeWord (w : Word) : Instr :=
  match (opField w).toNat with
  | 0x0 => decodeFamily0 w
  | 0x1 => .jp (nnnField w)
  | 0x2 => .call (nnnField w)
  | 0x3 => .seImm (xField w) (kkField w)
  | 0x4 => .sneImm (xField w) (kkField w)
  | 0x5 => .seReg (xField w) (yField w) (nField w)
  | 0x6 => .ldImm (xField w) (kkField w)
  | 0x7 => .addImm (xField w) (kkField w)
  | 0x8 => decodeFamily8 (xField w) (yField w) (nField w)
  | 0x9 => .sneReg (xField w) (yField w) (nField w)
  | 0xA => .ldI (nnnField w)
  | 0xB => .jpV0 (nnnField w)
  | 0xC => .rnd (xField w) (kkField w)
  | 0xD => .drw (xField w) (yField w) (nField w)
  | 0xE => decodeFamilyE (xField w) (kkField w)
  | _ => decodeFamilyF (xField w) (kkField w)

/-- Why a byte string is no instruction. No word is illegal (R81), so the one reason is that a word has two bytes. -/
inductive DecodeError where
  /-- Fewer than two bytes are left (R70: every instruction is one 16-bit word). -/
  | truncated
  deriving DecidableEq, Repr

/-- The first instruction of a byte string, big-endian (R70; 20_memory R53), and the bytes after it. -/
def decode : List Byte → Except DecodeError (Instr × List Byte)
  | hi :: lo :: rest => .ok (decodeWord (hi ++ lo), rest)
  | _ => .error .truncated

/-- `op ++ x ++ y ++ n` (R73). -/
def wordXyn (op x y n : Nibble) : Word := op ++ x ++ y ++ n

/-- `op ++ x ++ kk` (R73: `kk` is `y ++ n`). -/
def wordXkk (op x : Nibble) (kk : Byte) : Word := op ++ x ++ kk

/-- `op ++ nnn` (R73: `nnn` is `x ++ y ++ n`). -/
def wordNnn (op : Nibble) (nnn : Addr) : Word := op ++ nnn

/-- The word of an instruction, from the patterns of R80. -/
def encode : Instr → Word
  | .cls => 0x00E0
  | .ret => 0x00EE
  | .sys nnn => wordNnn 0x0 nnn
  | .jp nnn => wordNnn 0x1 nnn
  | .call nnn => wordNnn 0x2 nnn
  | .seImm x kk => wordXkk 0x3 x kk
  | .sneImm x kk => wordXkk 0x4 x kk
  | .seReg x y n => wordXyn 0x5 x y n
  | .ldImm x kk => wordXkk 0x6 x kk
  | .addImm x kk => wordXkk 0x7 x kk
  | .ldReg x y => wordXyn 0x8 x y 0x0
  | .or x y => wordXyn 0x8 x y 0x1
  | .and x y => wordXyn 0x8 x y 0x2
  | .xor x y => wordXyn 0x8 x y 0x3
  | .addReg x y => wordXyn 0x8 x y 0x4
  | .sub x y => wordXyn 0x8 x y 0x5
  | .shr x y => wordXyn 0x8 x y 0x6
  | .subn x y => wordXyn 0x8 x y 0x7
  | .shl x y => wordXyn 0x8 x y 0xE
  | .undef8 x y n => wordXyn 0x8 x y n
  | .sneReg x y n => wordXyn 0x9 x y n
  | .ldI nnn => wordNnn 0xA nnn
  | .jpV0 nnn => wordNnn 0xB nnn
  | .rnd x kk => wordXkk 0xC x kk
  | .drw x y n => wordXyn 0xD x y n
  | .skp x => wordXkk 0xE x 0x9E
  | .sknp x => wordXkk 0xE x 0xA1
  | .undefE x kk => wordXkk 0xE x kk
  | .ldVxDt x => wordXkk 0xF x 0x07
  | .ldVxK x => wordXkk 0xF x 0x0A
  | .ldDtVx x => wordXkk 0xF x 0x15
  | .ldStVx x => wordXkk 0xF x 0x18
  | .addIVx x => wordXkk 0xF x 0x1E
  | .ldFVx x => wordXkk 0xF x 0x29
  | .ldBVx x => wordXkk 0xF x 0x33
  | .ldMemVx x => wordXkk 0xF x 0x55
  | .ldVxMem x => wordXkk 0xF x 0x65
  | .undefF x kk => wordXkk 0xF x kk

/-- The high byte of a word: the one at the lower address (20_memory R54). -/
def hiByte (w : Word) : Byte := w.extractLsb' 8 8

/-- The low byte of a word (20_memory R54). -/
def loByte (w : Word) : Byte := w.extractLsb' 0 8

/-- A word as memory holds it: big-endian (20_memory R53, R54). -/
def wordBytes (w : Word) : List Byte := [hiByte w, loByte w]

/-- The bytes of an instruction, lowest address first. -/
def encodeBytes (i : Instr) : List Byte := wordBytes (encode i)

/-- The instruction the decoder reads from the table's numbering of bits: one 16-bit word, of which the table gives
the low `nbits` bits and the others are 0. -/
def decodeTableWord (nbits w : Nat) : Option Instr :=
  match decode (wordBytes (BitVec.ofNat 16 (w % 2 ^ nbits))) with
  | .ok (i, _) => some i
  | .error _ => none

/-- One row of the opcode map of R80: the bits a word must have under the mask. -/
structure OpcodeRow where
  value : Word
  mask : Word
  deriving DecidableEq, Repr

/-- The opcode map of R80 in the order of spec/opcode_table.json. -/
def opcodeRows : List OpcodeRow :=
  [⟨0x00E0, 0xFFFF⟩, ⟨0x00EE, 0xFFFF⟩, ⟨0x0000, 0xF000⟩, ⟨0x1000, 0xF000⟩, ⟨0x2000, 0xF000⟩,
   ⟨0x3000, 0xF000⟩, ⟨0x4000, 0xF000⟩, ⟨0x5000, 0xF000⟩, ⟨0x6000, 0xF000⟩, ⟨0x7000, 0xF000⟩] ++
  [⟨0x8000, 0xF00F⟩, ⟨0x8001, 0xF00F⟩, ⟨0x8002, 0xF00F⟩, ⟨0x8003, 0xF00F⟩, ⟨0x8004, 0xF00F⟩,
   ⟨0x8005, 0xF00F⟩, ⟨0x8006, 0xF00F⟩, ⟨0x8007, 0xF00F⟩, ⟨0x800E, 0xF00F⟩, ⟨0x8000, 0xF000⟩] ++
  [⟨0x9000, 0xF000⟩, ⟨0xA000, 0xF000⟩, ⟨0xB000, 0xF000⟩, ⟨0xC000, 0xF000⟩, ⟨0xD000, 0xF000⟩,
   ⟨0xE09E, 0xF0FF⟩, ⟨0xE0A1, 0xF0FF⟩, ⟨0xE000, 0xF000⟩] ++
  [⟨0xF007, 0xF0FF⟩, ⟨0xF00A, 0xF0FF⟩, ⟨0xF015, 0xF0FF⟩, ⟨0xF018, 0xF0FF⟩, ⟨0xF01E, 0xF0FF⟩,
   ⟨0xF029, 0xF0FF⟩, ⟨0xF033, 0xF0FF⟩, ⟨0xF055, 0xF0FF⟩, ⟨0xF065, 0xF0FF⟩, ⟨0xF000, 0xF000⟩]

/-- Whether a word has the bits of a row (R80). -/
def rowMatches (r : OpcodeRow) (w : Word) : Bool := w &&& r.mask == r.value

/-- How many 1 bits a mask has: the row with the most is selected (R80). -/
def maskWeight (m : Word) : Nat := ((List.range 16).filter fun k => m.getLsbD k).length

/-- An instruction's row in `opcodeRows`. -/
def rowIndex : Instr → Nat
  | .cls => 0
  | .ret => 1
  | .sys _ => 2
  | .jp _ => 3
  | .call _ => 4
  | .seImm _ _ => 5
  | .sneImm _ _ => 6
  | .seReg _ _ _ => 7
  | .ldImm _ _ => 8
  | .addImm _ _ => 9
  | .ldReg _ _ => 10
  | .or _ _ => 11
  | .and _ _ => 12
  | .xor _ _ => 13
  | .addReg _ _ => 14
  | .sub _ _ => 15
  | .shr _ _ => 16
  | .subn _ _ => 17
  | .shl _ _ => 18
  | .undef8 _ _ _ => 19
  | .sneReg _ _ _ => 20
  | .ldI _ => 21
  | .jpV0 _ => 22
  | .rnd _ _ => 23
  | .drw _ _ _ => 24
  | .skp _ => 25
  | .sknp _ => 26
  | .undefE _ _ => 27
  | .ldVxDt _ => 28
  | .ldVxK _ => 29
  | .ldDtVx _ => 30
  | .ldStVx _ => 31
  | .addIVx _ => 32
  | .ldFVx _ => 33
  | .ldBVx _ => 34
  | .ldMemVx _ => 35
  | .ldVxMem _ => 36
  | .undefF _ _ => 37

end Sys2Proof
end

