-- ==== Sys2Proof/Config.lean ====
section
/-! DEFINITION. What is fixed for the machine (00_scope R5), and the one free value. FONT_DATA, a parameter with a
default, stands in Machine/Font.lean. -/

namespace Sys2Proof.Config

/-- `MEM_SIZE`: addresses 0x000..0xFFF (R5; 20_memory R50). -/
@[reducible, simp] def memSize : Nat := 4096

/-- `RESET_PC`, also the program base (R5; 70_reset R253). -/
@[reducible, simp] def programBase : Nat := 0x200

/-- `MAX_ROM`: the size of 0x200..0xFFF (R5; 20_memory R63). -/
@[reducible, simp] def maxRom : Nat := 3584

/-- `FB_WIDTH` (R5; 10_state R28). -/
@[reducible, simp] def fbWidth : Nat := 64

/-- `FB_HEIGHT` (R5; 10_state R28). -/
@[reducible, simp] def fbHeight : Nat := 32

/-- `INSTR_PERIOD`: units of 1/3000 s for one instruction slot (R5; 60_exceptions R218). -/
@[reducible, simp] def instrPeriod : Nat := 4

/-- `DECAY_PERIOD`: units of 1/3000 s for one decay event (R5; 60_exceptions R218). -/
@[reducible, simp] def decayPeriod : Nat := 50

/-- `RNG` (R5): the byte of the `k`-th draw that the state's own list of draws does not supply. FREE VALUE: the
environment chooses it freely (60_exceptions R228; 92_eei D14), so it has no body and nothing can be proved of
its value. Safe: log entry 3. -/
opaque randomByte : Nat → Byte

end Sys2Proof.Config
end

