-- ==== Sys2Proof/Machine/Font.lean ====
section
/-! DEFINITION. `FONT_DATA` (00_scope R5; 70_reset R252): a parameter of the machine, with the spec's default. The
machine takes it as the argument of `State.resetWith`; no operation names the default. -/

namespace Sys2Proof.Machine

/-- A value of the parameter `FONT_DATA`: 80 bytes, glyph d at 5*d (R5, `FONT_BYTES`; 20_memory R57). -/
abbrev Font := Vector Byte 80

/-- The glyphs 0..F of the default font, five bytes each (R252). -/
def defaultGlyphs : List Byte :=
  [0xF0, 0x90, 0x90, 0x90, 0xF0] ++ [0x20, 0x60, 0x20, 0x20, 0x70] ++
  [0xF0, 0x10, 0xF0, 0x80, 0xF0] ++ [0xF0, 0x10, 0xF0, 0x10, 0xF0] ++
  [0x90, 0x90, 0xF0, 0x10, 0x10] ++ [0xF0, 0x80, 0xF0, 0x10, 0xF0] ++
  [0xF0, 0x80, 0xF0, 0x90, 0xF0] ++ [0xF0, 0x10, 0x20, 0x40, 0x40] ++
  [0xF0, 0x90, 0xF0, 0x90, 0xF0] ++ [0xF0, 0x90, 0xF0, 0x10, 0xF0] ++
  [0xF0, 0x90, 0xF0, 0x90, 0x90] ++ [0xE0, 0x90, 0xE0, 0x90, 0xE0] ++
  [0xF0, 0x80, 0x80, 0x80, 0xF0] ++ [0xE0, 0x90, 0x90, 0x90, 0xE0] ++
  [0xF0, 0x80, 0xF0, 0x80, 0xF0] ++ [0xF0, 0x80, 0xF0, 0x80, 0x80]

/-- The default of `FONT_DATA` (R252; 92_eei D23). PRESUMED, unsafe for claims about its glyphs' pixels: log entry 1. -/
def defaultFont : Font := ⟨defaultGlyphs.toArray, rfl⟩

/-- What an address holds at reset: the font in 0x000..0x04F, 0 elsewhere (70_reset R251). -/
def resetByte (f : Font) (a : Nat) : Byte := if h : a < 80 then f[a] else 0

end Sys2Proof.Machine
end

