-- ==== Sys2Proof/Machine/Memory.lean ====
section
/-! DEFINITION. The 4096-byte array (20_memory R50) as a list of cells in one canonical form: addresses strictly
rising, below 0x1000, and no cell equal to what an unlisted address reads as: its reset contents, under the machine's
font `f` (70_reset R251, R252). -/

namespace Sys2Proof.Machine

/-- The canonical form. -/
abbrev Mem.Wf (f : Font) (m : List Host.Cell) : Prop :=
  m.Pairwise (fun c d => c.1 < d.1) ∧ ∀ c ∈ m, c.1 < Config.memSize ∧ c.2 ≠ resetByte f c.1

/-- The byte at an address; an unlisted one holds its reset contents (70_reset R251). -/
def Mem.lookup (f : Font) : List Host.Cell → Nat → Byte
  | [], a => resetByte f a
  | (k, b) :: m, a => if k = a then b else Mem.lookup f m a

/-- Puts a cell in front, unless it says what an unlisted address reads as. -/
def Mem.consCell (f : Font) (a : Nat) (b : Byte) (m : List Host.Cell) : List Host.Cell :=
  if b = resetByte f a then m else (a, b) :: m

/-- The memory after one byte is written. -/
def Mem.write (f : Font) : List Host.Cell → Nat → Byte → List Host.Cell
  | [], a, b => Mem.consCell f a b []
  | (k, c) :: m, a, b =>
    if a < k then Mem.consCell f a b ((k, c) :: m)
    else if a = k then Mem.consCell f a b m
    else (k, c) :: Mem.write f m a b

/-- The bytes at `a`, `a + 1`, ..., `count` of them, in ascending order (20_memory R54, R59). -/
def Mem.readMany (f : Font) (m : List Host.Cell) (a : Nat) : Nat → List Byte
  | 0 => []
  | count + 1 => Mem.lookup f m a :: Mem.readMany f m (a + 1) count

/-- Writes the bytes at `a`, `a + 1`, ..., in ascending order (20_memory R54, R59). -/
def Mem.writeMany (f : Font) (m : List Host.Cell) (a : Nat) : List Byte → List Host.Cell
  | [] => m
  | b :: bs => Mem.writeMany f (Mem.write f m a b) (a + 1) bs

/-- Whether `count` bytes from `a` all exist: the address check of R51, R52 and R64. No byte is always in range. -/
def Mem.inRange (a count : Nat) : Bool := count == 0 || decide (a + count ≤ Config.memSize)

end Sys2Proof.Machine
end

