-- ==== Sys2Proof/Machine/State.lean ====
section
/-! DEFINITION. Everything the spec gives the machine (10_state), as plain data, with the environment's side of the
ports; the reasons to stop; the state after reset (70_reset R250). -/

namespace Sys2Proof.Machine

/-- The fault causes (60_exceptions R211); codes 6 and 7 are unused, so they have no constructor. -/
inductive Cause where
  | none
  | stackUnderflow
  | stackOverflow
  | addressOutOfRange
  | randomModuloZero
  | keyIndexOutOfRange
  deriving DecidableEq, Repr

/-- The 3-bit code of a cause (R211; 92_eei D5). -/
def Cause.code : Cause → BitVec 3
  | .none => 0
  | .stackUnderflow => 1
  | .stackOverflow => 2
  | .addressOutOfRange => 3
  | .randomModuloZero => 4
  | .keyIndexOutOfRange => 5

/-- The fatal-fault status (10_state R31), readable by the host and by no instruction. -/
structure FaultStatus where
  halted : Bool
  cause : Cause
  faultPC : Word
  faultSP : BitVec 5
  faultOp : Word
  faultOpValid : Bool
  deriving DecidableEq, Repr

/-- The status before any fault: every field 0 (R31, R250). -/
def FaultStatus.clear : FaultStatus :=
  { halted := false, cause := .none, faultPC := 0, faultSP := 0, faultOp := 0, faultOpValid := false }

/-- One sample of the input port: bit `k` is logical key `k` (60_exceptions R226). -/
structure Input where
  keyHeld : Word
  keyReleased : Word
  deriving DecidableEq, Repr

/-- A call of the driver (60_exceptions R217). -/
inductive HostCall where
  /-- `reset()`. -/
  | reset
  /-- `load(rom)`. -/
  | load (rom : List Byte)
  /-- `tick(delta, in)`, `delta` in units of 1/3000 s. -/
  | tick (delta : Nat) (sample : Input)
  /-- `step(in)`. -/
  | step (sample : Input)
  deriving DecidableEq, Repr

/-- A call the core makes on the audio port (60_exceptions R229). -/
inductive ToneEvent where
  | startTone
  | stopTone
  deriving DecidableEq, Repr

/-- The machine. The fields down to `mem` are the spec's (10_state) and `font` its parameter (00_scope R5); those after
it are the model's own: what the environment has put on the ports, so that one function of the state takes every step
(log entries 3, 4, 6, 8, 9). -/
structure State where
  /-- V0..VF; VF is entry 15 (R20, R21). -/
  v : Vector Byte 16
  /-- I (R22). -/
  i : Word
  /-- PC (R23). -/
  pc : Word
  /-- SP, the number of occupied stack entries, 0..16 (R25). -/
  sp : BitVec 5
  /-- The return stack (R24). -/
  stack : Vector Word 16
  /-- DT, the delay timer (R26). -/
  dt : Byte
  /-- ST, the sound timer (R27). -/
  st : Byte
  /-- The framebuffer: `fb[px][py]`, column first (R28). -/
  fb : Vector (Vector Bool 32) 64
  /-- A key-wait is pending (R29). -/
  waitValid : Bool
  /-- The register the key-wait writes (R29). -/
  waitReg : Nibble
  /-- The instruction accumulator, in units of 1/3000 s (R30). -/
  instAcc : Nat
  /-- The decay accumulator, in units of 1/3000 s (R30). -/
  decayAcc : Nat
  /-- The fault status (R31). -/
  fault : FaultStatus
  /-- Memory: the bytes that differ from the reset contents, by rising address (R34; canonical form: `Mem.Wf`). -/
  mem : List Host.Cell
  /-- `FONT_DATA`, a parameter of the machine, fixed for it: what 0x000..0x04F hold after a reset (00_scope R5; 70_reset
  R252; log entry 1). -/
  font : Font
  /-- The input sample of the current, else the last, host call (R226; log entry 6). -/
  input : Input
  /-- The host calls still to come, oldest first (R217; log entry 4). -/
  calls : List HostCall
  /-- The bytes the random port gives next, oldest first (R228; log entry 3). -/
  draws : List Byte
  /-- How many free draws were taken (R228; log entry 3). -/
  drawCount : Nat
  /-- A `tick` or `step` came since reset (20_memory R63; log entry 9). -/
  started : Bool
  /-- The audio port's calls during the last host call, oldest first (R229; log entry 8). -/
  audio : List ToneEvent
  deriving DecidableEq, Repr

/-- Why a step stops without a next state. The spec's own fatal faults are NOT here: their entry is a next state
(60_exceptions R212). -/
inductive Fault where
  /-- Raised by 00EE and 2nnn when the 5-bit `SP` holds 17..31: there is no such stack entry, and no run from reset
  reaches such an `SP` (10_state R25). Safe: log entry 7. -/
  | stackPointerRange
  deriving DecidableEq, Repr

/-- Why a run is outside the model. -/
inductive Refusal where
  /-- An instruction without a meaning, rejected in its arm of `exec`; no arm does. Safe. -/
  | notModelled (mnemonic : String)
  /-- Raised by the host call `load` after the first `tick` or `step` (93 K16; 20_memory R63). Safe: log entry 9. -/
  | lateLoad
  /-- Raised by the host call `load` with an image of more than 3584 bytes (93 K15; 20_memory R63). Safe: log
  entry 9. -/
  | romTooLong
  deriving DecidableEq, Repr

/-- The machine right after reset, given its `FONT_DATA` (70_reset R250, R252, R253): nothing listed in memory means its
reset contents. -/
def State.resetWith (font : Font := defaultFont) : State :=
  { v := Vector.replicate 16 0
    i := 0
    pc := BitVec.ofNat 16 Config.programBase
    sp := 0
    stack := Vector.replicate 16 0
    dt := 0
    st := 0
    fb := Vector.replicate 64 (Vector.replicate 32 false)
    waitValid := false
    waitReg := 0
    instAcc := 0
    decayAcc := 0
    fault := FaultStatus.clear
    mem := []
    font := font
    input := { keyHeld := 0, keyReleased := 0 }
    calls := []
    draws := []
    drawCount := 0
    started := false
    audio := [] }

/-- The machine right after reset with the default font (R252). -/
def State.reset : State := State.resetWith defaultFont

end Sys2Proof.Machine
end

