-- ==== Sys2Proof/Machine/Ops.lean ====
section
/-! DEFINITION. The named operations over registers, memory, the display, the timers and the ports; taking a fault;
retiring an instruction. -/

namespace Sys2Proof.Machine

/-! ### Registers -/

/-- V[x] (10_state R20). -/
def State.getV (s : State) (x : Nibble) : Byte := s.v[x.toNat]'x.isLt

/-- `V[x] <- b`; VF is V[15], the same cell (10_state R21). -/
def State.setV (s : State) (x : Nibble) (b : Byte) : State := { s with v := s.v.set x.toNat b x.isLt }

/-- The index of VF (10_state R21). -/
def vf : Nibble := 0xF

/-- `I <- w`. -/
def State.setI (s : State) (w : Word) : State := { s with i := w }

/-- `PC <- w`. -/
def State.setPC (s : State) (w : Word) : State := { s with pc := w }

/-- `PC <- PC +_16 2`: the advance, and what a skip does once more (40_cycle R94). -/
def State.advance (s : State) : State := s.setPC (s.pc + 2)

/-! ### Memory -/

/-- `mem <- m`. -/
def State.setMem (s : State) (m : List Host.Cell) : State := { s with mem := m }

/-- One byte as the host or a statement sees it: nothing outside the 4096 bytes (20_memory R50). -/
def State.readByte (s : State) (a : Nat) : Option Byte :=
  if a < Config.memSize then some (Mem.lookup s.font s.mem a) else none

/-- `MemRead` of `count` bytes from `a`, ascending (20_memory R51, R58); the whole range is checked first (R64). -/
def State.loadBytes (s : State) (a count : Nat) : Except Cause (List Byte) :=
  if Mem.inRange a count then .ok (Mem.readMany s.font s.mem a count) else .error .addressOutOfRange

/-- `MemWrite` of the bytes from `a` on, ascending (20_memory R52, R58); the whole range is checked first (R64). -/
def State.storeBytes (s : State) (a : Nat) (bs : List Byte) : Except Cause State :=
  if Mem.inRange a bs.length then .ok (s.setMem (Mem.writeMany s.font s.mem a bs)) else .error .addressOutOfRange

/-- `FetchWord(PC)`, as the two bytes at PC and PC + 1; it faults at `PC >= 0xFFF` (20_memory R53). -/
def State.fetchBytes (s : State) : Except Cause (List Byte) := s.loadBytes s.pc.toNat 2

/-! ### Display -/

/-- `fb <- f`. -/
def State.setFb (s : State) (f : Vector (Vector Bool 32) 64) : State := { s with fb := f }

/-- `fb[px][py]`; off the screen there is no pixel, and the answer is `false` (10_state R28). -/
def State.pixel (s : State) (px py : Nat) : Bool :=
  if h : px < 64 ∧ py < 32 then (s.fb[px]'h.1)[py]'h.2 else false

/-! ### The audio port -/

/-- `toneOn` (10_state R32). -/
def State.toneOn (s : State) : Bool := s.st != 0 && !s.fault.halted

/-- The calls an old and a new level of `toneOn` make: one on each edge (60_exceptions R229). -/
def toneEdge : Bool → Bool → List ToneEvent
  | false, true => [.startTone]
  | true, false => [.stopTone]
  | false, false => []
  | true, true => []

/-- `after` with the audio port's calls for the change of `toneOn` from `before` (10_state R32). -/
def State.driveTone (before after : State) : State :=
  { after with audio := after.audio ++ toneEdge before.toneOn after.toneOn }

/-! ### Timers -/

/-- `DT <- b` (10_state R26). -/
def State.setDT (s : State) (b : Byte) : State := { s with dt := b }

/-- `ST <- b`, the tone following it (10_state R27, R32; 92_eei D22). -/
def State.setST (s : State) (b : Byte) : State := State.driveTone s { s with st := b }

/-- A timer's decrement, clamped at 0 (60_exceptions R220). -/
def decrement (b : Byte) : Byte := if b = 0 then 0 else b - 1

/-- A decay event (60_exceptions R220). -/
def State.decay (s : State) : State := (s.setDT (decrement s.dt)).setST (decrement s.st)

/-! ### The key wait -/

/-- `waitReg <- x; waitValid <- 1` (45_input_timer_ops R193). -/
def State.enterWait (s : State) (x : Nibble) : State := { s with waitReg := x, waitValid := true }

/-- `waitValid <- 0`; `waitReg` keeps its value (40_cycle R96). -/
def State.endWait (s : State) : State := { s with waitValid := false }

/-- The least index whose bit is 1 (40_cycle R96; 92_eei D18). -/
def lowestKey (w : Word) : Option Nat := (List.range 16).find? fun k => w.getLsbD k

/-- The key-wait poll (40_cycle R96): no release, no change; else the least released key into V[waitReg]. -/
def State.poll (s : State) : State :=
  match lowestKey s.input.keyReleased with
  | none => s
  | some k => (s.setV s.waitReg (BitVec.ofNat 8 k)).endWait

/-! ### The random port -/

/-- The next byte of the random port (60_exceptions R228): the first the state lists, else a free value. -/
def State.nextDraw (s : State) : Byte := s.draws.headD (Config.randomByte s.drawCount)

/-- The state once that byte is taken. -/
def State.takeDraw (s : State) : State :=
  match s.draws with
  | [] => { s with drawCount := s.drawCount + 1 }
  | _ :: rest => { s with draws := rest }

/-! ### Taking a fault -/

/-- `raise Fault(c)` (60_exceptions R212): the record, and nothing else but the tone that falls (R213). `op` is the
instruction word where the fetch completed. -/
def State.raiseFault (s : State) (c : Cause) (op : Option Word) : State :=
  State.driveTone s
    { s with
      fault :=
        { halted := true
          cause := c
          faultPC := s.pc
          faultSP := s.sp
          faultOp := op.getD 0
          faultOpValid := op.isSome } }

/-! ### Retiring an instruction -/

/-- The three outcomes of a step of this machine. -/
abbrev Outcome := Host.Outcome State Fault Refusal

/-- What an instruction's execute stage leaves when it raises nothing: its state, and `jumped` (10_state R33). -/
structure Effect where
  state : State
  jumped : Bool
  deriving DecidableEq, Repr

/-- PC effect "sequential" (40_cycle R94). -/
def sequential (t : State) : Except Cause Effect := .ok { state := t, jumped := false }

/-- PC effect "skip" (40_cycle R94). -/
def skipIf (c : Bool) (t : State) : Except Cause Effect :=
  .ok { state := if c then t.advance else t, jumped := false }

/-- PC effect "jump" (40_cycle R94). -/
def jumpTo (target : Word) (t : State) : Except Cause Effect := .ok { state := t.setPC target, jumped := true }

/-- The end of an instruction's slot: PC advances unless it jumped (40_cycle R94); a raised fault is precise: it is
taken from the state `s` before the instruction (40_cycle R97; 60_exceptions R212). `i` gives the word (log entry 10). -/
def retire (i : Instr) (s : State) : Except Cause Effect → Outcome
  | .ok e => .next (if e.jumped then e.state else e.state.advance)
  | .error c => .next (s.raiseFault c (some (encode i)))

end Sys2Proof.Machine
end

