-- ==== Sys2Proof/Machine/Operands.lean ====
section
/-! DEFINITION. The operand forms: immediates widened (30_encoding R72), register prefixes V0..Vx, decimal digits,
the font address, the key operand. -/

namespace Sys2Proof.Machine

/-- `zext_16(nnn)` (30_encoding R72). -/
def addrWord (nnn : Addr) : Word := nnn.setWidth 16

/-- `zext_16` of a byte (00_scope R7). -/
def byteWord (b : Byte) : Word := b.setWidth 16

/-- How many registers V0..Vx are (43 R164, R165). -/
def prefixLength (x : Nibble) : Nat := x.toNat + 1

/-- V0..Vx, in order (43 R164). -/
def State.vPrefix (s : State) (x : Nibble) : List Byte := s.v.toList.take (prefixLength x)

/-- `V[k] <- b` for the bytes in turn, from `V[k]` upwards (43 R165). -/
def State.setVFrom (s : State) : Nat → List Byte → State
  | _, [] => s
  | k, b :: bs => (s.setV (BitVec.ofNat 4 k) b).setVFrom (k + 1) bs

/-- The decimal digits of a byte: hundreds, tens, ones (43 R163). -/
def decimalDigits (b : Byte) : List Byte :=
  [BitVec.ofNat 8 (b.toNat / 100), BitVec.ofNat 8 (b.toNat / 10 % 10), BitVec.ofNat 8 (b.toNat % 10)]

/-- The font address `5 * Vx`, not masked (43 R162; 92_eei D30). -/
def glyphAddress (b : Byte) : Word := 5 * byteWord b

/-- `keyHeld[V[x]]`; a value above 15 is no key (45 R190; 92_eei D15). -/
def State.heldKey (s : State) (b : Byte) : Except Cause Bool :=
  if b.toNat > 15 then .error .keyIndexOutOfRange else .ok (s.input.keyHeld.getLsbD b.toNat)

end Sys2Proof.Machine
end

