-- ==== Sys2Proof/Machine/Alu.lean ====
section
/-! DEFINITION. The register, arithmetic, logic and shift unit (42_alu). Each meaning runs its rule's statements in
their order, each reading the registers as the statement before left them (R132; 92_eei D10). -/

namespace Sys2Proof.Machine

/-- 6xkk LD Vx, kk (R130). -/
def execLdImm (x : Nibble) (kk : Byte) (s : State) : Outcome := retire (.ldImm x kk) s (sequential (s.setV x kk))

/-- 7xkk ADD Vx, kk: no flag (R131). -/
def execAddImm (x : Nibble) (kk : Byte) (s : State) : Outcome :=
  retire (.addImm x kk) s (sequential (s.setV x (s.getV x + kk)))

/-- 8xy0 LD Vx, Vy (R133). -/
def execLdReg (x y : Nibble) (s : State) : Outcome := retire (.ldReg x y) s (sequential (s.setV x (s.getV y)))

/-- `V[x] <- r`, then `V[F] <- flag`. -/
def State.resultThenFlag (s : State) (x : Nibble) (r flag : Byte) : State := (s.setV x r).setV vf flag

/-- 8xy1 OR Vx, Vy (R134). -/
def execOr (x y : Nibble) (s : State) : Outcome :=
  retire (.or x y) s (sequential (s.resultThenFlag x (s.getV x ||| s.getV y) 0))

/-- 8xy2 AND Vx, Vy (R135). -/
def execAnd (x y : Nibble) (s : State) : Outcome :=
  retire (.and x y) s (sequential (s.resultThenFlag x (s.getV x &&& s.getV y) 0))

/-- 8xy3 XOR Vx, Vy (R136). -/
def execXor (x y : Nibble) (s : State) : Outcome :=
  retire (.xor x y) s (sequential (s.resultThenFlag x (s.getV x ^^^ s.getV y) 0))

/-- 8xy4 ADD Vx, Vy (R137). -/
def execAddReg (x y : Nibble) (s : State) : Outcome :=
  retire (.addReg x y) s
    (sequential (s.resultThenFlag x (s.getV x + s.getV y) (carryFlag (s.getV x) (s.getV y))))

/-- `V[F] <- flag`, then `V[x] <- f V[x]` of the registers so left. -/
def State.flagThenResult (s : State) (x : Nibble) (flag : Byte) (f : State → Byte) : State :=
  (s.setV vf flag).setV x (f (s.setV vf flag))

/-- 8xy5 SUB Vx, Vy (R138). -/
def execSub (x y : Nibble) (s : State) : Outcome :=
  retire (.sub x y) s
    (sequential (s.flagThenResult x (greaterFlag (s.getV x) (s.getV y)) fun t => t.getV x - t.getV y))

/-- 8xy6 SHR Vx, Vy: Vy is not read (R139). -/
def execShr (x y : Nibble) (s : State) : Outcome :=
  retire (.shr x y) s (sequential (s.flagThenResult x (lowBit (s.getV x)) fun t => t.getV x >>> 1))

/-- The second statement of 8xy7: the flag reads V[x] and V[y] as the subtraction left them (R140). -/
def State.subnFlag (s : State) (x y : Nibble) : State := s.setV vf (resultLessFlag (s.getV x) (s.getV y))

/-- 8xy7 SUBN Vx, Vy (R140; 92_eei D11). -/
def execSubn (x y : Nibble) (s : State) : Outcome :=
  retire (.subn x y) s (sequential ((s.setV x (s.getV y - s.getV x)).subnFlag x y))

/-- 8xyE SHL Vx, Vy: Vy is not read (R141). -/
def execShl (x y : Nibble) (s : State) : Outcome :=
  retire (.shl x y) s (sequential (s.flagThenResult x (highBit (s.getV x)) fun t => t.getV x <<< 1))

/-- Cxkk RND Vx, kk: `kk = 0` faults and takes no draw (R142; 92_eei D14). -/
def execRnd (x : Nibble) (kk : Byte) (s : State) : Outcome :=
  if kk = 0 then retire (.rnd x kk) s (.error .randomModuloZero)
  else retire (.rnd x kk) s (sequential (s.takeDraw.setV x (s.nextDraw % kk)))

end Sys2Proof.Machine
end

