-- ==== Sys2Proof/Machine/ControlFlow.lean ====
section
/-! DEFINITION. Control flow (41_control_flow). -/

namespace Sys2Proof.Machine

/-- 0nnn SYS: nothing (R110). -/
def execSys (nnn : Addr) (s : State) : Outcome := retire (.sys nnn) s (sequential s)

/-- 1nnn JP (R111). -/
def execJp (nnn : Addr) (s : State) : Outcome := retire (.jp nnn) s (jumpTo (addrWord nnn) s)

/-- The state once the top of the stack is popped into PC (R112). -/
def State.popInto (s : State) (target : Word) : State := { s with sp := s.sp - 1, pc := target }

/-- 00EE RET: the popped value is the CALL's own address, and the advance follows (R112; 92_eei D12). -/
def execRet (s : State) : Outcome :=
  if s.sp = 0 then retire .ret s (.error .stackUnderflow)
  else
    match s.stack[(s.sp - 1).toNat]? with
    | some target => retire .ret s (sequential (s.popInto target))
    | none => .fault .stackPointerRange

/-- The state once PC is pushed (R114). -/
def State.push (s : State) (h : s.sp.toNat < 16) : State :=
  { s with stack := s.stack.set s.sp.toNat s.pc h, sp := s.sp + 1 }

/-- 2nnn CALL: pushes its own address (R114; 92_eei D12). -/
def execCall (nnn : Addr) (s : State) : Outcome :=
  if s.sp = 16 then retire (.call nnn) s (.error .stackOverflow)
  else if h : s.sp.toNat < 16 then retire (.call nnn) s (jumpTo (addrWord nnn) (s.push h))
  else .fault .stackPointerRange

/-- 3xkk SE Vx, kk (R115). -/
def execSeImm (x : Nibble) (kk : Byte) (s : State) : Outcome :=
  retire (.seImm x kk) s (skipIf (s.getV x == kk) s)

/-- 4xkk SNE Vx, kk (R116). -/
def execSneImm (x : Nibble) (kk : Byte) (s : State) : Outcome :=
  retire (.sneImm x kk) s (skipIf (s.getV x != kk) s)

/-- 5xyn SE Vx, Vy, `n` ignored (R117; 92_eei D9). -/
def execSeReg (x y n : Nibble) (s : State) : Outcome :=
  retire (.seReg x y n) s (skipIf (s.getV x == s.getV y) s)

/-- 9xyn SNE Vx, Vy, `n` ignored (R118; 92_eei D9). -/
def execSneReg (x y n : Nibble) (s : State) : Outcome :=
  retire (.sneReg x y n) s (skipIf (s.getV x != s.getV y) s)

/-- Bnnn JP V0, nnn (R119). -/
def execJpV0 (nnn : Addr) (s : State) : Outcome :=
  retire (.jpV0 nnn) s (jumpTo (addrWord nnn + byteWord (s.getV 0)) s)

/-- 8xyn, undefined: nothing (40_cycle R98). -/
def execUndef8 (x y n : Nibble) (s : State) : Outcome := retire (.undef8 x y n) s (sequential s)

/-- Exkk, undefined: nothing (40_cycle R98). -/
def execUndefE (x : Nibble) (kk : Byte) (s : State) : Outcome := retire (.undefE x kk) s (sequential s)

/-- Fxkk, undefined: nothing (40_cycle R98). -/
def execUndefF (x : Nibble) (kk : Byte) (s : State) : Outcome := retire (.undefF x kk) s (sequential s)

end Sys2Proof.Machine
end

