-- ==== Sys2Proof/Machine/Display.lean ====
section
/-! DEFINITION. The display and draw flag unit (44_display). -/

namespace Sys2Proof.Machine

/-- A framebuffer (10_state R28). -/
abbrev Frame := Vector (Vector Bool 32) 64

/-- The framebuffer with every pixel off (R180). -/
def blankFrame : Frame := Vector.replicate 64 (Vector.replicate 32 false)

/-- One on-pixel of a sprite at (px, py): clipped off the screen, else it toggles the pixel and reports whether the
pixel was on (R181). The flag is the collision so far. -/
def drawPixel (px py : Nat) (d : Frame × Bool) : Frame × Bool :=
  if h : px < 64 ∧ py < 32 then
    let old := (d.1[px]'h.1)[py]'h.2
    (d.1.set px ((d.1[px]'h.1).set py (!old) h.2) h.1, d.2 || old)
  else d

/-- One row of a sprite: the columns of byte `b` in `cols`, bit 7 leftmost (R181, R182; log entry 2). -/
def drawRow (b : Byte) (px0 py : Nat) : List Nat → Frame × Bool → Frame × Bool
  | [], d => d
  | col :: cols, d => drawRow b px0 py cols (if b.getLsbD (7 - col) then drawPixel (px0 + col) py d else d)

/-- The rows of a sprite, from row `py` downwards (R181). -/
def drawRows (px0 : Nat) : Nat → List Byte → Frame × Bool → Frame × Bool
  | _, [], d => d
  | py, b :: bs, d => drawRows px0 (py + 1) bs (drawRow b px0 py [0, 1, 2, 3, 4, 5, 6, 7] d)

/-- 00E0 CLS (R180). -/
def execCls (s : State) : Outcome := retire .cls s (sequential (s.setFb blankFrame))

/-- The state once the sprite's rows are drawn with the top left corner at (px0, py0), VF last (R181). -/
def State.drawSprite (s : State) (px0 py0 : Nat) (bs : List Byte) : State :=
  (s.setFb (drawRows px0 py0 bs (s.fb, false)).1).setV vf (flagByte (drawRows px0 py0 bs (s.fb, false)).2)

/-- Dxyn DRW Vx, Vy, n: the coordinates are read first and not reduced, all `n` bytes are read (R181, R183;
92_eei D16). -/
def execDrw (x y n : Nibble) (s : State) : Outcome :=
  retire (.drw x y n) s
    (match s.loadBytes s.i.toNat n.toNat with
      | .ok bs => sequential (s.drawSprite (s.getV x).toNat (s.getV y).toNat bs)
      | .error c => .error c)

end Sys2Proof.Machine
end

