-- ==== Sys2Proof/Machine/Index.lean ====
section
/-! DEFINITION. The index register and the memory datapath (43_index_memory). -/

namespace Sys2Proof.Machine

/-- Annn LD I, nnn (R160). -/
def execLdI (nnn : Addr) (s : State) : Outcome := retire (.ldI nnn) s (sequential (s.setI (addrWord nnn)))

/-- Fx1E ADD I, Vx: 16-bit wrap, no flag (R161; 92_eei D29). -/
def execAddIVx (x : Nibble) (s : State) : Outcome :=
  retire (.addIVx x) s (sequential (s.setI (s.i + byteWord (s.getV x))))

/-- Fx29 LD F, Vx (R162). -/
def execLdFVx (x : Nibble) (s : State) : Outcome :=
  retire (.ldFVx x) s (sequential (s.setI (glyphAddress (s.getV x))))

/-- Fx33 LD B, Vx: I is unchanged (R163). -/
def execLdBVx (x : Nibble) (s : State) : Outcome :=
  retire (.ldBVx x) s
    (match s.storeBytes s.i.toNat (decimalDigits (s.getV x)) with
      | .ok t => sequential t
      | .error c => .error c)

/-- `I <- I +_16 (x + 1)` (R164, R165). -/
def State.bumpI (s : State) (x : Nibble) : State := s.setI (s.i + BitVec.ofNat 16 (prefixLength x))

/-- Fx55 LD [I], Vx (R164). -/
def execLdMemVx (x : Nibble) (s : State) : Outcome :=
  retire (.ldMemVx x) s
    (match s.storeBytes s.i.toNat (s.vPrefix x) with
      | .ok t => sequential (t.bumpI x)
      | .error c => .error c)

/-- Fx65 LD Vx, [I] (R165). -/
def execLdVxMem (x : Nibble) (s : State) : Outcome :=
  retire (.ldVxMem x) s
    (match s.loadBytes s.i.toNat (prefixLength x) with
      | .ok bs => sequential ((s.setVFrom 0 bs).bumpI x)
      | .error c => .error c)

end Sys2Proof.Machine
end

