-- ==== Sys2Proof/Machine/KeyTimer.lean ====
section
/-! DEFINITION. The key and timer instructions (45_input_timer_ops). -/

namespace Sys2Proof.Machine

/-- Ex9E SKP Vx (R190). -/
def execSkp (x : Nibble) (s : State) : Outcome :=
  retire (.skp x) s
    (match s.heldKey (s.getV x) with
      | .ok held => skipIf held s
      | .error c => .error c)

/-- ExA1 SKNP Vx (R191). -/
def execSknp (x : Nibble) (s : State) : Outcome :=
  retire (.sknp x) s
    (match s.heldKey (s.getV x) with
      | .ok held => skipIf (!held) s
      | .error c => .error c)

/-- Fx07 LD Vx, DT (R192). -/
def execLdVxDt (x : Nibble) (s : State) : Outcome := retire (.ldVxDt x) s (sequential (s.setV x s.dt))

/-- Fx0A LD Vx, K: enters the key wait; PC advances now (R193; 92_eei D18). -/
def execLdVxK (x : Nibble) (s : State) : Outcome := retire (.ldVxK x) s (sequential (s.enterWait x))

/-- Fx15 LD DT, Vx (R194). -/
def execLdDtVx (x : Nibble) (s : State) : Outcome := retire (.ldDtVx x) s (sequential (s.setDT (s.getV x)))

/-- Fx18 LD ST, Vx: the tone follows ST (R195; 92_eei D22). -/
def execLdStVx (x : Nibble) (s : State) : Outcome := retire (.ldStVx x) s (sequential (s.setST (s.getV x)))

end Sys2Proof.Machine
end

