-- ==== Sys2Proof/Machine/Cycle.lean ====
section
/-! DEFINITION. One instruction slot (40_cycle R90 to R101). -/

namespace Sys2Proof.Machine

/-- `ExecuteOne` (R101): fetch (R91), decode (R92), execute with the PC advance (R93, R94). A fetch fault is taken
without a word. The decoder refuses no two bytes (30_encoding R81), so the last arm's answer is the fetch fault too. -/
def executeOne (s : State) : Outcome :=
  match s.fetchBytes with
  | .error c => .next (s.raiseFault c none)
  | .ok bytes =>
    match decode bytes with
    | .ok (i, _) => exec i s
    | .error .truncated => .next (s.raiseFault .addressOutOfRange none)

/-- `Slot` (R90): nothing when halted, one poll when a key-wait is pending, else one instruction. -/
def slot (s : State) : Outcome :=
  if s.fault.halted then .next s
  else if s.waitValid then .next s.poll
  else executeOne s

end Sys2Proof.Machine
end

