-- ==== Sys2Proof/Machine/Timing.lean ====
section
/-! DEFINITION. The Timing Controller and the host calls (60_exceptions R217 to R223; 20_memory R63; 70_reset R255). -/

namespace Sys2Proof.Machine

/-- The start of a `tick` or `step`: the call's input sample, fixed until it ends (40_cycle R100). -/
def State.beginCall (s : State) (sample : Input) : State := { s with input := sample, started := true }

/-- One period of the instruction accumulator is spent (60_exceptions R218). -/
def State.spendInstr (s : State) : State := { s with instAcc := s.instAcc - Config.instrPeriod }

/-- The instruction drain of a tick, `count` slots long; a slot that halts ends it (60_exceptions R218). -/
def drainSlots : Nat → State → Outcome
  | 0, s => .next s
  | count + 1, s =>
    match slot s.spendInstr with
    | .next t => if t.fault.halted then .next t else drainSlots count t
    | .fault f => .fault f
    | .refused r => .refused r

/-- One period of the decay accumulator is spent, and a decay event happens (60_exceptions R218, R220). -/
def State.spendDecay (s : State) : State := { s with decayAcc := s.decayAcc - Config.decayPeriod }.decay

/-- The decay drain of a tick, `count` events long (60_exceptions R218). -/
def drainDecays : Nat → State → State
  | 0, s => s
  | count + 1, s => drainDecays count s.spendDecay

/-- `delta` more units for the instruction accumulator, all of whose whole periods are then drained: slots run only
while it holds a whole one, and no slot adds to it, so the drain is `instAcc / 4` slots long (60_exceptions R218). -/
def runSlots (delta : Nat) (s : State) : Outcome :=
  drainSlots ((s.instAcc + delta) / Config.instrPeriod) { s with instAcc := s.instAcc + delta }

/-- The same for the decay accumulator (60_exceptions R218). -/
def runDecays (delta : Nat) (s : State) : State :=
  drainDecays ((s.decayAcc + delta) / Config.decayPeriod) { s with decayAcc := s.decayAcc + delta }

/-- `tick(delta, in)` (60_exceptions R218): all slots, then all decays (92_eei D2), and no decay after a fault. -/
def tickCall (delta : Nat) (sample : Input) (s : State) : Outcome :=
  if s.fault.halted then .next s
  else
    match runSlots delta (s.beginCall sample) with
    | .next t => if t.fault.halted then .next t else .next (runDecays delta t)
    | .fault f => .fault f
    | .refused r => .refused r

/-- `step(in)` (60_exceptions R219): one slot, then one decay; the accumulators are left alone. -/
def stepCall (sample : Input) (s : State) : Outcome :=
  if s.fault.halted then .next s
  else
    match slot (s.beginCall sample) with
    | .next t => if t.fault.halted then .next t else .next t.decay
    | .fault f => .fault f
    | .refused r => .refused r

/-- `load(rom)` (20_memory R63): only before the first `tick` or `step`, at most 3584 bytes, nothing else written. -/
def loadCall (rom : List Byte) (s : State) : Outcome :=
  if s.started then .refused .lateLoad
  else if Config.maxRom < rom.length then .refused .romTooLong
  else .next (s.setMem (Mem.writeMany s.font s.mem Config.programBase rom))

/-- `reset()` (70_reset R255): every piece of the core's state at its reset value under the machine's font; what the
environment has put on the ports stays. The tone falls with it (log entry 8). -/
def resetCall (s : State) : State :=
  State.driveTone s
    { State.resetWith s.font with
      input := s.input
      calls := s.calls
      draws := s.draws
      drawCount := s.drawCount
      audio := s.audio }

/-- A host call, run to completion (60_exceptions R217). -/
def runCall (c : HostCall) (s : State) : Outcome :=
  match c with
  | .reset => .next (resetCall s)
  | .load rom => loadCall rom s
  | .tick delta sample => tickCall delta sample s
  | .step sample => stepCall sample s

/-- The driver's next call: the first the state lists, else `step` with the input unchanged (60_exceptions R230: the
host may call `step` any number of times; log entry 4). -/
def State.nextCall (s : State) : HostCall := s.calls.headD (.step s.input)

/-- The state with that call taken from the list, and the audio port's record begun anew for it. -/
def State.takeCall (s : State) : State := { s with calls := s.calls.tail, audio := [] }

/-- One host call (00_scope R12: every step is taken in response to one host call). -/
def hostStep (s : State) : Outcome := runCall s.nextCall s.takeCall

/-- `s` with the word's two bytes at PC, so placed that the next host call is a `step` that fetches and runs them: PC
at the reset vector where it lies outside memory, no fault, no key wait. `nbits` bounds the bits the table gives. -/
def placeInstruction (s : State) (nbits w : Nat) : State :=
  let place : Word := if s.pc.toNat + 2 ≤ Config.memSize then s.pc else BitVec.ofNat 16 Config.programBase
  { s with
    pc := place
    mem := Mem.writeMany s.font s.mem place.toNat (wordBytes (BitVec.ofNat 16 (w % 2 ^ nbits)))
    fault := FaultStatus.clear
    waitValid := false
    calls := .step s.input :: s.calls }

end Sys2Proof.Machine
end

