-- ==== Sys2Proof/Safety.lean ====
section
/-! DEFINITION. The terms statements use: what an instruction leaves unchanged, what taking a fault does, the
machine's invariants, and the draw rule said pixel by pixel. -/

namespace Sys2Proof.Machine

/-! ### Frames -/

/-- One piece of the state: a register, one byte of memory, one pixel, one stack entry, a port, the parameter
`FONT_DATA`. -/
inductive Part where
  | v (k : Nibble)
  | i
  | pc
  | sp
  | stackEntry (j : Nat)
  | byte (a : Nat)
  | pixel (px py : Nat)
  | dt
  | st
  | wait
  | instAcc
  | decayAcc
  | fault
  | input
  | calls
  | draws
  | started
  | audio
  | font
  deriving DecidableEq, Repr

/-- The piece holds in `t` what it held in `s`. -/
def Part.Same : Part → State → State → Prop
  | .v k, s, t => t.getV k = s.getV k
  | .i, s, t => t.i = s.i
  | .pc, s, t => t.pc = s.pc
  | .sp, s, t => t.sp = s.sp
  | .stackEntry j, s, t => t.stack[j]? = s.stack[j]?
  | .byte a, s, t => t.readByte a = s.readByte a
  | .pixel px py, s, t => t.pixel px py = s.pixel px py
  | .dt, s, t => t.dt = s.dt
  | .st, s, t => t.st = s.st
  | .wait, s, t => t.waitValid = s.waitValid ∧ t.waitReg = s.waitReg
  | .instAcc, s, t => t.instAcc = s.instAcc
  | .decayAcc, s, t => t.decayAcc = s.decayAcc
  | .fault, s, t => t.fault = s.fault
  | .input, s, t => t.input = s.input
  | .calls, s, t => t.calls = s.calls
  | .draws, s, t => t.draws = s.draws ∧ t.drawCount = s.drawCount
  | .started, s, t => t.started = s.started
  | .audio, s, t => t.audio = s.audio
  | .font, s, t => t.font = s.font

/-- Every piece of the state but the named ones is unchanged. -/
def OnlyChanges (changed : Part → Prop) (s t : State) : Prop := ∀ p : Part, ¬changed p → p.Same s t

/-- The instruction only moves PC to the next word: PC effect "sequential" (40_cycle R94) and nothing else. -/
def OnlyAdvances (s t : State) : Prop := t.pc = s.pc + 2 ∧ OnlyChanges (fun p => p = .pc) s t

/-- PC moves to the next word, the V registers become `g`, and nothing else changes. -/
def RegistersBecome (g : Nibble → Byte) (s t : State) : Prop :=
  t.pc = s.pc + 2 ∧ (∀ k : Nibble, t.getV k = g k) ∧ OnlyChanges (fun p => p = .pc ∨ ∃ k, p = .v k) s t

/-- The audio port's calls a rise or fall of the tone makes, from the level before to the level after
(10_state R32). -/
def toneCalls (before after : Bool) : List ToneEvent :=
  if before = after then [] else if after then [.startTone] else [.stopTone]

/-- `t` is `s` after the fault entry of 60_exceptions R212 with cause `c`: `op` is the instruction word where the
fetch completed. Besides the record only the audio port changes, by the tone that falls (R213). -/
def FaultTaken (c : Cause) (op : Option Word) (s t : State) : Prop :=
  t.fault.halted = true ∧ t.fault.cause = c ∧ t.fault.faultPC = s.pc ∧ t.fault.faultSP = s.sp ∧
    t.fault.faultOp = op.getD 0 ∧ t.fault.faultOpValid = op.isSome ∧ t.toneOn = false ∧
    t.audio = s.audio ++ toneCalls s.toneOn false ∧ OnlyChanges (fun p => p = .fault ∨ p = .audio) s t

/-- The word has the bits a row's match gives under its mask (30_encoding R80). -/
def Selects (value mask w : Word) : Prop := w &&& mask = value

/-! ### Fault conditions, instruction by instruction -/

/-- The cause an instruction raises in a state (60_exceptions R211, its table), `none` where it raises nothing. -/
def causeOf (i : Instr) (s : State) : Cause :=
  match i with
  | .ret => if s.sp = 0 then .stackUnderflow else .none
  | .call _ => if s.sp = 16 then .stackOverflow else .none
  | .rnd _ kk => if kk = 0 then .randomModuloZero else .none
  | .skp x => if 15 < (s.getV x).toNat then .keyIndexOutOfRange else .none
  | .sknp x => if 15 < (s.getV x).toNat then .keyIndexOutOfRange else .none
  | .drw _ _ n => if n ≠ 0 ∧ 0xFFF < s.i.toNat + n.toNat - 1 then .addressOutOfRange else .none
  | .ldBVx _ => if 0xFFF < s.i.toNat + 2 then .addressOutOfRange else .none
  | .ldMemVx x => if 0xFFF < s.i.toNat + x.toNat then .addressOutOfRange else .none
  | .ldVxMem x => if 0xFFF < s.i.toNat + x.toNat then .addressOutOfRange else .none
  | .cls | .sys _ | .jp _ | .seImm _ _ | .sneImm _ _ | .seReg _ _ _ | .sneReg _ _ _ | .jpV0 _ => .none
  | .ldImm _ _ | .addImm _ _ | .ldReg _ _ | .or _ _ | .and _ _ | .xor _ _ | .addReg _ _ | .sub _ _ => .none
  | .shr _ _ | .subn _ _ | .shl _ _ | .ldI _ | .addIVx _ | .ldFVx _ => .none
  | .ldVxDt _ | .ldVxK _ | .ldDtVx _ | .ldStVx _ | .undef8 _ _ _ | .undefE _ _ | .undefF _ _ => .none

/-! ### Who may write what (10_state R24 to R29, R36, R38) -/

/-- The instructions that store to memory (20_memory R58). -/
def storesMemory : Instr → Bool
  | .ldBVx _ | .ldMemVx _ => true
  | _ => false

/-- The instructions that write pixels (10_state R28). -/
def writesDisplay : Instr → Bool
  | .cls | .drw _ _ _ => true
  | _ => false

/-- The instructions that touch the return stack (10_state R24). -/
def touchesStack : Instr → Bool
  | .ret | .call _ => true
  | _ => false

/-- The instructions that write `I` (10_state R22). -/
def writesI : Instr → Bool
  | .ldI _ | .addIVx _ | .ldFVx _ | .ldMemVx _ | .ldVxMem _ => true
  | _ => false

/-- The instructions that write VF as a flag (10_state R36). -/
def writesFlag : Instr → Bool
  | .or _ _ | .and _ _ | .xor _ _ | .addReg _ _ | .sub _ _ | .shr _ _ | .subn _ _ | .shl _ _ | .drw _ _ _ => true
  | _ => false

/-- Whether an instruction names V[k] as a destination: by its `x` field, or in V0..Vx (42_alu, 43, 45). -/
def writesV (k : Nibble) : Instr → Bool
  | .ldImm x _ | .addImm x _ | .ldReg x _ | .or x _ | .and x _ | .xor x _ | .addReg x _ | .sub x _ => x == k
  | .shr x _ | .subn x _ | .shl x _ | .rnd x _ | .ldVxDt x => x == k
  | .ldVxMem x => decide (k.toNat ≤ x.toNat)
  | _ => false

/-! ### The draw rule, pixel by pixel (44_display R181, R182) -/

/-- The sprite of `n` rows at `I`, its top left corner at (px0, py0), has an on-pixel at (px, py): bit 7 of a row's
byte is column offset 0. -/
def SpriteCovers (s : State) (px0 py0 n px py : Nat) : Prop :=
  px0 ≤ px ∧ px < px0 + 8 ∧ py0 ≤ py ∧ py < py0 + n ∧
    ∃ b : Byte, s.readByte (s.i.toNat + (py - py0)) = some b ∧ b.getLsbD (7 - (px - px0)) = true

/-- The pixel exists: columns 0..63, rows 0..31 (10_state R28). -/
abbrev OnScreen (px py : Nat) : Prop := px < 64 ∧ py < 32

/-! ### Runs -/

/-- Instructions executed one after the other, each from the state the one before left. -/
def execAll : List Instr → State → Outcome
  | [], s => .next s
  | i :: is, s =>
    match exec i s with
    | .next t => execAll is t
    | .fault f => .fault f
    | .refused r => .refused r

/-- `count` slots one after the other, with no accumulator touched; a slot that halts ends them. -/
def slotTimes : Nat → State → Outcome
  | 0, s => .next s
  | count + 1, s =>
    match slot s with
    | .next t => if t.fault.halted then .next t else slotTimes count t
    | .fault f => .fault f
    | .refused r => .refused r

/-- The tone level after a record of calls on the audio port, `none` where a call does not fit the level: a start
while the tone plays, a stop while it does not (60_exceptions R229). -/
def toneAfter : Bool → List ToneEvent → Option Bool
  | on, [] => some on
  | false, .startTone :: es => toneAfter true es
  | true, .stopTone :: es => toneAfter false es
  | true, .startTone :: _ => none
  | false, .stopTone :: _ => none

/-! ### Invariants -/

/-- The fault record: clear while the core runs; once halted, a cause, and the PC and SP it froze (10_state R31;
60_exceptions R212, R213). -/
def FaultStatus.Coherent (f : FaultStatus) (pc : Word) (sp : BitVec 5) : Prop :=
  (f.halted = false → f = FaultStatus.clear) ∧
    (f.halted = true →
      f.cause ≠ .none ∧ f.faultPC = pc ∧ f.faultSP = sp ∧
        (f.faultOpValid = false → f.cause = .addressOutOfRange ∧ f.faultOp = 0))

/-- What holds between host calls: SP counts at most 16 entries (10_state R25), the accumulators hold less than a
period (R30: the instruction accumulator unless a fault stopped the tick), the fault record is coherent, and memory
is in canonical form. -/
structure State.Inv (s : State) : Prop where
  spBound : s.sp.toNat ≤ 16
  instAccBound : s.fault.halted = false → s.instAcc < 4
  decayAccBound : s.decayAcc < 50
  faultCoherent : s.fault.Coherent s.pc s.sp
  memWf : Mem.Wf s.font s.mem

/-- PC never wraps (40_cycle R95): it is at most 0x10FE, and every stack entry is the address of a CALL that was
fetched, or 0. -/
structure State.PcBounded (s : State) : Prop where
  pcBound : s.pc.toNat ≤ 0x10FE
  entryBound : ∀ (j : Nat) (a : Word), s.stack[j]? = some a → a.toNat ≤ 0xFFE

end Sys2Proof.Machine
end

