-- ==== Sys2Proof/Certificates/Slice0/Obligations.lean ====
section
/-! DEFINITION. The statements for the provers. An instruction's statement says which words select it (30_encoding
R80), that its meaning ANSWERS a next state, what that state holds, and what it leaves unchanged. -/

open Sys2Proof Sys2Proof.Machine

/-! ### Encoding -/

/-- Decoding an encoded well-formed instruction gives it back, whatever bytes follow it (R70, R73, R80, R81). -/
def Obligations.DecodeOfEncode : Prop :=
  ∀ (i : Instr) (rest : List Byte), i.WellFormed → decode (encodeBytes i ++ rest) = .ok (i, rest)

/-- R73: the four nibbles rebuild the word, `nnn` and `kk` are made of them. -/
def Obligations.NibblesRebuildWord : Prop :=
  ∀ w : Word,
    opField w ++ xField w ++ yField w ++ nField w = w ∧
      (opField w).toNat * 4096 + (xField w).toNat * 256 + (yField w).toNat * 16 + (nField w).toNat = w.toNat ∧
      (nnnField w).toNat = (xField w).toNat * 256 + (yField w).toNat * 16 + (nField w).toNat ∧
      (kkField w).toNat = (yField w).toNat * 16 + (nField w).toNat

/-- Decode is total and drops no bit: every word is the encoding of the well-formed instruction it decodes to
(R73, R81). -/
def Obligations.EncodeOfDecode : Prop := ∀ w : Word, (decodeWord w).WellFormed ∧ encode (decodeWord w) = w

/-- R80's selection: the dispatch of R74 to R78 picks the matching row with the most 1 bits in its mask, and there is
exactly one such row. -/
def Obligations.WordSelectsMostSpecificRow : Prop :=
  ∀ w : Word, ∃ r : OpcodeRow,
    opcodeRows[rowIndex (decodeWord w)]? = some r ∧ rowMatches r w = true ∧
      ∀ (k : Nat) (q : OpcodeRow), opcodeRows[k]? = some q → rowMatches q w = true →
        k = rowIndex (decodeWord w) ∨ maskWeight q.mask < maskWeight r.mask

/-- A few words written out from the spec's encodings. -/
def Obligations.SampleWordsDecode : Prop :=
  decodeWord 0x00E0 = .cls ∧ decodeWord 0x01E0 = .sys 0x1E0 ∧ decodeWord 0x2300 = .call 0x300 ∧
    decodeWord 0x5121 = .seReg 1 2 1 ∧ decodeWord 0x8AB4 = .addReg 0xA 0xB ∧ decodeWord 0x801F = .undef8 0 1 0xF ∧
    decodeWord 0xD125 = .drw 1 2 5 ∧ decodeWord 0xE59E = .skp 5 ∧ decodeWord 0xF265 = .ldVxMem 2 ∧
    decodeWord 0xF0FF = .undefF 0 0xFF

/-! ### Fetch and the slot -/

/-- R53, R92: at any PC up to 0xFFE, odd or even, the slot runs the word whose high byte is at PC. -/
def Obligations.FetchIsBigEndian : Prop :=
  ∀ (s : State) (hi lo : Byte), s.fault.halted = false → s.waitValid = false →
    s.readByte s.pc.toNat = some hi → s.readByte (s.pc.toNat + 1) = some lo →
      slot s = exec (decodeWord (hi ++ lo)) s

/-- R91: a fetch with a byte outside memory faults without a word, and nothing else happens. -/
def Obligations.FetchFaultsPastEnd : Prop :=
  ∀ s : State, s.fault.halted = false → s.waitValid = false → 0xFFF ≤ s.pc.toNat →
    ∃ t, slot s = .next t ∧ FaultTaken .addressOutOfRange none s t

/-- A step runs the decoded instruction: when the next host call is `step` and the two bytes at PC decode to `i`,
`i` is well-formed and the step is `exec i`, with the call's sample on the input port, and one decay event after it
unless it halted (R101, R219). That a step of the model is one host call is the model's choice (log entry 4). -/
def Obligations.StepRunsDecodedInstruction : Prop :=
  ∀ (s : State) (sample : Input) (hi lo : Byte) (i : Instr), s.fault.halted = false → s.waitValid = false →
    s.nextCall = .step sample →
    s.readByte s.pc.toNat = some hi → s.readByte (s.pc.toNat + 1) = some lo → decode [hi, lo] = .ok (i, []) →
      i.WellFormed ∧
        step s =
          match exec i (s.takeCall.beginCall sample) with
          | .next t => .next (if t.fault.halted then t else t.decay)
          | .fault f => .fault f
          | .refused r => .refused r

/-- R61: a store is seen by the very next fetch, the word right after the storing instruction included. `after` is what
memory holds once Fx55 has stored V0..Vx from I, or Fx33 the three digits: the next slot runs the word `after` has
behind the instruction, wherever the stored bytes lie. `Mem.Wf` is kept by every step (StepKeepsInvariant). -/
def Obligations.StoredWordIsFetchedNext : Prop :=
  (∀ (x : Nibble) (s : State) (after : Nat → Byte), Mem.Wf s.font s.mem → s.fault.halted = false →
    s.waitValid = false → s.pc.toNat ≤ 0xFFC → s.i.toNat + x.toNat ≤ 0xFFF →
    (∀ k : Nibble, k.toNat ≤ x.toNat → after (s.i.toNat + k.toNat) = s.getV k) →
    (∀ a < 4096, a < s.i.toNat ∨ s.i.toNat + x.toNat < a → s.readByte a = some (after a)) →
      ∃ t, exec (.ldMemVx x) s = .next t ∧
        slot t = exec (decodeWord (after (s.pc.toNat + 2) ++ after (s.pc.toNat + 3))) t) ∧
  ∀ (x : Nibble) (s : State) (after : Nat → Byte), Mem.Wf s.font s.mem → s.fault.halted = false →
    s.waitValid = false → s.pc.toNat ≤ 0xFFC → s.i.toNat + 2 ≤ 0xFFF →
    after s.i.toNat = BitVec.ofNat 8 ((s.getV x).toNat / 100) →
    after (s.i.toNat + 1) = BitVec.ofNat 8 ((s.getV x).toNat / 10 % 10) →
    after (s.i.toNat + 2) = BitVec.ofNat 8 ((s.getV x).toNat % 10) →
    (∀ a < 4096, a < s.i.toNat ∨ s.i.toNat + 2 < a → s.readByte a = some (after a)) →
      ∃ t, exec (.ldBVx x) s = .next t ∧
        slot t = exec (decodeWord (after (s.pc.toNat + 2) ++ after (s.pc.toNat + 3))) t

/-! ### Control flow -/

/-- R110: SYS does nothing. -/
def Obligations.SysOnlyAdvances : Prop :=
  (∀ w : Word, Selects 0x0000 0xF000 w → w ≠ 0x00E0 → w ≠ 0x00EE → decodeWord w = .sys (nnnField w)) ∧
    ∀ (nnn : Addr) (s : State), ∃ t, exec (.sys nnn) s = .next t ∧ OnlyAdvances s t

/-- R98: a word of the undefined spaces does nothing. -/
def Obligations.UndefinedWordsOnlyAdvance : Prop :=
  (∀ w : Word, Selects 0x8000 0xF000 w →
      (8 ≤ (nField w).toNat ∧ (nField w).toNat ≤ 0xD ∨ nField w = 0xF) →
        decodeWord w = .undef8 (xField w) (yField w) (nField w)) ∧
    (∀ w : Word, Selects 0xE000 0xF000 w → kkField w ≠ 0x9E → kkField w ≠ 0xA1 →
      decodeWord w = .undefE (xField w) (kkField w)) ∧
    (∀ w : Word, Selects 0xF000 0xF000 w →
      kkField w ∉ [0x07, 0x0A, 0x15, 0x18, 0x1E, 0x29, 0x33, 0x55, 0x65] →
        decodeWord w = .undefF (xField w) (kkField w)) ∧
    (∀ (x y n : Nibble) (s : State), ∃ t, exec (.undef8 x y n) s = .next t ∧ OnlyAdvances s t) ∧
    (∀ (x : Nibble) (kk : Byte) (s : State), ∃ t, exec (.undefE x kk) s = .next t ∧ OnlyAdvances s t) ∧
    ∀ (x : Nibble) (kk : Byte) (s : State), ∃ t, exec (.undefF x kk) s = .next t ∧ OnlyAdvances s t

/-- R111: JP. -/
def Obligations.JumpSetsPc : Prop :=
  (∀ w : Word, Selects 0x1000 0xF000 w → decodeWord w = .jp (nnnField w)) ∧
    ∀ (nnn : Addr) (s : State),
      ∃ t, exec (.jp nnn) s = .next t ∧ t.pc.toNat = nnn.toNat ∧ OnlyChanges (fun p => p = .pc) s t

/-- R119: JP V0, whose sum never wraps; a target past the end of memory faults at the next fetch, with that PC. -/
def Obligations.JumpAddsV0 : Prop :=
  (∀ w : Word, Selects 0xB000 0xF000 w → decodeWord w = .jpV0 (nnnField w)) ∧
    ∀ (nnn : Addr) (s : State),
      ∃ t, exec (.jpV0 nnn) s = .next t ∧ t.pc.toNat = nnn.toNat + (s.getV 0).toNat ∧
        OnlyChanges (fun p => p = .pc) s t ∧
        (s.fault.halted = false → s.waitValid = false → 0xFFF < nnn.toNat + (s.getV 0).toNat →
          ∃ u, slot t = .next u ∧ FaultTaken .addressOutOfRange none t u)

/-- R114: CALL pushes its own address (the spec's decision D12); at a full stack it raises StackOverflow. -/
def Obligations.CallPushesOwnAddress : Prop :=
  (∀ w : Word, Selects 0x2000 0xF000 w → decodeWord w = .call (nnnField w)) ∧
    (∀ (nnn : Addr) (s : State), s.sp.toNat < 16 →
      ∃ t, exec (.call nnn) s = .next t ∧ t.stack[s.sp.toNat]? = some s.pc ∧ t.sp.toNat = s.sp.toNat + 1 ∧
        t.pc.toNat = nnn.toNat ∧
        OnlyChanges (fun p => p = .pc ∨ p = .sp ∨ p = .stackEntry s.sp.toNat) s t) ∧
    ∀ (nnn : Addr) (s : State), s.sp = 16 →
      ∃ t, exec (.call nnn) s = .next t ∧ FaultTaken .stackOverflow (some (encode (.call nnn))) s t

/-- R112: RET pops into PC and the advance follows (the spec's decision D12); the popped entry keeps its value; at an
empty stack it raises StackUnderflow. -/
def Obligations.RetResumesAfterCall : Prop :=
  (∀ w : Word, Selects 0x00EE 0xFFFF w → decodeWord w = .ret) ∧
    (∀ (s : State) (a : Word), 0 < s.sp.toNat → s.stack[s.sp.toNat - 1]? = some a →
      ∃ t, exec .ret s = .next t ∧ t.sp.toNat = s.sp.toNat - 1 ∧ t.pc = a + 2 ∧
        OnlyChanges (fun p => p = .pc ∨ p = .sp) s t) ∧
    ∀ s : State, s.sp = 0 → ∃ t, exec .ret s = .next t ∧ FaultTaken .stackUnderflow (some 0x00EE) s t

/-- R113: N nested CALLs, each executed at the target of the one before, then k <= N RETs: the k-th returns to the
instruction after the k-th last CALL; and a CALL on top of 16 raises StackOverflow. -/
def Obligations.CallsReturnInReverse : Prop :=
  (∀ (targets : List Addr) (s : State), s.sp.toNat + targets.length ≤ 16 →
    ∃ t, execAll (targets.map .call) s = .next t ∧ t.sp.toNat = s.sp.toNat + targets.length ∧
      ∀ k : Nat, 0 < k → k ≤ targets.length →
        ∃ u, execAll (List.replicate k .ret) t = .next u ∧ u.sp.toNat = s.sp.toNat + targets.length - k ∧
          ∃ site, (s.pc :: targets.map (·.setWidth 16))[targets.length - k]? = some site ∧ u.pc = site + 2) ∧
    ∀ (targets : List Addr) (nnn : Addr) (s : State), s.sp.toNat + targets.length = 16 →
      ∃ t u, execAll (targets.map .call) s = .next t ∧ exec (.call nnn) t = .next u ∧
        FaultTaken .stackOverflow (some (encode (.call nnn))) t u

/-- R115, R116: SE and SNE with an immediate. -/
def Obligations.SkipsCompareImmediate : Prop :=
  (∀ w : Word, Selects 0x3000 0xF000 w → decodeWord w = .seImm (xField w) (kkField w)) ∧
    (∀ w : Word, Selects 0x4000 0xF000 w → decodeWord w = .sneImm (xField w) (kkField w)) ∧
    ∀ (x : Nibble) (kk : Byte) (s : State),
      (∃ t, exec (.seImm x kk) s = .next t ∧ t.pc = (if s.getV x = kk then s.pc + 4 else s.pc + 2) ∧
        OnlyChanges (fun p => p = .pc) s t) ∧
      ∃ t, exec (.sneImm x kk) s = .next t ∧ t.pc = (if s.getV x = kk then s.pc + 2 else s.pc + 4) ∧
        OnlyChanges (fun p => p = .pc) s t

/-- R117, R118: SE and SNE of two registers; the low nibble is not decoded (R79; the spec's
decision D9). -/
def Obligations.SkipsCompareRegisters : Prop :=
  (∀ w : Word, Selects 0x5000 0xF000 w → decodeWord w = .seReg (xField w) (yField w) (nField w)) ∧
    (∀ w : Word, Selects 0x9000 0xF000 w → decodeWord w = .sneReg (xField w) (yField w) (nField w)) ∧
    ∀ (x y n : Nibble) (s : State),
      (∃ t, exec (.seReg x y n) s = .next t ∧ t.pc = (if s.getV x = s.getV y then s.pc + 4 else s.pc + 2) ∧
        OnlyChanges (fun p => p = .pc) s t) ∧
      ∃ t, exec (.sneReg x y n) s = .next t ∧ t.pc = (if s.getV x = s.getV y then s.pc + 2 else s.pc + 4) ∧
        OnlyChanges (fun p => p = .pc) s t

/-! ### Registers and arithmetic -/

/-- R130, R131, R133: LD Vx, kk; ADD Vx, kk, wrapping, with no flag; LD Vx, Vy. -/
def Obligations.PlainLoadsAndAdd : Prop :=
  (∀ w : Word, Selects 0x6000 0xF000 w → decodeWord w = .ldImm (xField w) (kkField w)) ∧
    (∀ w : Word, Selects 0x7000 0xF000 w → decodeWord w = .addImm (xField w) (kkField w)) ∧
    (∀ w : Word, Selects 0x8000 0xF00F w → decodeWord w = .ldReg (xField w) (yField w)) ∧
    (∀ (x : Nibble) (kk : Byte) (s : State), ∃ t, exec (.ldImm x kk) s = .next t ∧
      RegistersBecome (fun k => if k = x then kk else s.getV k) s t) ∧
    (∀ (x : Nibble) (kk : Byte) (s : State), ∃ t, exec (.addImm x kk) s = .next t ∧
      RegistersBecome
        (fun k => if k = x then BitVec.ofNat 8 (((s.getV x).toNat + kk.toNat) % 256) else s.getV k) s t) ∧
    ∀ (x y : Nibble) (s : State), ∃ t, exec (.ldReg x y) s = .next t ∧
      RegistersBecome (fun k => if k = x then s.getV y else s.getV k) s t

/-- R134 to R136: OR, AND and XOR write V[x], then clear VF, which also wins where x is F. -/
def Obligations.LogicClearsFlag : Prop :=
  (∀ w : Word, Selects 0x8001 0xF00F w → decodeWord w = .or (xField w) (yField w)) ∧
    (∀ w : Word, Selects 0x8002 0xF00F w → decodeWord w = .and (xField w) (yField w)) ∧
    (∀ w : Word, Selects 0x8003 0xF00F w → decodeWord w = .xor (xField w) (yField w)) ∧
    ∀ (x y : Nibble) (s : State),
      (∃ t, exec (.or x y) s = .next t ∧
        RegistersBecome
          (fun k => if k = 0xF then 0 else if k = x then s.getV x ||| s.getV y else s.getV k) s t) ∧
      (∃ t, exec (.and x y) s = .next t ∧
        RegistersBecome
          (fun k => if k = 0xF then 0 else if k = x then s.getV x &&& s.getV y else s.getV k) s t) ∧
      ∃ t, exec (.xor x y) s = .next t ∧
        RegistersBecome
          (fun k => if k = 0xF then 0 else if k = x then s.getV x ^^^ s.getV y else s.getV k) s t

/-- R137: ADD Vx, Vy: the sum modulo 256, then the carry into VF, which also wins where x is F. -/
def Obligations.AddSetsCarry : Prop :=
  (∀ w : Word, Selects 0x8004 0xF00F w → decodeWord w = .addReg (xField w) (yField w)) ∧
    ∀ (x y : Nibble) (s : State), ∃ t, exec (.addReg x y) s = .next t ∧
      RegistersBecome
        (fun k =>
          if k = 0xF then (if (s.getV x).toNat + (s.getV y).toNat > 255 then 1 else 0)
          else if k = x then BitVec.ofNat 8 (((s.getV x).toNat + (s.getV y).toNat) % 256)
          else s.getV k) s t

/-- R138: SUB: VF by the strict comparison first; the subtraction then reads the registers `g` so left. -/
def Obligations.SubSetsFlagFirst : Prop :=
  (∀ w : Word, Selects 0x8005 0xF00F w → decodeWord w = .sub (xField w) (yField w)) ∧
    ∀ (x y : Nibble) (s : State) (g : Nibble → Byte),
      (∀ k, g k = if k = 0xF then (if (s.getV x).toNat > (s.getV y).toNat then 1 else 0) else s.getV k) →
        ∃ t, exec (.sub x y) s = .next t ∧
          RegistersBecome
            (fun k => if k = x then BitVec.ofNat 8 (((g x).toNat + 256 - (g y).toNat) % 256) else g k) s t

/-- R139, R141: SHR and SHL: VF gets the bit shifted out first; the shift then reads the registers so left. Vy is not
read. -/
def Obligations.ShiftsSetFlagFirst : Prop :=
  (∀ w : Word, Selects 0x8006 0xF00F w → decodeWord w = .shr (xField w) (yField w)) ∧
    (∀ w : Word, Selects 0x800E 0xF00F w → decodeWord w = .shl (xField w) (yField w)) ∧
    (∀ (x y : Nibble) (s : State) (g : Nibble → Byte),
      (∀ k, g k = if k = 0xF then BitVec.ofNat 8 ((s.getV x).toNat % 2) else s.getV k) →
        ∃ t, exec (.shr x y) s = .next t ∧
          RegistersBecome (fun k => if k = x then BitVec.ofNat 8 ((g x).toNat / 2) else g k) s t) ∧
    ∀ (x y : Nibble) (s : State) (g : Nibble → Byte),
      (∀ k, g k = if k = 0xF then BitVec.ofNat 8 ((s.getV x).toNat / 128) else s.getV k) →
        ∃ t, exec (.shl x y) s = .next t ∧
          RegistersBecome (fun k => if k = x then BitVec.ofNat 8 ((g x).toNat * 2 % 256) else g k) s t

/-- R140: SUBN: the subtraction first; VF then compares the registers `g` so left. -/
def Obligations.SubnSetsFlagFromResult : Prop :=
  (∀ w : Word, Selects 0x8007 0xF00F w → decodeWord w = .subn (xField w) (yField w)) ∧
    ∀ (x y : Nibble) (s : State) (g : Nibble → Byte),
      (∀ k, g k =
        if k = x then BitVec.ofNat 8 (((s.getV y).toNat + 256 - (s.getV x).toNat) % 256) else s.getV k) →
        ∃ t, exec (.subn x y) s = .next t ∧
          RegistersBecome (fun k => if k = 0xF then (if (g x).toNat < (g y).toNat then 1 else 0) else g k) s t

/-- R144: for distinct registers, neither VF, SUBN's flag is 1 exactly when 0 < a <= b. -/
def Obligations.SubnFlagClosedForm : Prop :=
  ∀ (x y : Nibble) (s : State), x ≠ y → x ≠ 0xF → y ≠ 0xF →
    ∃ t, exec (.subn x y) s = .next t ∧
      (t.getV 0xF = if 0 < (s.getV x).toNat ∧ (s.getV x).toNat ≤ (s.getV y).toNat then 1 else 0)

/-- R142: RND's result is the draw's residue modulo kk; `kk = 0` faults and takes no draw. That a draw is the first
byte the state lists, else the free value `Config.randomByte`, is the model's choice (log entry 3, DESIGN CHOICE);
both clauses hold for every byte the environment may give. -/
def Obligations.RandomModuloImmediate : Prop :=
  (∀ w : Word, Selects 0xC000 0xF000 w → decodeWord w = .rnd (xField w) (kkField w)) ∧
    (∀ (x : Nibble) (kk r : Byte) (rest : List Byte) (s : State), kk ≠ 0 → s.draws = r :: rest →
      ∃ t, exec (.rnd x kk) s = .next t ∧ t.pc = s.pc + 2 ∧ (t.getV x).toNat = r.toNat % kk.toNat ∧
        t.draws = rest ∧ t.drawCount = s.drawCount ∧
        OnlyChanges (fun p => p = .pc ∨ p = .v x ∨ p = .draws) s t) ∧
    (∀ (x : Nibble) (kk : Byte) (s : State), kk ≠ 0 → s.draws = [] →
      ∃ t, exec (.rnd x kk) s = .next t ∧ t.pc = s.pc + 2 ∧
        (t.getV x).toNat = (Config.randomByte s.drawCount).toNat % kk.toNat ∧ t.draws = [] ∧
        t.drawCount = s.drawCount + 1 ∧ OnlyChanges (fun p => p = .pc ∨ p = .v x ∨ p = .draws) s t) ∧
    ∀ (x : Nibble) (s : State),
      ∃ t, exec (.rnd x 0) s = .next t ∧ FaultTaken .randomModuloZero (some (encode (.rnd x 0))) s t

/-! ### Index register and memory -/

/-- R160 to R162: LD I, nnn; ADD I, Vx modulo 65536 with no flag; LD F, Vx with no mask. -/
def Obligations.IndexRegisterWrites : Prop :=
  (∀ w : Word, Selects 0xA000 0xF000 w → decodeWord w = .ldI (nnnField w)) ∧
    (∀ w : Word, Selects 0xF01E 0xF0FF w → decodeWord w = .addIVx (xField w)) ∧
    (∀ w : Word, Selects 0xF029 0xF0FF w → decodeWord w = .ldFVx (xField w)) ∧
    (∀ (nnn : Addr) (s : State), ∃ t, exec (.ldI nnn) s = .next t ∧ t.pc = s.pc + 2 ∧ t.i.toNat = nnn.toNat ∧
      OnlyChanges (fun p => p = .pc ∨ p = .i) s t) ∧
    (∀ (x : Nibble) (s : State), ∃ t, exec (.addIVx x) s = .next t ∧ t.pc = s.pc + 2 ∧
      t.i.toNat = (s.i.toNat + (s.getV x).toNat) % 65536 ∧ OnlyChanges (fun p => p = .pc ∨ p = .i) s t) ∧
    ∀ (x : Nibble) (s : State), ∃ t, exec (.ldFVx x) s = .next t ∧ t.pc = s.pc + 2 ∧
      t.i.toNat = 5 * (s.getV x).toNat ∧ OnlyChanges (fun p => p = .pc ∨ p = .i) s t

/-- R163: BCD: three digits at I, I + 1, I + 2; a fault, and no byte written, where I + 2 is past 0xFFF.
`Mem.Wf`, memory's canonical form, is kept by every step (StepKeepsInvariant). -/
def Obligations.BcdStoresDigits : Prop :=
  (∀ w : Word, Selects 0xF033 0xF0FF w → decodeWord w = .ldBVx (xField w)) ∧
    (∀ (x : Nibble) (s : State), Mem.Wf s.font s.mem → s.i.toNat + 2 ≤ 0xFFF →
      ∃ t, exec (.ldBVx x) s = .next t ∧ t.pc = s.pc + 2 ∧
        t.readByte s.i.toNat = some (BitVec.ofNat 8 ((s.getV x).toNat / 100)) ∧
        t.readByte (s.i.toNat + 1) = some (BitVec.ofNat 8 ((s.getV x).toNat / 10 % 10)) ∧
        t.readByte (s.i.toNat + 2) = some (BitVec.ofNat 8 ((s.getV x).toNat % 10)) ∧
        OnlyChanges (fun p => p = .pc ∨ ∃ a, p = .byte a ∧ s.i.toNat ≤ a ∧ a < s.i.toNat + 3) s t) ∧
    ∀ (x : Nibble) (s : State), 0xFFF < s.i.toNat + 2 →
      ∃ t, exec (.ldBVx x) s = .next t ∧ FaultTaken .addressOutOfRange (some (encode (.ldBVx x))) s t

/-- R164: V0..Vx to memory, I one past the last byte; a fault, and no byte written, where I + x is past 0xFFF. -/
def Obligations.StoreRegistersAtI : Prop :=
  (∀ w : Word, Selects 0xF055 0xF0FF w → decodeWord w = .ldMemVx (xField w)) ∧
    (∀ (x : Nibble) (s : State), Mem.Wf s.font s.mem → s.i.toNat + x.toNat ≤ 0xFFF →
      ∃ t, exec (.ldMemVx x) s = .next t ∧ t.pc = s.pc + 2 ∧
        (∀ k : Nibble, k.toNat ≤ x.toNat → t.readByte (s.i.toNat + k.toNat) = some (s.getV k)) ∧
        t.i.toNat = s.i.toNat + x.toNat + 1 ∧
        OnlyChanges
          (fun p => p = .pc ∨ p = .i ∨ ∃ a, p = .byte a ∧ s.i.toNat ≤ a ∧ a < s.i.toNat + (x.toNat + 1)) s t) ∧
    ∀ (x : Nibble) (s : State), 0xFFF < s.i.toNat + x.toNat →
      ∃ t, exec (.ldMemVx x) s = .next t ∧ FaultTaken .addressOutOfRange (some (encode (.ldMemVx x))) s t

/-- R165: memory to V0..Vx, I one past the last byte; a fault, and no register written, where I + x is past 0xFFF. -/
def Obligations.LoadRegistersFromI : Prop :=
  (∀ w : Word, Selects 0xF065 0xF0FF w → decodeWord w = .ldVxMem (xField w)) ∧
    (∀ (x : Nibble) (s : State), s.i.toNat + x.toNat ≤ 0xFFF →
      ∃ t, exec (.ldVxMem x) s = .next t ∧ t.pc = s.pc + 2 ∧
        (∀ k : Nibble, k.toNat ≤ x.toNat → s.readByte (s.i.toNat + k.toNat) = some (t.getV k)) ∧
        t.i.toNat = s.i.toNat + x.toNat + 1 ∧
        OnlyChanges (fun p => p = .pc ∨ p = .i ∨ ∃ k : Nibble, p = .v k ∧ k.toNat ≤ x.toNat) s t) ∧
    ∀ (x : Nibble) (s : State), 0xFFF < s.i.toNat + x.toNat →
      ∃ t, exec (.ldVxMem x) s = .next t ∧ FaultTaken .addressOutOfRange (some (encode (.ldVxMem x))) s t

/-- Fx55, then Fx65 with I reloaded and memory untouched between, restores V0..Vx (R164, R165; the round trip of
90_conflicts C3). -/
def Obligations.StoreThenLoadRestores : Prop :=
  ∀ (x : Nibble) (s t u : State), Mem.Wf s.font s.mem → s.i.toNat + x.toNat ≤ 0xFFF → exec (.ldMemVx x) s = .next t →
    u.i = s.i → (∀ a, u.readByte a = t.readByte a) →
      ∃ w, exec (.ldVxMem x) u = .next w ∧ ∀ k : Nibble, k.toNat ≤ x.toNat → w.getV k = s.getV k

/-! ### Display -/

/-- R180: CLS turns every pixel off and changes nothing else. -/
def Obligations.ClsTurnsPixelsOff : Prop :=
  (∀ w : Word, Selects 0x00E0 0xFFFF w → decodeWord w = .cls) ∧
    ∀ s : State, ∃ t, exec .cls s = .next t ∧ t.pc = s.pc + 2 ∧ (∀ px py, t.pixel px py = false) ∧
      OnlyChanges (fun p => p = .pc ∨ ∃ px py, p = .pixel px py) s t

/-- R181: DRW toggles exactly the on-screen pixels the sprite covers, and VF says whether one of them was on; a
fault, and no pixel changed, where a sprite byte is past 0xFFF. Which bit of a sprite byte is the leftmost column
rests on the spec's sentence "Bit 7 leftmost is the CHIP-8 convention" (44_display R182, general knowledge; log entry
2, PRESUMED). -/
def Obligations.DrwTogglesCoveredPixels : Prop :=
  (∀ w : Word, Selects 0xD000 0xF000 w → decodeWord w = .drw (xField w) (yField w) (nField w)) ∧
    (∀ (x y n : Nibble) (s : State), n = 0 ∨ s.i.toNat + n.toNat - 1 ≤ 0xFFF →
      ∃ t, exec (.drw x y n) s = .next t ∧ t.pc = s.pc + 2 ∧
        (∀ px py, SpriteCovers s (s.getV x).toNat (s.getV y).toNat n.toNat px py → OnScreen px py →
          t.pixel px py = !s.pixel px py) ∧
        (∀ px py, ¬(SpriteCovers s (s.getV x).toNat (s.getV y).toNat n.toNat px py ∧ OnScreen px py) →
          t.pixel px py = s.pixel px py) ∧
        ((∃ px py, SpriteCovers s (s.getV x).toNat (s.getV y).toNat n.toNat px py ∧ OnScreen px py ∧
          s.pixel px py = true) → t.getV 0xF = 1) ∧
        ((¬∃ px py, SpriteCovers s (s.getV x).toNat (s.getV y).toNat n.toNat px py ∧ OnScreen px py ∧
          s.pixel px py = true) → t.getV 0xF = 0) ∧
        OnlyChanges (fun p => p = .pc ∨ p = .v 0xF ∨ ∃ px py, p = .pixel px py) s t) ∧
    ∀ (x y n : Nibble) (s : State), n ≠ 0 → 0xFFF < s.i.toNat + n.toNat - 1 →
      ∃ t, exec (.drw x y n) s = .next t ∧ FaultTaken .addressOutOfRange (some (encode (.drw x y n))) s t

/-- The same sprite drawn twice at the same coordinates from the same bytes, nothing in between: every pixel ends as
it was; the second draw's VF is 1 exactly when the first draw turned a pixel ON, and 0 otherwise, so 0 for both where
no on-pixel is on the screen. This is what R181 gives; R184's own wording of the second flag leaves out the pixels
that were on before (log entry 12; the model's reading, DEDUCED). The bit order is log entry 2's, PRESUMED. -/
def Obligations.DoubleDrawRestoresPixels : Prop :=
  ∀ (x y n : Nibble) (s : State), n = 0 ∨ s.i.toNat + n.toNat - 1 ≤ 0xFFF →
    ∃ t, exec (.drw x y n) s = .next t ∧
      (t.getV x = s.getV x → t.getV y = s.getV y →
        ∃ w, exec (.drw x y n) t = .next w ∧ (∀ px py, w.pixel px py = s.pixel px py) ∧
          ((∃ px py, SpriteCovers s (s.getV x).toNat (s.getV y).toNat n.toNat px py ∧ OnScreen px py ∧
            s.pixel px py = false) → w.getV 0xF = 1) ∧
          ((¬∃ px py, SpriteCovers s (s.getV x).toNat (s.getV y).toNat n.toNat px py ∧ OnScreen px py ∧
            s.pixel px py = false) → w.getV 0xF = 0))

/-! ### Keys and timers -/

/-- R190, R191: SKP and SKNP read the held level of key V[x]; a value above 15 is no key. -/
def Obligations.SkipsReadHeldKey : Prop :=
  (∀ w : Word, Selects 0xE09E 0xF0FF w → decodeWord w = .skp (xField w)) ∧
    (∀ w : Word, Selects 0xE0A1 0xF0FF w → decodeWord w = .sknp (xField w)) ∧
    (∀ (x : Nibble) (s : State), (s.getV x).toNat ≤ 15 →
      (∃ t, exec (.skp x) s = .next t ∧
        t.pc = (if s.input.keyHeld.getLsbD (s.getV x).toNat = true then s.pc + 4 else s.pc + 2) ∧
        OnlyChanges (fun p => p = .pc) s t) ∧
      ∃ t, exec (.sknp x) s = .next t ∧
        t.pc = (if s.input.keyHeld.getLsbD (s.getV x).toNat = true then s.pc + 2 else s.pc + 4) ∧
        OnlyChanges (fun p => p = .pc) s t) ∧
    ∀ (x : Nibble) (s : State), 15 < (s.getV x).toNat →
      (∃ t, exec (.skp x) s = .next t ∧ FaultTaken .keyIndexOutOfRange (some (encode (.skp x))) s t) ∧
      ∃ t, exec (.sknp x) s = .next t ∧ FaultTaken .keyIndexOutOfRange (some (encode (.sknp x))) s t

/-- R192, R194: Vx <- DT and DT <- Vx. -/
def Obligations.DelayTimerMoves : Prop :=
  (∀ w : Word, Selects 0xF007 0xF0FF w → decodeWord w = .ldVxDt (xField w)) ∧
    (∀ w : Word, Selects 0xF015 0xF0FF w → decodeWord w = .ldDtVx (xField w)) ∧
    ∀ (x : Nibble) (s : State),
      (∃ t, exec (.ldVxDt x) s = .next t ∧ RegistersBecome (fun k => if k = x then s.dt else s.getV k) s t) ∧
      ∃ t, exec (.ldDtVx x) s = .next t ∧ t.pc = s.pc + 2 ∧ t.dt = s.getV x ∧
        OnlyChanges (fun p => p = .pc ∨ p = .dt) s t

/-- R195: ST <- Vx, and the audio port is called exactly on an edge of the tone (the spec's decision D22); `audio` is
the model's record of the port's calls (log entry 8). -/
def Obligations.SoundTimerDrivesTone : Prop :=
  (∀ w : Word, Selects 0xF018 0xF0FF w → decodeWord w = .ldStVx (xField w)) ∧
    ∀ (x : Nibble) (s : State), ∃ t, exec (.ldStVx x) s = .next t ∧ t.pc = s.pc + 2 ∧ t.st = s.getV x ∧
      (s.fault.halted = false →
        t.audio = s.audio ++
          (if s.st = 0 ∧ s.getV x ≠ 0 then [.startTone] else if s.st ≠ 0 ∧ s.getV x = 0 then [.stopTone] else [])) ∧
      (s.fault.halted = true → t.audio = s.audio) ∧
      OnlyChanges (fun p => p = .pc ∨ p = .st ∨ p = .audio) s t

/-- R193: LD Vx, K enters the wait and PC advances in this slot; V[x] keeps its value. -/
def Obligations.KeyWaitIsEntered : Prop :=
  (∀ w : Word, Selects 0xF00A 0xF0FF w → decodeWord w = .ldVxK (xField w)) ∧
    ∀ (x : Nibble) (s : State), ∃ t, exec (.ldVxK x) s = .next t ∧ t.pc = s.pc + 2 ∧ t.waitValid = true ∧
      t.waitReg = x ∧ OnlyChanges (fun p => p = .pc ∨ p = .wait) s t

/-- R96: the poll, as the whole slot of a waiting core: no release, no change; else the lowest released key goes into
V[waitReg] and the wait ends. -/
def Obligations.PollStoresLowestKey : Prop :=
  (∀ s : State, s.fault.halted = false → s.waitValid = true → s.input.keyReleased = 0 → slot s = .next s) ∧
    ∀ (s : State) (k : Nat), s.fault.halted = false → s.waitValid = true → k < 16 →
      s.input.keyReleased.getLsbD k = true → (∀ j < k, s.input.keyReleased.getLsbD j = false) →
        ∃ t, slot s = .next t ∧ (t.getV s.waitReg).toNat = k ∧ t.waitValid = false ∧ t.waitReg = s.waitReg ∧
          OnlyChanges (fun p => p = .v s.waitReg ∨ p = .wait) s t

/-- While a wait is pending and no key is released, a `tick` and a `step` leave PC, every register and the wait as
they are, and the timers still decay: by the whole decay periods of the tick, by one under step (R223, R218, R219). The pieces named as
changing beside DT and ST are the accumulators, the tone's edges and the model's own record of the call (log entries 4,
6, 8, 9). -/
def Obligations.KeyWaitHoldsWhileTimersDecay : Prop :=
  (∀ (s : State) (delta : Nat) (held : Word), s.fault.halted = false → s.waitValid = true →
    s.nextCall = .tick delta { keyHeld := held, keyReleased := 0 } →
      ∃ t, step s = .next t ∧ t.dt.toNat = s.dt.toNat - (s.decayAcc + delta) / 50 ∧
        t.st.toNat = s.st.toNat - (s.decayAcc + delta) / 50 ∧
        OnlyChanges (fun p => p = .dt ∨ p = .st ∨ p = .instAcc ∨ p = .decayAcc ∨ p = .input ∨ p = .calls ∨
          p = .started ∨ p = .audio) s t) ∧
    ∀ (s : State) (held : Word), s.fault.halted = false → s.waitValid = true →
      s.nextCall = .step { keyHeld := held, keyReleased := 0 } →
        ∃ t, step s = .next t ∧ t.dt.toNat = s.dt.toNat - 1 ∧ t.st.toNat = s.st.toNat - 1 ∧
          OnlyChanges (fun p => p = .dt ∨ p = .st ∨ p = .input ∨ p = .calls ∨ p = .started ∨ p = .audio) s t

/-! ### Faults -/

/-- For EVERY instruction and every state whose SP counts at most 16 entries, executing it answers a next state; it
takes a fault exactly on the condition R211 names for it, precisely (R64, R212), and else leaves the record alone. -/
def Obligations.FaultsExactlyOnTheirConditions : Prop :=
  ∀ (i : Instr) (s : State), s.sp.toNat ≤ 16 →
    ∃ t, exec i s = .next t ∧
      (causeOf i s = .none → t.fault = s.fault) ∧
      (causeOf i s ≠ .none → FaultTaken (causeOf i s) (some (encode i)) s t)

/-- R213: once halted, a `tick` or a `step` changes nothing (but the call is taken, and the audio port's record of
this call is empty); the tone is off. -/
def Obligations.HaltedCoreIsStuck : Prop :=
  ∀ (s : State) (delta : Nat) (sample : Input), s.fault.halted = true →
    (s.nextCall = .tick delta sample ∨ s.nextCall = .step sample) →
      ∃ t, step s = .next t ∧ t.audio = [] ∧ t.toneOn = false ∧ OnlyChanges (fun p => p = .calls ∨ p = .audio) s t

/-! ### The timing controller -/

/-- A decay event (R220): each timer down by one unless it is 0, and one StopTone where ST goes from 1 to 0 while the
tone plays, which a halted core's does not (R32, R229). `audio` is the model's record of the port's calls (log entry 8,
DESIGN CHOICE). -/
def Obligations.DecayClampsAtZero : Prop :=
  ∀ s : State,
    s.decay.dt.toNat = s.dt.toNat - 1 ∧ s.decay.st.toNat = s.st.toNat - 1 ∧
      s.decay.audio = s.audio ++ (if s.st = 1 ∧ s.fault.halted = false then [.stopTone] else []) ∧
      OnlyChanges (fun p => p = .dt ∨ p = .st ∨ p = .audio) s s.decay

/-- R219: `step` is one slot with the call's sample, then one decay unless the slot halted; the accumulators keep
their values. -/
def Obligations.StepIsSlotThenDecay : Prop :=
  ∀ (s u : State) (sample : Input), s.fault.halted = false → s.nextCall = .step sample →
    slot (s.takeCall.beginCall sample) = .next u →
      ∃ t, step s = .next t ∧ t.instAcc = s.instAcc ∧ t.decayAcc = s.decayAcc ∧
        (u.fault.halted = true → t = u) ∧
        (u.fault.halted = false → t.dt.toNat = u.dt.toNat - 1 ∧ t.st.toNat = u.st.toNat - 1 ∧
          OnlyChanges (fun p => p = .dt ∨ p = .st ∨ p = .audio) u t)

/-- R218: `tick` is as many slots as whole instruction periods are there, then as many decays as whole decay periods
are there, and the accumulators keep the rest; a fault ends it at once: 4 units are spent for each of the `count` slots
that ran, the last of which halted, the unspent units are kept, and there is no decay. -/
def Obligations.TickIsSlotsThenDecays : Prop :=
  (∀ (s u : State) (delta : Nat) (sample : Input), s.fault.halted = false → s.nextCall = .tick delta sample →
    slotTimes ((s.instAcc + delta) / 4) (s.takeCall.beginCall sample) = .next u → u.fault.halted = false →
      ∃ t, step s = .next t ∧ t.instAcc = (s.instAcc + delta) % 4 ∧ t.decayAcc = (s.decayAcc + delta) % 50 ∧
        t.dt.toNat = u.dt.toNat - (s.decayAcc + delta) / 50 ∧
        t.st.toNat = u.st.toNat - (s.decayAcc + delta) / 50 ∧
        OnlyChanges (fun p => p = .dt ∨ p = .st ∨ p = .audio ∨ p = .instAcc ∨ p = .decayAcc) u t) ∧
    ∀ (s u : State) (delta : Nat) (sample : Input), s.fault.halted = false → s.nextCall = .tick delta sample →
      slotTimes ((s.instAcc + delta) / 4) (s.takeCall.beginCall sample) = .next u → u.fault.halted = true →
        ∃ t count, step s = .next t ∧ 0 < count ∧ count ≤ (s.instAcc + delta) / 4 ∧
          slotTimes count (s.takeCall.beginCall sample) = .next u ∧
          (∃ v, slotTimes (count - 1) (s.takeCall.beginCall sample) = .next v ∧ v.fault.halted = false) ∧
          t.instAcc = s.instAcc + delta - 4 * count ∧ t.decayAcc = s.decayAcc ∧
          OnlyChanges (fun p => p = .instAcc) u t

/-- R221, R30: over any ticks without a fault, from accumulators below a period, what is left in each accumulator
depends only on the sum of the deltas and on that accumulator, so that 4 times the slots run, and 50 times the decays
run, are the units added less what is left. -/
def Obligations.AccumulatorsAreDecoupled : Prop :=
  ∀ (ticks : List (Nat × Input)) (later : List HostCall) (s t : State), s.Inv →
    s.calls = ticks.map (fun c => .tick c.1 c.2) ++ later →
    Host.Core.run core ticks.length s = .next t → t.fault.halted = false →
      t.instAcc = (s.instAcc + (ticks.map (·.1)).sum) % 4 ∧ t.decayAcc = (s.decayAcc + (ticks.map (·.1)).sum) % 50

/-! ### Reset and load -/

/-- The reset state of R250, R251 and R253 for every value of the parameter `FONT_DATA` (R252), `State.reset` being the
one with the default. The fault record's values are the spec's decision D4; the default's bytes, which no clause here
uses, are log entry 1's (PRESUMED). -/
def Obligations.ResetLeavesTheseValues : Prop :=
  State.reset = State.resetWith defaultFont ∧ ∀ f : Font,
    (∀ k : Nibble, (State.resetWith f).getV k = 0) ∧ (State.resetWith f).i = 0 ∧ (State.resetWith f).pc = 0x0200 ∧
    (State.resetWith f).sp = 0 ∧ (∀ j < 16, (State.resetWith f).stack[j]? = some 0) ∧
    (State.resetWith f).dt = 0 ∧ (State.resetWith f).st = 0 ∧
    (∀ px py, (State.resetWith f).pixel px py = false) ∧
    (State.resetWith f).waitValid = false ∧ (State.resetWith f).waitReg = 0 ∧
    (State.resetWith f).instAcc = 0 ∧ (State.resetWith f).decayAcc = 0 ∧
    (State.resetWith f).fault.halted = false ∧ (State.resetWith f).fault.cause.code = 0 ∧
    (State.resetWith f).fault.faultPC = 0 ∧ (State.resetWith f).fault.faultSP = 0 ∧
    (State.resetWith f).fault.faultOp = 0 ∧ (State.resetWith f).fault.faultOpValid = false ∧
    (State.resetWith f).toneOn = false ∧
    (∀ (a : Nat) (h : a < 80), (State.resetWith f).readByte a = some f[a]) ∧
    (∀ a, 80 ≤ a → a < 4096 → (State.resetWith f).readByte a = some 0) ∧
    ∀ a, 4096 ≤ a → (State.resetWith f).readByte a = none

/-- R255: `reset()` from any state, halted or not, gives the reset state under the machine's own font; the environment's
side of the ports is kept (the model's own fields, log entries 3, 4 and 6). -/
def Obligations.ResetCallDiscardsEverything : Prop :=
  ∀ s : State, s.nextCall = .reset →
    ∃ t, step s = .next t ∧
      OnlyChanges (fun p => p = .input ∨ p = .calls ∨ p = .draws ∨ p = .audio) (State.resetWith s.font) t ∧
      t.input = s.input ∧ t.calls = s.calls.tail ∧ t.draws = s.draws ∧ t.drawCount = s.drawCount

/-- `load` before the first tick or step writes the image from 0x200 and nothing else (R63); an image of more than
3584 bytes, and a load after the first tick or step, are refused: their names and the field `started` are the model's
(log entry 9). -/
def Obligations.LoadWritesImageOrIsRefused : Prop :=
  (∀ (s : State) (rom : List Byte), Mem.Wf s.font s.mem → s.nextCall = .load rom →
    s.started = false → rom.length ≤ 3584 →
    ∃ t, step s = .next t ∧ (∀ j, j < rom.length → t.readByte (0x200 + j) = rom[j]?) ∧
      OnlyChanges
        (fun p => p = .calls ∨ p = .audio ∨ ∃ a, p = .byte a ∧ 0x200 ≤ a ∧ a < 0x200 + rom.length) s t) ∧
    (∀ (s : State) (rom : List Byte), s.nextCall = .load rom → s.started = false → 3584 < rom.length →
      step s = .refused .romTooLong) ∧
    ∀ (s : State) (rom : List Byte), s.nextCall = .load rom → s.started = true → step s = .refused .lateLoad

/-! ### Invariants and rules about the whole machine -/

/-- The invariants hold at reset, whatever the font. -/
def Obligations.InvariantsHoldAtReset : Prop :=
  (State.reset.Inv ∧ State.reset.PcBounded) ∧ ∀ f : Font, (State.resetWith f).Inv ∧ (State.resetWith f).PcBounded

/-- Every host call keeps the invariants: SP at most 16 (R25), the accumulators (R30), the fault record (R31, R212,
R213), memory's canonical form. -/
def Obligations.StepKeepsInvariant : Prop := ∀ s t : State, s.Inv → step s = .next t → t.Inv

/-- Every host call keeps PC at most 0x10FE, so PC never wraps (R23, R95). -/
def Obligations.StepKeepsPcBounded : Prop := ∀ s t : State, s.PcBounded → step s = .next t → t.PcBounded

/-- Over any host call, the audio port's calls are exactly the edges of the tone (R32, R229): they alternate from the
level before the call and end at the level after it. That the host call reset, where the tone plays, is such an edge too
is the model's reading of R32, which R229's list of falling edges does not name; it and the record `audio` are log entry
8's (DEDUCED; DESIGN CHOICE). -/
def Obligations.ToneCallsAreTheEdges : Prop :=
  ∀ s t : State, step s = .next t → toneAfter s.toneOn t.audio = some t.toneOn

/-- R22, R24, R26, R27, R28, R38: which instructions may change what. None touches an accumulator, the input sample,
the host's calls, the record of a first tick or step, or the parameter `FONT_DATA`. -/
def Obligations.OnlyTheseInstructionsChangeThem : Prop :=
  ∀ (i : Instr) (s t : State), exec i s = .next t →
    OnlyChanges
      (fun p => p = .pc ∨ p = .fault ∨ p = .audio ∨ (∃ k, p = .v k) ∨
        (∃ a, p = .byte a ∧ storesMemory i = true) ∨ (∃ px py, p = .pixel px py ∧ writesDisplay i = true) ∨
        (p = .sp ∧ touchesStack i = true) ∨ (∃ j nnn, p = .stackEntry j ∧ i = .call nnn) ∨
        (p = .i ∧ writesI i = true) ∨ (∃ x, p = .dt ∧ i = .ldDtVx x) ∨ (∃ x, p = .st ∧ i = .ldStVx x) ∨
        (∃ x, p = .wait ∧ i = .ldVxK x) ∨ ∃ x kk, p = .draws ∧ i = .rnd x kk) s t

/-- R36: an instruction changes V[k] only if it names V[k] as a destination or, for VF, stands in the flag table. -/
def Obligations.OnlyNamedRegistersAndFlagChange : Prop :=
  ∀ (i : Instr) (s t : State) (k : Nibble), exec i s = .next t → writesV k i = false →
    (k = 0xF → writesFlag i = false) → t.getV k = s.getV k

/-- R226: no instruction but SKP and SKNP depends on the input sample, those two do not depend on its released keys,
and the poll does not depend on its held keys. -/
def Obligations.OnlyKeySkipsReadInput : Prop :=
  (∀ (i : Instr) (s t : State) (other : Input), (∀ x, i ≠ .skp x ∧ i ≠ .sknp x) → exec i s = .next t →
    exec i { s with input := other } = .next { t with input := other }) ∧
  (∀ (x : Nibble) (i : Instr) (s t : State) (released : Word), i = .skp x ∨ i = .sknp x → exec i s = .next t →
    exec i { s with input := { s.input with keyReleased := released } } =
      .next { t with input := { s.input with keyReleased := released } }) ∧
  ∀ (s : State) (held : Word),
    ({ s with input := { s.input with keyHeld := held } } : State).poll =
      { s.poll with input := { s.input with keyHeld := held } }
end

