-- ==== Sys2Proof/Laws/Decode.lean ====
section
/-! SUPPORT. The fields of a word as numbers, of a word built from fields, and of a word a mask selects. -/

namespace Sys2Proof

/-- A value put above another is its multiple of the lower one's range. -/
theorem toNat_append_add {m k : Nat} (a : BitVec m) (b : BitVec k) : (a ++ b).toNat = a.toNat * 2 ^ k + b.toNat := by
  rw [BitVec.toNat_append, ← Nat.shiftLeft_add_eq_or_of_lt b.isLt, Nat.shiftLeft_eq]

/-! ### Fields as numbers (R6, R71) -/

theorem opField_toNat (w : Word) : (opField w).toNat = w.toNat / 4096 := by
  have := w.isLt
  simp [opField, BitVec.extractLsb'_toNat, Nat.shiftRight_eq_div_pow]; omega

theorem xField_toNat (w : Word) : (xField w).toNat = w.toNat / 256 % 16 := by
  simp [xField, BitVec.extractLsb'_toNat, Nat.shiftRight_eq_div_pow]

theorem yField_toNat (w : Word) : (yField w).toNat = w.toNat / 16 % 16 := by
  simp [yField, BitVec.extractLsb'_toNat, Nat.shiftRight_eq_div_pow]

theorem nField_toNat (w : Word) : (nField w).toNat = w.toNat % 16 := by
  simp [nField, BitVec.extractLsb'_toNat]

theorem nnnField_toNat (w : Word) : (nnnField w).toNat = w.toNat % 4096 := by
  simp [nnnField, BitVec.extractLsb'_toNat]

theorem kkField_toNat (w : Word) : (kkField w).toNat = w.toNat % 256 := by
  simp [kkField, BitVec.extractLsb'_toNat]

/-! ### Built words as numbers (R73) -/

theorem wordXyn_toNat (op x y n : Nibble) :
    (wordXyn op x y n).toNat = op.toNat * 4096 + x.toNat * 256 + y.toNat * 16 + n.toNat := by
  have h : (wordXyn op x y n).toNat = ((op.toNat * 2 ^ 4 + x.toNat) * 2 ^ 4 + y.toNat) * 2 ^ 4 + n.toNat := by
    rw [← toNat_append_add, ← toNat_append_add, ← toNat_append_add]; rfl
  rw [h]; omega

theorem wordXkk_toNat (op x : Nibble) (kk : Byte) :
    (wordXkk op x kk).toNat = op.toNat * 4096 + x.toNat * 256 + kk.toNat := by
  have h : (wordXkk op x kk).toNat = (op.toNat * 2 ^ 4 + x.toNat) * 2 ^ 8 + kk.toNat := by
    rw [← toNat_append_add, ← toNat_append_add]; rfl
  rw [h]; omega

theorem wordNnn_toNat (op : Nibble) (nnn : Addr) : (wordNnn op nnn).toNat = op.toNat * 4096 + nnn.toNat := by
  have h : (wordNnn op nnn).toNat = op.toNat * 2 ^ 12 + nnn.toNat := by rw [← toNat_append_add]; rfl
  rw [h]; omega

/-! ### Fields of built words -/

@[simp] theorem opField_wordXyn (op x y n : Nibble) : opField (wordXyn op x y n) = op := by
  apply BitVec.eq_of_toNat_eq; rw [opField_toNat, wordXyn_toNat]; omega

@[simp] theorem xField_wordXyn (op x y n : Nibble) : xField (wordXyn op x y n) = x := by
  apply BitVec.eq_of_toNat_eq; rw [xField_toNat, wordXyn_toNat]; omega

@[simp] theorem yField_wordXyn (op x y n : Nibble) : yField (wordXyn op x y n) = y := by
  apply BitVec.eq_of_toNat_eq; rw [yField_toNat, wordXyn_toNat]; omega

@[simp] theorem nField_wordXyn (op x y n : Nibble) : nField (wordXyn op x y n) = n := by
  apply BitVec.eq_of_toNat_eq; rw [nField_toNat, wordXyn_toNat]; omega

@[simp] theorem opField_wordXkk (op x : Nibble) (kk : Byte) : opField (wordXkk op x kk) = op := by
  apply BitVec.eq_of_toNat_eq; rw [opField_toNat, wordXkk_toNat]; omega

@[simp] theorem xField_wordXkk (op x : Nibble) (kk : Byte) : xField (wordXkk op x kk) = x := by
  apply BitVec.eq_of_toNat_eq; rw [xField_toNat, wordXkk_toNat]; omega

@[simp] theorem kkField_wordXkk (op x : Nibble) (kk : Byte) : kkField (wordXkk op x kk) = kk := by
  apply BitVec.eq_of_toNat_eq; rw [kkField_toNat, wordXkk_toNat]; omega

@[simp] theorem opField_wordNnn (op : Nibble) (nnn : Addr) : opField (wordNnn op nnn) = op := by
  apply BitVec.eq_of_toNat_eq; rw [opField_toNat, wordNnn_toNat]; omega

@[simp] theorem nnnField_wordNnn (op : Nibble) (nnn : Addr) : nnnField (wordNnn op nnn) = nnn := by
  apply BitVec.eq_of_toNat_eq; rw [nnnField_toNat, wordNnn_toNat]; omega

/-! ### Masks -/

/-- Bit `k` of a word under a mask. -/
theorem selects_getLsbD {value mask w : Word} (h : Machine.Selects value mask w) (k : Nat)
    (hk : mask.getLsbD k = true) : w.getLsbD k = value.getLsbD k := by
  have := congrArg (fun v : Word => v.getLsbD k) h
  simpa [hk] using this

/-- Two words are the same when a mask selects both fully. -/
theorem selects_all {value w : Word} : Machine.Selects value 0xFFFF w ↔ w = value := by
  constructor
  · intro h
    apply BitVec.eq_of_getLsbD_eq
    intro k hk
    exact selects_getLsbD h k (by interval_cases k <;> rfl)
  · rintro rfl
    exact BitVec.and_allOnes

/-- A field's bits are the word's. -/
theorem extract_eq_of_selects {value mask w : Word} (start len : Nat) (h : Machine.Selects value mask w)
    (hm : ∀ k < len, mask.getLsbD (start + k) = true) :
    w.extractLsb' start len = value.extractLsb' start len := by
  apply BitVec.eq_of_getLsbD_eq
  intro k hk
  simp [hk, selects_getLsbD h (start + k) (hm k hk)]

/-- The mask 0xF000 selects by `op`. -/
theorem op_of_selects {value mask w : Word} (h : Machine.Selects value mask w)
    (hm : ∀ k < 4, mask.getLsbD (12 + k) = true) : opField w = opField value :=
  extract_eq_of_selects 12 4 h hm

/-- The masks 0xF00F and 0xF0FF select by `n` too. -/
theorem n_of_selects {value mask w : Word} (h : Machine.Selects value mask w)
    (hm : ∀ k < 4, mask.getLsbD (0 + k) = true) : nField w = nField value :=
  extract_eq_of_selects 0 4 h hm

/-- The mask 0xF0FF selects by `kk` too. -/
theorem kk_of_selects {value mask w : Word} (h : Machine.Selects value mask w)
    (hm : ∀ k < 8, mask.getLsbD (0 + k) = true) : kkField w = kkField value :=
  extract_eq_of_selects 0 8 h hm

end Sys2Proof
end

