-- ==== Sys2Proof/Laws/Memory.lean ====
section
/-! SUPPORT. What the memory operations do, and that each keeps the canonical form. -/

namespace Sys2Proof.Machine

variable {f : Font}

/-! ### The reset contents -/

theorem resetByte_font {a : Nat} (h : a < 80) : resetByte f a = f[a] := dif_pos h

theorem resetByte_zero {a : Nat} (h : 80 ≤ a) : resetByte f a = 0 := dif_neg (by omega)

/-! ### The canonical form -/

@[simp] theorem Mem.wf_nil : Mem.Wf f [] := ⟨List.Pairwise.nil, by simp⟩

theorem Mem.wf_tail {c : Host.Cell} {m : List Host.Cell} (h : Mem.Wf f (c :: m)) : Mem.Wf f m :=
  ⟨(List.pairwise_cons.mp h.1).2, fun d hd => h.2 d (List.mem_cons_of_mem _ hd)⟩

theorem Mem.wf_head_lt {c d : Host.Cell} {m : List Host.Cell} (h : Mem.Wf f (c :: m)) (hd : d ∈ m) : c.1 < d.1 :=
  (List.pairwise_cons.mp h.1).1 d hd

theorem Mem.wf_cons {c : Host.Cell} {m : List Host.Cell} (hm : Mem.Wf f m) (hlt : ∀ d ∈ m, c.1 < d.1)
    (hc : c.1 < Config.memSize) (hv : c.2 ≠ resetByte f c.1) : Mem.Wf f (c :: m) := by
  refine ⟨List.pairwise_cons.mpr ⟨hlt, hm.1⟩, fun d hd => ?_⟩
  rcases List.mem_cons.mp hd with rfl | hd
  · exact ⟨hc, hv⟩
  · exact hm.2 d hd

theorem Mem.wf_consCell {a : Nat} {b : Byte} {m : List Host.Cell} (hm : Mem.Wf f m) (hlt : ∀ d ∈ m, a < d.1)
    (ha : a < Config.memSize) : Mem.Wf f (Mem.consCell f a b m) := by
  unfold Mem.consCell
  split
  · exact hm
  · exact Mem.wf_cons hm hlt ha (by assumption)

theorem Mem.mem_consCell {a : Nat} {b : Byte} {m : List Host.Cell} {d : Host.Cell} (h : d ∈ Mem.consCell f a b m) :
    d.1 = a ∨ d ∈ m := by
  unfold Mem.consCell at h
  split at h
  · exact .inr h
  · rcases List.mem_cons.mp h with rfl | h
    · exact .inl rfl
    · exact .inr h

/-- A cell of the written memory is at the written address or was there before. -/
theorem Mem.mem_write {m : List Host.Cell} {a : Nat} {b : Byte} {d : Host.Cell} (h : d ∈ Mem.write f m a b) :
    d.1 = a ∨ d ∈ m := by
  induction m with
  | nil => exact Mem.mem_consCell h
  | cons c m ih =>
    obtain ⟨k, v⟩ := c
    simp only [Mem.write] at h
    split at h
    · exact Mem.mem_consCell h
    · split at h
      · exact (Mem.mem_consCell h).imp_right (List.mem_cons_of_mem _)
      · rcases List.mem_cons.mp h with rfl | h
        · exact .inr (by simp)
        · exact (ih h).imp_right (List.mem_cons_of_mem _)

/-- Writing one byte that exists keeps the canonical form. -/
theorem Mem.wf_write {m : List Host.Cell} {a : Nat} (b : Byte) (hm : Mem.Wf f m) (ha : a < Config.memSize) :
    Mem.Wf f (Mem.write f m a b) := by
  induction m with
  | nil => exact Mem.wf_consCell hm (by simp) ha
  | cons c m ih =>
    obtain ⟨k, v⟩ := c
    have htail := Mem.wf_tail hm
    simp only [Mem.write]
    split
    · next hlt =>
      refine Mem.wf_consCell hm (fun d hd => ?_) ha
      rcases List.mem_cons.mp hd with rfl | hd
      · exact hlt
      · exact lt_trans hlt (Mem.wf_head_lt hm hd)
    · split
      · next heq => exact Mem.wf_consCell htail (fun d hd => heq ▸ Mem.wf_head_lt hm hd) ha
      · next hnlt hne =>
        have hhead := hm.2 (k, v) (by simp)
        refine Mem.wf_cons (ih htail) (fun d hd => ?_) hhead.1 hhead.2
        rcases Mem.mem_write hd with heq | hd
        · simp only [heq]; omega
        · exact Mem.wf_head_lt hm hd

/-- Writing bytes that all exist keeps the canonical form. -/
theorem Mem.wf_writeMany {m : List Host.Cell} {a : Nat} {bs : List Byte} (hm : Mem.Wf f m)
    (h : a + bs.length ≤ Config.memSize) : Mem.Wf f (Mem.writeMany f m a bs) := by
  induction bs generalizing m a with
  | nil => exact hm
  | cons b bs ih =>
    simp only [List.length_cons, Config.memSize] at h
    exact ih (Mem.wf_write b hm (by simp; omega)) (by simp; omega)

/-! ### Reading what was written -/

theorem Mem.lookup_consCell_ne {a c : Nat} {b : Byte} {m : List Host.Cell} (h : c ≠ a) :
    Mem.lookup f (Mem.consCell f a b m) c = Mem.lookup f m c := by
  unfold Mem.consCell
  split
  · rfl
  · simp [Mem.lookup, h.symm]

/-- A write leaves every other address alone, in any memory. -/
theorem Mem.lookup_write_ne {m : List Host.Cell} {a c : Nat} {b : Byte} (h : c ≠ a) :
    Mem.lookup f (Mem.write f m a b) c = Mem.lookup f m c := by
  induction m with
  | nil => exact Mem.lookup_consCell_ne h
  | cons d m ih =>
    obtain ⟨k, v⟩ := d
    simp only [Mem.write]
    split
    · exact Mem.lookup_consCell_ne h
    · split
      · next heq => subst heq; rw [Mem.lookup_consCell_ne h]; simp [Mem.lookup, h.symm]
      · simp [Mem.lookup, ih]

theorem Mem.lookup_of_not_mem {m : List Host.Cell} {a : Nat} (h : ∀ d ∈ m, d.1 ≠ a) :
    Mem.lookup f m a = resetByte f a := by
  induction m with
  | nil => rfl
  | cons d m ih =>
    obtain ⟨k, v⟩ := d
    have hk : k ≠ a := h (k, v) (by simp)
    simp only [Mem.lookup, if_neg hk]
    exact ih fun d hd => h d (List.mem_cons_of_mem _ hd)

theorem Mem.lookup_consCell_eq {a : Nat} {b : Byte} {m : List Host.Cell} (h : ∀ d ∈ m, d.1 ≠ a) :
    Mem.lookup f (Mem.consCell f a b m) a = b := by
  unfold Mem.consCell
  split
  · next hb => rw [Mem.lookup_of_not_mem h, hb]
  · simp [Mem.lookup]

/-- A read after a write to the same address gives the byte written. -/
theorem Mem.lookup_write_eq {m : List Host.Cell} {a : Nat} {b : Byte} (hm : Mem.Wf f m) :
    Mem.lookup f (Mem.write f m a b) a = b := by
  induction m with
  | nil => exact Mem.lookup_consCell_eq (by simp)
  | cons d m ih =>
    obtain ⟨k, v⟩ := d
    simp only [Mem.write]
    split
    · next hlt =>
      refine Mem.lookup_consCell_eq fun d hd => ?_
      rcases List.mem_cons.mp hd with rfl | hd
      · exact (ne_of_lt hlt).symm
      · exact (ne_of_lt (lt_trans hlt (Mem.wf_head_lt hm hd))).symm
    · split
      · next heq =>
        exact Mem.lookup_consCell_eq fun d hd => heq ▸ (ne_of_lt (Mem.wf_head_lt hm hd)).symm
      · next hne => simp [Mem.lookup, (Ne.symm hne : k ≠ a), ih (Mem.wf_tail hm)]

/-- Bytes written leave every other address alone. -/
theorem Mem.lookup_writeMany_outside {m : List Host.Cell} {a c : Nat} {bs : List Byte}
    (h : c < a ∨ a + bs.length ≤ c) : Mem.lookup f (Mem.writeMany f m a bs) c = Mem.lookup f m c := by
  induction bs generalizing m a with
  | nil => rfl
  | cons b bs ih =>
    simp only [List.length_cons] at h
    rw [Mem.writeMany, ih (by omega), Mem.lookup_write_ne (by omega)]

/-- The `j`-th byte written reads back at the `j`-th address. -/
theorem Mem.lookup_writeMany_inside {m : List Host.Cell} {a j : Nat} {bs : List Byte} (hm : Mem.Wf f m)
    (h : a + bs.length ≤ Config.memSize) (hj : j < bs.length) :
    Mem.lookup f (Mem.writeMany f m a bs) (a + j) = bs[j] := by
  induction bs generalizing m a j with
  | nil => simp at hj
  | cons b bs ih =>
    simp only [List.length_cons, Config.memSize] at h hj
    have hw := Mem.wf_write b hm (a := a) (by simp; omega)
    rw [Mem.writeMany]
    cases j with
    | zero => rw [Mem.lookup_writeMany_outside (by omega), Nat.add_zero, Mem.lookup_write_eq hm]; rfl
    | succ j =>
      have := ih (a := a + 1) (j := j) hw (by simp; omega) (by omega)
      rw [show a + (j + 1) = a + 1 + j by omega, this]; rfl

@[simp] theorem Mem.length_readMany (m : List Host.Cell) (a count : Nat) :
    (Mem.readMany f m a count).length = count := by
  induction count generalizing a with
  | zero => rfl
  | succ count ih => simp [Mem.readMany, ih]

/-- The `j`-th byte read is the one at the `j`-th address. -/
theorem Mem.getElem_readMany {m : List Host.Cell} {a count j : Nat} (h : j < (Mem.readMany f m a count).length) :
    (Mem.readMany f m a count)[j] = Mem.lookup f m (a + j) := by
  induction count generalizing a j with
  | zero => simp [Mem.readMany] at h
  | succ count ih =>
    cases j with
    | zero => rfl
    | succ j =>
      have h' : j < (Mem.readMany f m (a + 1) count).length := by simpa using h
      rw [show a + (j + 1) = a + 1 + j by omega]
      exact ih h'

/-! ### The state's accesses -/

theorem Mem.inRange_iff {a count : Nat} : Mem.inRange a count = true ↔ count = 0 ∨ a + count ≤ 4096 := by
  simp [Mem.inRange]

/-- Everything a load can do. -/
theorem State.loadBytes_cases (s : State) (a count : Nat) :
    ((count = 0 ∨ a + count ≤ 4096) ∧ s.loadBytes a count = .ok (Mem.readMany s.font s.mem a count)) ∨
      (count ≠ 0 ∧ 4096 < a + count ∧ s.loadBytes a count = .error .addressOutOfRange) := by
  unfold State.loadBytes
  by_cases h : count = 0 ∨ a + count ≤ 4096
  · exact .inl ⟨h, by rw [if_pos (Mem.inRange_iff.mpr h)]⟩
  · exact .inr ⟨by omega, by omega, by rw [if_neg (fun hr => h (Mem.inRange_iff.mp hr))]⟩

/-- Everything a store can do. -/
theorem State.storeBytes_cases (s : State) (a : Nat) (bs : List Byte) :
    ((bs.length = 0 ∨ a + bs.length ≤ 4096) ∧ s.storeBytes a bs = .ok (s.setMem (Mem.writeMany s.font s.mem a bs))) ∨
      (bs.length ≠ 0 ∧ 4096 < a + bs.length ∧ s.storeBytes a bs = .error .addressOutOfRange) := by
  unfold State.storeBytes
  by_cases h : bs.length = 0 ∨ a + bs.length ≤ 4096
  · exact .inl ⟨h, by rw [if_pos (Mem.inRange_iff.mpr h)]⟩
  · exact .inr ⟨by omega, by omega, by rw [if_neg (fun hr => h (Mem.inRange_iff.mp hr))]⟩

/-- A readable byte is one of the 4096, and what memory holds there. -/
theorem State.readByte_eq_some {s : State} {a : Nat} {b : Byte} :
    s.readByte a = some b ↔ a < 4096 ∧ Mem.lookup s.font s.mem a = b := by
  simp [State.readByte]

/-- What a host or a statement reads depends on memory alone. -/
theorem State.readByte_congr {s t : State} (h : t.mem = s.mem) (hf : t.font = s.font) (a : Nat) :
    t.readByte a = s.readByte a := by
  simp [State.readByte, h, hf]

end Sys2Proof.Machine
end

