-- ==== Sys2Proof/Laws/State.lean ====
section
/-! SUPPORT. One lemma per field per update of the state, each true by unfolding. -/

namespace Sys2Proof.Machine

/-! ### setV -/

@[simp] theorem State.setV_v (s : State) (x : Nibble) (b : Byte) :
    (s.setV x b).v = s.v.set x.toNat b x.isLt := rfl
@[simp] theorem State.setV_i (s : State) (x : Nibble) (b : Byte) :
    (s.setV x b).i = s.i := rfl
@[simp] theorem State.setV_pc (s : State) (x : Nibble) (b : Byte) :
    (s.setV x b).pc = s.pc := rfl
@[simp] theorem State.setV_sp (s : State) (x : Nibble) (b : Byte) :
    (s.setV x b).sp = s.sp := rfl
@[simp] theorem State.setV_stack (s : State) (x : Nibble) (b : Byte) :
    (s.setV x b).stack = s.stack := rfl
@[simp] theorem State.setV_dt (s : State) (x : Nibble) (b : Byte) :
    (s.setV x b).dt = s.dt := rfl
@[simp] theorem State.setV_st (s : State) (x : Nibble) (b : Byte) :
    (s.setV x b).st = s.st := rfl
@[simp] theorem State.setV_fb (s : State) (x : Nibble) (b : Byte) :
    (s.setV x b).fb = s.fb := rfl
@[simp] theorem State.setV_waitValid (s : State) (x : Nibble) (b : Byte) :
    (s.setV x b).waitValid = s.waitValid := rfl
@[simp] theorem State.setV_waitReg (s : State) (x : Nibble) (b : Byte) :
    (s.setV x b).waitReg = s.waitReg := rfl
@[simp] theorem State.setV_instAcc (s : State) (x : Nibble) (b : Byte) :
    (s.setV x b).instAcc = s.instAcc := rfl
@[simp] theorem State.setV_decayAcc (s : State) (x : Nibble) (b : Byte) :
    (s.setV x b).decayAcc = s.decayAcc := rfl
@[simp] theorem State.setV_fault (s : State) (x : Nibble) (b : Byte) :
    (s.setV x b).fault = s.fault := rfl
@[simp] theorem State.setV_mem (s : State) (x : Nibble) (b : Byte) :
    (s.setV x b).mem = s.mem := rfl
@[simp] theorem State.setV_font (s : State) (x : Nibble) (b : Byte) :
    (s.setV x b).font = s.font := rfl
@[simp] theorem State.setV_input (s : State) (x : Nibble) (b : Byte) :
    (s.setV x b).input = s.input := rfl
@[simp] theorem State.setV_calls (s : State) (x : Nibble) (b : Byte) :
    (s.setV x b).calls = s.calls := rfl
@[simp] theorem State.setV_draws (s : State) (x : Nibble) (b : Byte) :
    (s.setV x b).draws = s.draws := rfl
@[simp] theorem State.setV_drawCount (s : State) (x : Nibble) (b : Byte) :
    (s.setV x b).drawCount = s.drawCount := rfl
@[simp] theorem State.setV_started (s : State) (x : Nibble) (b : Byte) :
    (s.setV x b).started = s.started := rfl
@[simp] theorem State.setV_audio (s : State) (x : Nibble) (b : Byte) :
    (s.setV x b).audio = s.audio := rfl

/-! ### setI -/

@[simp] theorem State.setI_v (s : State) (w : Word) :
    (s.setI w).v = s.v := rfl
@[simp] theorem State.setI_i (s : State) (w : Word) :
    (s.setI w).i = w := rfl
@[simp] theorem State.setI_pc (s : State) (w : Word) :
    (s.setI w).pc = s.pc := rfl
@[simp] theorem State.setI_sp (s : State) (w : Word) :
    (s.setI w).sp = s.sp := rfl
@[simp] theorem State.setI_stack (s : State) (w : Word) :
    (s.setI w).stack = s.stack := rfl
@[simp] theorem State.setI_dt (s : State) (w : Word) :
    (s.setI w).dt = s.dt := rfl
@[simp] theorem State.setI_st (s : State) (w : Word) :
    (s.setI w).st = s.st := rfl
@[simp] theorem State.setI_fb (s : State) (w : Word) :
    (s.setI w).fb = s.fb := rfl
@[simp] theorem State.setI_waitValid (s : State) (w : Word) :
    (s.setI w).waitValid = s.waitValid := rfl
@[simp] theorem State.setI_waitReg (s : State) (w : Word) :
    (s.setI w).waitReg = s.waitReg := rfl
@[simp] theorem State.setI_instAcc (s : State) (w : Word) :
    (s.setI w).instAcc = s.instAcc := rfl
@[simp] theorem State.setI_decayAcc (s : State) (w : Word) :
    (s.setI w).decayAcc = s.decayAcc := rfl
@[simp] theorem State.setI_fault (s : State) (w : Word) :
    (s.setI w).fault = s.fault := rfl
@[simp] theorem State.setI_mem (s : State) (w : Word) :
    (s.setI w).mem = s.mem := rfl
@[simp] theorem State.setI_font (s : State) (w : Word) :
    (s.setI w).font = s.font := rfl
@[simp] theorem State.setI_input (s : State) (w : Word) :
    (s.setI w).input = s.input := rfl
@[simp] theorem State.setI_calls (s : State) (w : Word) :
    (s.setI w).calls = s.calls := rfl
@[simp] theorem State.setI_draws (s : State) (w : Word) :
    (s.setI w).draws = s.draws := rfl
@[simp] theorem State.setI_drawCount (s : State) (w : Word) :
    (s.setI w).drawCount = s.drawCount := rfl
@[simp] theorem State.setI_started (s : State) (w : Word) :
    (s.setI w).started = s.started := rfl
@[simp] theorem State.setI_audio (s : State) (w : Word) :
    (s.setI w).audio = s.audio := rfl

/-! ### setPC -/

@[simp] theorem State.setPC_v (s : State) (w : Word) :
    (s.setPC w).v = s.v := rfl
@[simp] theorem State.setPC_i (s : State) (w : Word) :
    (s.setPC w).i = s.i := rfl
@[simp] theorem State.setPC_pc (s : State) (w : Word) :
    (s.setPC w).pc = w := rfl
@[simp] theorem State.setPC_sp (s : State) (w : Word) :
    (s.setPC w).sp = s.sp := rfl
@[simp] theorem State.setPC_stack (s : State) (w : Word) :
    (s.setPC w).stack = s.stack := rfl
@[simp] theorem State.setPC_dt (s : State) (w : Word) :
    (s.setPC w).dt = s.dt := rfl
@[simp] theorem State.setPC_st (s : State) (w : Word) :
    (s.setPC w).st = s.st := rfl
@[simp] theorem State.setPC_fb (s : State) (w : Word) :
    (s.setPC w).fb = s.fb := rfl
@[simp] theorem State.setPC_waitValid (s : State) (w : Word) :
    (s.setPC w).waitValid = s.waitValid := rfl
@[simp] theorem State.setPC_waitReg (s : State) (w : Word) :
    (s.setPC w).waitReg = s.waitReg := rfl
@[simp] theorem State.setPC_instAcc (s : State) (w : Word) :
    (s.setPC w).instAcc = s.instAcc := rfl
@[simp] theorem State.setPC_decayAcc (s : State) (w : Word) :
    (s.setPC w).decayAcc = s.decayAcc := rfl
@[simp] theorem State.setPC_fault (s : State) (w : Word) :
    (s.setPC w).fault = s.fault := rfl
@[simp] theorem State.setPC_mem (s : State) (w : Word) :
    (s.setPC w).mem = s.mem := rfl
@[simp] theorem State.setPC_font (s : State) (w : Word) :
    (s.setPC w).font = s.font := rfl
@[simp] theorem State.setPC_input (s : State) (w : Word) :
    (s.setPC w).input = s.input := rfl
@[simp] theorem State.setPC_calls (s : State) (w : Word) :
    (s.setPC w).calls = s.calls := rfl
@[simp] theorem State.setPC_draws (s : State) (w : Word) :
    (s.setPC w).draws = s.draws := rfl
@[simp] theorem State.setPC_drawCount (s : State) (w : Word) :
    (s.setPC w).drawCount = s.drawCount := rfl
@[simp] theorem State.setPC_started (s : State) (w : Word) :
    (s.setPC w).started = s.started := rfl
@[simp] theorem State.setPC_audio (s : State) (w : Word) :
    (s.setPC w).audio = s.audio := rfl

/-! ### advance -/

@[simp] theorem State.advance_v (s : State) :
    (s.advance).v = s.v := rfl
@[simp] theorem State.advance_i (s : State) :
    (s.advance).i = s.i := rfl
@[simp] theorem State.advance_pc (s : State) :
    (s.advance).pc = s.pc + 2 := rfl
@[simp] theorem State.advance_sp (s : State) :
    (s.advance).sp = s.sp := rfl
@[simp] theorem State.advance_stack (s : State) :
    (s.advance).stack = s.stack := rfl
@[simp] theorem State.advance_dt (s : State) :
    (s.advance).dt = s.dt := rfl
@[simp] theorem State.advance_st (s : State) :
    (s.advance).st = s.st := rfl
@[simp] theorem State.advance_fb (s : State) :
    (s.advance).fb = s.fb := rfl
@[simp] theorem State.advance_waitValid (s : State) :
    (s.advance).waitValid = s.waitValid := rfl
@[simp] theorem State.advance_waitReg (s : State) :
    (s.advance).waitReg = s.waitReg := rfl
@[simp] theorem State.advance_instAcc (s : State) :
    (s.advance).instAcc = s.instAcc := rfl
@[simp] theorem State.advance_decayAcc (s : State) :
    (s.advance).decayAcc = s.decayAcc := rfl
@[simp] theorem State.advance_fault (s : State) :
    (s.advance).fault = s.fault := rfl
@[simp] theorem State.advance_mem (s : State) :
    (s.advance).mem = s.mem := rfl
@[simp] theorem State.advance_font (s : State) :
    (s.advance).font = s.font := rfl
@[simp] theorem State.advance_input (s : State) :
    (s.advance).input = s.input := rfl
@[simp] theorem State.advance_calls (s : State) :
    (s.advance).calls = s.calls := rfl
@[simp] theorem State.advance_draws (s : State) :
    (s.advance).draws = s.draws := rfl
@[simp] theorem State.advance_drawCount (s : State) :
    (s.advance).drawCount = s.drawCount := rfl
@[simp] theorem State.advance_started (s : State) :
    (s.advance).started = s.started := rfl
@[simp] theorem State.advance_audio (s : State) :
    (s.advance).audio = s.audio := rfl

/-! ### setMem -/

@[simp] theorem State.setMem_v (s : State) (m : List Host.Cell) :
    (s.setMem m).v = s.v := rfl
@[simp] theorem State.setMem_i (s : State) (m : List Host.Cell) :
    (s.setMem m).i = s.i := rfl
@[simp] theorem State.setMem_pc (s : State) (m : List Host.Cell) :
    (s.setMem m).pc = s.pc := rfl
@[simp] theorem State.setMem_sp (s : State) (m : List Host.Cell) :
    (s.setMem m).sp = s.sp := rfl
@[simp] theorem State.setMem_stack (s : State) (m : List Host.Cell) :
    (s.setMem m).stack = s.stack := rfl
@[simp] theorem State.setMem_dt (s : State) (m : List Host.Cell) :
    (s.setMem m).dt = s.dt := rfl
@[simp] theorem State.setMem_st (s : State) (m : List Host.Cell) :
    (s.setMem m).st = s.st := rfl
@[simp] theorem State.setMem_fb (s : State) (m : List Host.Cell) :
    (s.setMem m).fb = s.fb := rfl
@[simp] theorem State.setMem_waitValid (s : State) (m : List Host.Cell) :
    (s.setMem m).waitValid = s.waitValid := rfl
@[simp] theorem State.setMem_waitReg (s : State) (m : List Host.Cell) :
    (s.setMem m).waitReg = s.waitReg := rfl
@[simp] theorem State.setMem_instAcc (s : State) (m : List Host.Cell) :
    (s.setMem m).instAcc = s.instAcc := rfl
@[simp] theorem State.setMem_decayAcc (s : State) (m : List Host.Cell) :
    (s.setMem m).decayAcc = s.decayAcc := rfl
@[simp] theorem State.setMem_fault (s : State) (m : List Host.Cell) :
    (s.setMem m).fault = s.fault := rfl
@[simp] theorem State.setMem_mem (s : State) (m : List Host.Cell) :
    (s.setMem m).mem = m := rfl
@[simp] theorem State.setMem_font (s : State) (m : List Host.Cell) :
    (s.setMem m).font = s.font := rfl
@[simp] theorem State.setMem_input (s : State) (m : List Host.Cell) :
    (s.setMem m).input = s.input := rfl
@[simp] theorem State.setMem_calls (s : State) (m : List Host.Cell) :
    (s.setMem m).calls = s.calls := rfl
@[simp] theorem State.setMem_draws (s : State) (m : List Host.Cell) :
    (s.setMem m).draws = s.draws := rfl
@[simp] theorem State.setMem_drawCount (s : State) (m : List Host.Cell) :
    (s.setMem m).drawCount = s.drawCount := rfl
@[simp] theorem State.setMem_started (s : State) (m : List Host.Cell) :
    (s.setMem m).started = s.started := rfl
@[simp] theorem State.setMem_audio (s : State) (m : List Host.Cell) :
    (s.setMem m).audio = s.audio := rfl

/-! ### setFb -/

@[simp] theorem State.setFb_v (s : State) (f : Vector (Vector Bool 32) 64) :
    (s.setFb f).v = s.v := rfl
@[simp] theorem State.setFb_i (s : State) (f : Vector (Vector Bool 32) 64) :
    (s.setFb f).i = s.i := rfl
@[simp] theorem State.setFb_pc (s : State) (f : Vector (Vector Bool 32) 64) :
    (s.setFb f).pc = s.pc := rfl
@[simp] theorem State.setFb_sp (s : State) (f : Vector (Vector Bool 32) 64) :
    (s.setFb f).sp = s.sp := rfl
@[simp] theorem State.setFb_stack (s : State) (f : Vector (Vector Bool 32) 64) :
    (s.setFb f).stack = s.stack := rfl
@[simp] theorem State.setFb_dt (s : State) (f : Vector (Vector Bool 32) 64) :
    (s.setFb f).dt = s.dt := rfl
@[simp] theorem State.setFb_st (s : State) (f : Vector (Vector Bool 32) 64) :
    (s.setFb f).st = s.st := rfl
@[simp] theorem State.setFb_fb (s : State) (f : Vector (Vector Bool 32) 64) :
    (s.setFb f).fb = f := rfl
@[simp] theorem State.setFb_waitValid (s : State) (f : Vector (Vector Bool 32) 64) :
    (s.setFb f).waitValid = s.waitValid := rfl
@[simp] theorem State.setFb_waitReg (s : State) (f : Vector (Vector Bool 32) 64) :
    (s.setFb f).waitReg = s.waitReg := rfl
@[simp] theorem State.setFb_instAcc (s : State) (f : Vector (Vector Bool 32) 64) :
    (s.setFb f).instAcc = s.instAcc := rfl
@[simp] theorem State.setFb_decayAcc (s : State) (f : Vector (Vector Bool 32) 64) :
    (s.setFb f).decayAcc = s.decayAcc := rfl
@[simp] theorem State.setFb_fault (s : State) (f : Vector (Vector Bool 32) 64) :
    (s.setFb f).fault = s.fault := rfl
@[simp] theorem State.setFb_mem (s : State) (f : Vector (Vector Bool 32) 64) :
    (s.setFb f).mem = s.mem := rfl
@[simp] theorem State.setFb_font (s : State) (f : Vector (Vector Bool 32) 64) :
    (s.setFb f).font = s.font := rfl
@[simp] theorem State.setFb_input (s : State) (f : Vector (Vector Bool 32) 64) :
    (s.setFb f).input = s.input := rfl
@[simp] theorem State.setFb_calls (s : State) (f : Vector (Vector Bool 32) 64) :
    (s.setFb f).calls = s.calls := rfl
@[simp] theorem State.setFb_draws (s : State) (f : Vector (Vector Bool 32) 64) :
    (s.setFb f).draws = s.draws := rfl
@[simp] theorem State.setFb_drawCount (s : State) (f : Vector (Vector Bool 32) 64) :
    (s.setFb f).drawCount = s.drawCount := rfl
@[simp] theorem State.setFb_started (s : State) (f : Vector (Vector Bool 32) 64) :
    (s.setFb f).started = s.started := rfl
@[simp] theorem State.setFb_audio (s : State) (f : Vector (Vector Bool 32) 64) :
    (s.setFb f).audio = s.audio := rfl

/-! ### setDT -/

@[simp] theorem State.setDT_v (s : State) (b : Byte) :
    (s.setDT b).v = s.v := rfl
@[simp] theorem State.setDT_i (s : State) (b : Byte) :
    (s.setDT b).i = s.i := rfl
@[simp] theorem State.setDT_pc (s : State) (b : Byte) :
    (s.setDT b).pc = s.pc := rfl
@[simp] theorem State.setDT_sp (s : State) (b : Byte) :
    (s.setDT b).sp = s.sp := rfl
@[simp] theorem State.setDT_stack (s : State) (b : Byte) :
    (s.setDT b).stack = s.stack := rfl
@[simp] theorem State.setDT_dt (s : State) (b : Byte) :
    (s.setDT b).dt = b := rfl
@[simp] theorem State.setDT_st (s : State) (b : Byte) :
    (s.setDT b).st = s.st := rfl
@[simp] theorem State.setDT_fb (s : State) (b : Byte) :
    (s.setDT b).fb = s.fb := rfl
@[simp] theorem State.setDT_waitValid (s : State) (b : Byte) :
    (s.setDT b).waitValid = s.waitValid := rfl
@[simp] theorem State.setDT_waitReg (s : State) (b : Byte) :
    (s.setDT b).waitReg = s.waitReg := rfl
@[simp] theorem State.setDT_instAcc (s : State) (b : Byte) :
    (s.setDT b).instAcc = s.instAcc := rfl
@[simp] theorem State.setDT_decayAcc (s : State) (b : Byte) :
    (s.setDT b).decayAcc = s.decayAcc := rfl
@[simp] theorem State.setDT_fault (s : State) (b : Byte) :
    (s.setDT b).fault = s.fault := rfl
@[simp] theorem State.setDT_mem (s : State) (b : Byte) :
    (s.setDT b).mem = s.mem := rfl
@[simp] theorem State.setDT_font (s : State) (b : Byte) :
    (s.setDT b).font = s.font := rfl
@[simp] theorem State.setDT_input (s : State) (b : Byte) :
    (s.setDT b).input = s.input := rfl
@[simp] theorem State.setDT_calls (s : State) (b : Byte) :
    (s.setDT b).calls = s.calls := rfl
@[simp] theorem State.setDT_draws (s : State) (b : Byte) :
    (s.setDT b).draws = s.draws := rfl
@[simp] theorem State.setDT_drawCount (s : State) (b : Byte) :
    (s.setDT b).drawCount = s.drawCount := rfl
@[simp] theorem State.setDT_started (s : State) (b : Byte) :
    (s.setDT b).started = s.started := rfl
@[simp] theorem State.setDT_audio (s : State) (b : Byte) :
    (s.setDT b).audio = s.audio := rfl

/-! ### setST -/

@[simp] theorem State.setST_v (s : State) (b : Byte) :
    (s.setST b).v = s.v := rfl
@[simp] theorem State.setST_i (s : State) (b : Byte) :
    (s.setST b).i = s.i := rfl
@[simp] theorem State.setST_pc (s : State) (b : Byte) :
    (s.setST b).pc = s.pc := rfl
@[simp] theorem State.setST_sp (s : State) (b : Byte) :
    (s.setST b).sp = s.sp := rfl
@[simp] theorem State.setST_stack (s : State) (b : Byte) :
    (s.setST b).stack = s.stack := rfl
@[simp] theorem State.setST_dt (s : State) (b : Byte) :
    (s.setST b).dt = s.dt := rfl
@[simp] theorem State.setST_st (s : State) (b : Byte) :
    (s.setST b).st = b := rfl
@[simp] theorem State.setST_fb (s : State) (b : Byte) :
    (s.setST b).fb = s.fb := rfl
@[simp] theorem State.setST_waitValid (s : State) (b : Byte) :
    (s.setST b).waitValid = s.waitValid := rfl
@[simp] theorem State.setST_waitReg (s : State) (b : Byte) :
    (s.setST b).waitReg = s.waitReg := rfl
@[simp] theorem State.setST_instAcc (s : State) (b : Byte) :
    (s.setST b).instAcc = s.instAcc := rfl
@[simp] theorem State.setST_decayAcc (s : State) (b : Byte) :
    (s.setST b).decayAcc = s.decayAcc := rfl
@[simp] theorem State.setST_fault (s : State) (b : Byte) :
    (s.setST b).fault = s.fault := rfl
@[simp] theorem State.setST_mem (s : State) (b : Byte) :
    (s.setST b).mem = s.mem := rfl
@[simp] theorem State.setST_font (s : State) (b : Byte) :
    (s.setST b).font = s.font := rfl
@[simp] theorem State.setST_input (s : State) (b : Byte) :
    (s.setST b).input = s.input := rfl
@[simp] theorem State.setST_calls (s : State) (b : Byte) :
    (s.setST b).calls = s.calls := rfl
@[simp] theorem State.setST_draws (s : State) (b : Byte) :
    (s.setST b).draws = s.draws := rfl
@[simp] theorem State.setST_drawCount (s : State) (b : Byte) :
    (s.setST b).drawCount = s.drawCount := rfl
@[simp] theorem State.setST_started (s : State) (b : Byte) :
    (s.setST b).started = s.started := rfl

/-! ### enterWait -/

@[simp] theorem State.enterWait_v (s : State) (x : Nibble) :
    (s.enterWait x).v = s.v := rfl
@[simp] theorem State.enterWait_i (s : State) (x : Nibble) :
    (s.enterWait x).i = s.i := rfl
@[simp] theorem State.enterWait_pc (s : State) (x : Nibble) :
    (s.enterWait x).pc = s.pc := rfl
@[simp] theorem State.enterWait_sp (s : State) (x : Nibble) :
    (s.enterWait x).sp = s.sp := rfl
@[simp] theorem State.enterWait_stack (s : State) (x : Nibble) :
    (s.enterWait x).stack = s.stack := rfl
@[simp] theorem State.enterWait_dt (s : State) (x : Nibble) :
    (s.enterWait x).dt = s.dt := rfl
@[simp] theorem State.enterWait_st (s : State) (x : Nibble) :
    (s.enterWait x).st = s.st := rfl
@[simp] theorem State.enterWait_fb (s : State) (x : Nibble) :
    (s.enterWait x).fb = s.fb := rfl
@[simp] theorem State.enterWait_waitValid (s : State) (x : Nibble) :
    (s.enterWait x).waitValid = true := rfl
@[simp] theorem State.enterWait_waitReg (s : State) (x : Nibble) :
    (s.enterWait x).waitReg = x := rfl
@[simp] theorem State.enterWait_instAcc (s : State) (x : Nibble) :
    (s.enterWait x).instAcc = s.instAcc := rfl
@[simp] theorem State.enterWait_decayAcc (s : State) (x : Nibble) :
    (s.enterWait x).decayAcc = s.decayAcc := rfl
@[simp] theorem State.enterWait_fault (s : State) (x : Nibble) :
    (s.enterWait x).fault = s.fault := rfl
@[simp] theorem State.enterWait_mem (s : State) (x : Nibble) :
    (s.enterWait x).mem = s.mem := rfl
@[simp] theorem State.enterWait_font (s : State) (x : Nibble) :
    (s.enterWait x).font = s.font := rfl
@[simp] theorem State.enterWait_input (s : State) (x : Nibble) :
    (s.enterWait x).input = s.input := rfl
@[simp] theorem State.enterWait_calls (s : State) (x : Nibble) :
    (s.enterWait x).calls = s.calls := rfl
@[simp] theorem State.enterWait_draws (s : State) (x : Nibble) :
    (s.enterWait x).draws = s.draws := rfl
@[simp] theorem State.enterWait_drawCount (s : State) (x : Nibble) :
    (s.enterWait x).drawCount = s.drawCount := rfl
@[simp] theorem State.enterWait_started (s : State) (x : Nibble) :
    (s.enterWait x).started = s.started := rfl
@[simp] theorem State.enterWait_audio (s : State) (x : Nibble) :
    (s.enterWait x).audio = s.audio := rfl

/-! ### endWait -/

@[simp] theorem State.endWait_v (s : State) :
    (s.endWait).v = s.v := rfl
@[simp] theorem State.endWait_i (s : State) :
    (s.endWait).i = s.i := rfl
@[simp] theorem State.endWait_pc (s : State) :
    (s.endWait).pc = s.pc := rfl
@[simp] theorem State.endWait_sp (s : State) :
    (s.endWait).sp = s.sp := rfl
@[simp] theorem State.endWait_stack (s : State) :
    (s.endWait).stack = s.stack := rfl
@[simp] theorem State.endWait_dt (s : State) :
    (s.endWait).dt = s.dt := rfl
@[simp] theorem State.endWait_st (s : State) :
    (s.endWait).st = s.st := rfl
@[simp] theorem State.endWait_fb (s : State) :
    (s.endWait).fb = s.fb := rfl
@[simp] theorem State.endWait_waitValid (s : State) :
    (s.endWait).waitValid = false := rfl
@[simp] theorem State.endWait_waitReg (s : State) :
    (s.endWait).waitReg = s.waitReg := rfl
@[simp] theorem State.endWait_instAcc (s : State) :
    (s.endWait).instAcc = s.instAcc := rfl
@[simp] theorem State.endWait_decayAcc (s : State) :
    (s.endWait).decayAcc = s.decayAcc := rfl
@[simp] theorem State.endWait_fault (s : State) :
    (s.endWait).fault = s.fault := rfl
@[simp] theorem State.endWait_mem (s : State) :
    (s.endWait).mem = s.mem := rfl
@[simp] theorem State.endWait_font (s : State) :
    (s.endWait).font = s.font := rfl
@[simp] theorem State.endWait_input (s : State) :
    (s.endWait).input = s.input := rfl
@[simp] theorem State.endWait_calls (s : State) :
    (s.endWait).calls = s.calls := rfl
@[simp] theorem State.endWait_draws (s : State) :
    (s.endWait).draws = s.draws := rfl
@[simp] theorem State.endWait_drawCount (s : State) :
    (s.endWait).drawCount = s.drawCount := rfl
@[simp] theorem State.endWait_started (s : State) :
    (s.endWait).started = s.started := rfl
@[simp] theorem State.endWait_audio (s : State) :
    (s.endWait).audio = s.audio := rfl

/-! ### raiseFault -/

@[simp] theorem State.raiseFault_v (s : State) (c : Cause) (op : Option Word) :
    (s.raiseFault c op).v = s.v := rfl
@[simp] theorem State.raiseFault_i (s : State) (c : Cause) (op : Option Word) :
    (s.raiseFault c op).i = s.i := rfl
@[simp] theorem State.raiseFault_pc (s : State) (c : Cause) (op : Option Word) :
    (s.raiseFault c op).pc = s.pc := rfl
@[simp] theorem State.raiseFault_sp (s : State) (c : Cause) (op : Option Word) :
    (s.raiseFault c op).sp = s.sp := rfl
@[simp] theorem State.raiseFault_stack (s : State) (c : Cause) (op : Option Word) :
    (s.raiseFault c op).stack = s.stack := rfl
@[simp] theorem State.raiseFault_dt (s : State) (c : Cause) (op : Option Word) :
    (s.raiseFault c op).dt = s.dt := rfl
@[simp] theorem State.raiseFault_st (s : State) (c : Cause) (op : Option Word) :
    (s.raiseFault c op).st = s.st := rfl
@[simp] theorem State.raiseFault_fb (s : State) (c : Cause) (op : Option Word) :
    (s.raiseFault c op).fb = s.fb := rfl
@[simp] theorem State.raiseFault_waitValid (s : State) (c : Cause) (op : Option Word) :
    (s.raiseFault c op).waitValid = s.waitValid := rfl
@[simp] theorem State.raiseFault_waitReg (s : State) (c : Cause) (op : Option Word) :
    (s.raiseFault c op).waitReg = s.waitReg := rfl
@[simp] theorem State.raiseFault_instAcc (s : State) (c : Cause) (op : Option Word) :
    (s.raiseFault c op).instAcc = s.instAcc := rfl
@[simp] theorem State.raiseFault_decayAcc (s : State) (c : Cause) (op : Option Word) :
    (s.raiseFault c op).decayAcc = s.decayAcc := rfl
@[simp] theorem State.raiseFault_fault (s : State) (c : Cause) (op : Option Word) :
    (s.raiseFault c op).fault = { halted := true, cause := c, faultPC := s.pc, faultSP := s.sp, faultOp := op.getD 0, faultOpValid := op.isSome } := rfl
@[simp] theorem State.raiseFault_mem (s : State) (c : Cause) (op : Option Word) :
    (s.raiseFault c op).mem = s.mem := rfl
@[simp] theorem State.raiseFault_font (s : State) (c : Cause) (op : Option Word) :
    (s.raiseFault c op).font = s.font := rfl
@[simp] theorem State.raiseFault_input (s : State) (c : Cause) (op : Option Word) :
    (s.raiseFault c op).input = s.input := rfl
@[simp] theorem State.raiseFault_calls (s : State) (c : Cause) (op : Option Word) :
    (s.raiseFault c op).calls = s.calls := rfl
@[simp] theorem State.raiseFault_draws (s : State) (c : Cause) (op : Option Word) :
    (s.raiseFault c op).draws = s.draws := rfl
@[simp] theorem State.raiseFault_drawCount (s : State) (c : Cause) (op : Option Word) :
    (s.raiseFault c op).drawCount = s.drawCount := rfl
@[simp] theorem State.raiseFault_started (s : State) (c : Cause) (op : Option Word) :
    (s.raiseFault c op).started = s.started := rfl

/-! ### popInto -/

@[simp] theorem State.popInto_v (s : State) (w : Word) :
    (s.popInto w).v = s.v := rfl
@[simp] theorem State.popInto_i (s : State) (w : Word) :
    (s.popInto w).i = s.i := rfl
@[simp] theorem State.popInto_pc (s : State) (w : Word) :
    (s.popInto w).pc = w := rfl
@[simp] theorem State.popInto_sp (s : State) (w : Word) :
    (s.popInto w).sp = s.sp - 1 := rfl
@[simp] theorem State.popInto_stack (s : State) (w : Word) :
    (s.popInto w).stack = s.stack := rfl
@[simp] theorem State.popInto_dt (s : State) (w : Word) :
    (s.popInto w).dt = s.dt := rfl
@[simp] theorem State.popInto_st (s : State) (w : Word) :
    (s.popInto w).st = s.st := rfl
@[simp] theorem State.popInto_fb (s : State) (w : Word) :
    (s.popInto w).fb = s.fb := rfl
@[simp] theorem State.popInto_waitValid (s : State) (w : Word) :
    (s.popInto w).waitValid = s.waitValid := rfl
@[simp] theorem State.popInto_waitReg (s : State) (w : Word) :
    (s.popInto w).waitReg = s.waitReg := rfl
@[simp] theorem State.popInto_instAcc (s : State) (w : Word) :
    (s.popInto w).instAcc = s.instAcc := rfl
@[simp] theorem State.popInto_decayAcc (s : State) (w : Word) :
    (s.popInto w).decayAcc = s.decayAcc := rfl
@[simp] theorem State.popInto_fault (s : State) (w : Word) :
    (s.popInto w).fault = s.fault := rfl
@[simp] theorem State.popInto_mem (s : State) (w : Word) :
    (s.popInto w).mem = s.mem := rfl
@[simp] theorem State.popInto_font (s : State) (w : Word) :
    (s.popInto w).font = s.font := rfl
@[simp] theorem State.popInto_input (s : State) (w : Word) :
    (s.popInto w).input = s.input := rfl
@[simp] theorem State.popInto_calls (s : State) (w : Word) :
    (s.popInto w).calls = s.calls := rfl
@[simp] theorem State.popInto_draws (s : State) (w : Word) :
    (s.popInto w).draws = s.draws := rfl
@[simp] theorem State.popInto_drawCount (s : State) (w : Word) :
    (s.popInto w).drawCount = s.drawCount := rfl
@[simp] theorem State.popInto_started (s : State) (w : Word) :
    (s.popInto w).started = s.started := rfl
@[simp] theorem State.popInto_audio (s : State) (w : Word) :
    (s.popInto w).audio = s.audio := rfl

/-! ### push -/

@[simp] theorem State.push_v (s : State) (h : s.sp.toNat < 16) :
    (s.push h).v = s.v := rfl
@[simp] theorem State.push_i (s : State) (h : s.sp.toNat < 16) :
    (s.push h).i = s.i := rfl
@[simp] theorem State.push_pc (s : State) (h : s.sp.toNat < 16) :
    (s.push h).pc = s.pc := rfl
@[simp] theorem State.push_sp (s : State) (h : s.sp.toNat < 16) :
    (s.push h).sp = s.sp + 1 := rfl
@[simp] theorem State.push_stack (s : State) (h : s.sp.toNat < 16) :
    (s.push h).stack = s.stack.set s.sp.toNat s.pc h := rfl
@[simp] theorem State.push_dt (s : State) (h : s.sp.toNat < 16) :
    (s.push h).dt = s.dt := rfl
@[simp] theorem State.push_st (s : State) (h : s.sp.toNat < 16) :
    (s.push h).st = s.st := rfl
@[simp] theorem State.push_fb (s : State) (h : s.sp.toNat < 16) :
    (s.push h).fb = s.fb := rfl
@[simp] theorem State.push_waitValid (s : State) (h : s.sp.toNat < 16) :
    (s.push h).waitValid = s.waitValid := rfl
@[simp] theorem State.push_waitReg (s : State) (h : s.sp.toNat < 16) :
    (s.push h).waitReg = s.waitReg := rfl
@[simp] theorem State.push_instAcc (s : State) (h : s.sp.toNat < 16) :
    (s.push h).instAcc = s.instAcc := rfl
@[simp] theorem State.push_decayAcc (s : State) (h : s.sp.toNat < 16) :
    (s.push h).decayAcc = s.decayAcc := rfl
@[simp] theorem State.push_fault (s : State) (h : s.sp.toNat < 16) :
    (s.push h).fault = s.fault := rfl
@[simp] theorem State.push_mem (s : State) (h : s.sp.toNat < 16) :
    (s.push h).mem = s.mem := rfl
@[simp] theorem State.push_font (s : State) (h : s.sp.toNat < 16) :
    (s.push h).font = s.font := rfl
@[simp] theorem State.push_input (s : State) (h : s.sp.toNat < 16) :
    (s.push h).input = s.input := rfl
@[simp] theorem State.push_calls (s : State) (h : s.sp.toNat < 16) :
    (s.push h).calls = s.calls := rfl
@[simp] theorem State.push_draws (s : State) (h : s.sp.toNat < 16) :
    (s.push h).draws = s.draws := rfl
@[simp] theorem State.push_drawCount (s : State) (h : s.sp.toNat < 16) :
    (s.push h).drawCount = s.drawCount := rfl
@[simp] theorem State.push_started (s : State) (h : s.sp.toNat < 16) :
    (s.push h).started = s.started := rfl
@[simp] theorem State.push_audio (s : State) (h : s.sp.toNat < 16) :
    (s.push h).audio = s.audio := rfl

/-! ### bumpI -/

@[simp] theorem State.bumpI_v (s : State) (x : Nibble) :
    (s.bumpI x).v = s.v := rfl
@[simp] theorem State.bumpI_i (s : State) (x : Nibble) :
    (s.bumpI x).i = s.i + BitVec.ofNat 16 (prefixLength x) := rfl
@[simp] theorem State.bumpI_pc (s : State) (x : Nibble) :
    (s.bumpI x).pc = s.pc := rfl
@[simp] theorem State.bumpI_sp (s : State) (x : Nibble) :
    (s.bumpI x).sp = s.sp := rfl
@[simp] theorem State.bumpI_stack (s : State) (x : Nibble) :
    (s.bumpI x).stack = s.stack := rfl
@[simp] theorem State.bumpI_dt (s : State) (x : Nibble) :
    (s.bumpI x).dt = s.dt := rfl
@[simp] theorem State.bumpI_st (s : State) (x : Nibble) :
    (s.bumpI x).st = s.st := rfl
@[simp] theorem State.bumpI_fb (s : State) (x : Nibble) :
    (s.bumpI x).fb = s.fb := rfl
@[simp] theorem State.bumpI_waitValid (s : State) (x : Nibble) :
    (s.bumpI x).waitValid = s.waitValid := rfl
@[simp] theorem State.bumpI_waitReg (s : State) (x : Nibble) :
    (s.bumpI x).waitReg = s.waitReg := rfl
@[simp] theorem State.bumpI_instAcc (s : State) (x : Nibble) :
    (s.bumpI x).instAcc = s.instAcc := rfl
@[simp] theorem State.bumpI_decayAcc (s : State) (x : Nibble) :
    (s.bumpI x).decayAcc = s.decayAcc := rfl
@[simp] theorem State.bumpI_fault (s : State) (x : Nibble) :
    (s.bumpI x).fault = s.fault := rfl
@[simp] theorem State.bumpI_mem (s : State) (x : Nibble) :
    (s.bumpI x).mem = s.mem := rfl
@[simp] theorem State.bumpI_font (s : State) (x : Nibble) :
    (s.bumpI x).font = s.font := rfl
@[simp] theorem State.bumpI_input (s : State) (x : Nibble) :
    (s.bumpI x).input = s.input := rfl
@[simp] theorem State.bumpI_calls (s : State) (x : Nibble) :
    (s.bumpI x).calls = s.calls := rfl
@[simp] theorem State.bumpI_draws (s : State) (x : Nibble) :
    (s.bumpI x).draws = s.draws := rfl
@[simp] theorem State.bumpI_drawCount (s : State) (x : Nibble) :
    (s.bumpI x).drawCount = s.drawCount := rfl
@[simp] theorem State.bumpI_started (s : State) (x : Nibble) :
    (s.bumpI x).started = s.started := rfl
@[simp] theorem State.bumpI_audio (s : State) (x : Nibble) :
    (s.bumpI x).audio = s.audio := rfl

/-! ### beginCall -/

@[simp] theorem State.beginCall_v (s : State) (sample : Input) :
    (s.beginCall sample).v = s.v := rfl
@[simp] theorem State.beginCall_i (s : State) (sample : Input) :
    (s.beginCall sample).i = s.i := rfl
@[simp] theorem State.beginCall_pc (s : State) (sample : Input) :
    (s.beginCall sample).pc = s.pc := rfl
@[simp] theorem State.beginCall_sp (s : State) (sample : Input) :
    (s.beginCall sample).sp = s.sp := rfl
@[simp] theorem State.beginCall_stack (s : State) (sample : Input) :
    (s.beginCall sample).stack = s.stack := rfl
@[simp] theorem State.beginCall_dt (s : State) (sample : Input) :
    (s.beginCall sample).dt = s.dt := rfl
@[simp] theorem State.beginCall_st (s : State) (sample : Input) :
    (s.beginCall sample).st = s.st := rfl
@[simp] theorem State.beginCall_fb (s : State) (sample : Input) :
    (s.beginCall sample).fb = s.fb := rfl
@[simp] theorem State.beginCall_waitValid (s : State) (sample : Input) :
    (s.beginCall sample).waitValid = s.waitValid := rfl
@[simp] theorem State.beginCall_waitReg (s : State) (sample : Input) :
    (s.beginCall sample).waitReg = s.waitReg := rfl
@[simp] theorem State.beginCall_instAcc (s : State) (sample : Input) :
    (s.beginCall sample).instAcc = s.instAcc := rfl
@[simp] theorem State.beginCall_decayAcc (s : State) (sample : Input) :
    (s.beginCall sample).decayAcc = s.decayAcc := rfl
@[simp] theorem State.beginCall_fault (s : State) (sample : Input) :
    (s.beginCall sample).fault = s.fault := rfl
@[simp] theorem State.beginCall_mem (s : State) (sample : Input) :
    (s.beginCall sample).mem = s.mem := rfl
@[simp] theorem State.beginCall_font (s : State) (sample : Input) :
    (s.beginCall sample).font = s.font := rfl
@[simp] theorem State.beginCall_input (s : State) (sample : Input) :
    (s.beginCall sample).input = sample := rfl
@[simp] theorem State.beginCall_calls (s : State) (sample : Input) :
    (s.beginCall sample).calls = s.calls := rfl
@[simp] theorem State.beginCall_draws (s : State) (sample : Input) :
    (s.beginCall sample).draws = s.draws := rfl
@[simp] theorem State.beginCall_drawCount (s : State) (sample : Input) :
    (s.beginCall sample).drawCount = s.drawCount := rfl
@[simp] theorem State.beginCall_started (s : State) (sample : Input) :
    (s.beginCall sample).started = true := rfl
@[simp] theorem State.beginCall_audio (s : State) (sample : Input) :
    (s.beginCall sample).audio = s.audio := rfl

/-! ### takeCall -/

@[simp] theorem State.takeCall_v (s : State) :
    (s.takeCall).v = s.v := rfl
@[simp] theorem State.takeCall_i (s : State) :
    (s.takeCall).i = s.i := rfl
@[simp] theorem State.takeCall_pc (s : State) :
    (s.takeCall).pc = s.pc := rfl
@[simp] theorem State.takeCall_sp (s : State) :
    (s.takeCall).sp = s.sp := rfl
@[simp] theorem State.takeCall_stack (s : State) :
    (s.takeCall).stack = s.stack := rfl
@[simp] theorem State.takeCall_dt (s : State) :
    (s.takeCall).dt = s.dt := rfl
@[simp] theorem State.takeCall_st (s : State) :
    (s.takeCall).st = s.st := rfl
@[simp] theorem State.takeCall_fb (s : State) :
    (s.takeCall).fb = s.fb := rfl
@[simp] theorem State.takeCall_waitValid (s : State) :
    (s.takeCall).waitValid = s.waitValid := rfl
@[simp] theorem State.takeCall_waitReg (s : State) :
    (s.takeCall).waitReg = s.waitReg := rfl
@[simp] theorem State.takeCall_instAcc (s : State) :
    (s.takeCall).instAcc = s.instAcc := rfl
@[simp] theorem State.takeCall_decayAcc (s : State) :
    (s.takeCall).decayAcc = s.decayAcc := rfl
@[simp] theorem State.takeCall_fault (s : State) :
    (s.takeCall).fault = s.fault := rfl
@[simp] theorem State.takeCall_mem (s : State) :
    (s.takeCall).mem = s.mem := rfl
@[simp] theorem State.takeCall_font (s : State) :
    (s.takeCall).font = s.font := rfl
@[simp] theorem State.takeCall_input (s : State) :
    (s.takeCall).input = s.input := rfl
@[simp] theorem State.takeCall_calls (s : State) :
    (s.takeCall).calls = s.calls.tail := rfl
@[simp] theorem State.takeCall_draws (s : State) :
    (s.takeCall).draws = s.draws := rfl
@[simp] theorem State.takeCall_drawCount (s : State) :
    (s.takeCall).drawCount = s.drawCount := rfl
@[simp] theorem State.takeCall_started (s : State) :
    (s.takeCall).started = s.started := rfl
@[simp] theorem State.takeCall_audio (s : State) :
    (s.takeCall).audio = [] := rfl

/-! ### spendInstr -/

@[simp] theorem State.spendInstr_v (s : State) :
    (s.spendInstr).v = s.v := rfl
@[simp] theorem State.spendInstr_i (s : State) :
    (s.spendInstr).i = s.i := rfl
@[simp] theorem State.spendInstr_pc (s : State) :
    (s.spendInstr).pc = s.pc := rfl
@[simp] theorem State.spendInstr_sp (s : State) :
    (s.spendInstr).sp = s.sp := rfl
@[simp] theorem State.spendInstr_stack (s : State) :
    (s.spendInstr).stack = s.stack := rfl
@[simp] theorem State.spendInstr_dt (s : State) :
    (s.spendInstr).dt = s.dt := rfl
@[simp] theorem State.spendInstr_st (s : State) :
    (s.spendInstr).st = s.st := rfl
@[simp] theorem State.spendInstr_fb (s : State) :
    (s.spendInstr).fb = s.fb := rfl
@[simp] theorem State.spendInstr_waitValid (s : State) :
    (s.spendInstr).waitValid = s.waitValid := rfl
@[simp] theorem State.spendInstr_waitReg (s : State) :
    (s.spendInstr).waitReg = s.waitReg := rfl
@[simp] theorem State.spendInstr_instAcc (s : State) :
    (s.spendInstr).instAcc = s.instAcc - Config.instrPeriod := rfl
@[simp] theorem State.spendInstr_decayAcc (s : State) :
    (s.spendInstr).decayAcc = s.decayAcc := rfl
@[simp] theorem State.spendInstr_fault (s : State) :
    (s.spendInstr).fault = s.fault := rfl
@[simp] theorem State.spendInstr_mem (s : State) :
    (s.spendInstr).mem = s.mem := rfl
@[simp] theorem State.spendInstr_font (s : State) :
    (s.spendInstr).font = s.font := rfl
@[simp] theorem State.spendInstr_input (s : State) :
    (s.spendInstr).input = s.input := rfl
@[simp] theorem State.spendInstr_calls (s : State) :
    (s.spendInstr).calls = s.calls := rfl
@[simp] theorem State.spendInstr_draws (s : State) :
    (s.spendInstr).draws = s.draws := rfl
@[simp] theorem State.spendInstr_drawCount (s : State) :
    (s.spendInstr).drawCount = s.drawCount := rfl
@[simp] theorem State.spendInstr_started (s : State) :
    (s.spendInstr).started = s.started := rfl
@[simp] theorem State.spendInstr_audio (s : State) :
    (s.spendInstr).audio = s.audio := rfl

/-! ### decay -/

@[simp] theorem State.decay_v (s : State) :
    (s.decay).v = s.v := rfl
@[simp] theorem State.decay_i (s : State) :
    (s.decay).i = s.i := rfl
@[simp] theorem State.decay_pc (s : State) :
    (s.decay).pc = s.pc := rfl
@[simp] theorem State.decay_sp (s : State) :
    (s.decay).sp = s.sp := rfl
@[simp] theorem State.decay_stack (s : State) :
    (s.decay).stack = s.stack := rfl
@[simp] theorem State.decay_dt (s : State) :
    (s.decay).dt = decrement s.dt := rfl
@[simp] theorem State.decay_st (s : State) :
    (s.decay).st = decrement s.st := rfl
@[simp] theorem State.decay_fb (s : State) :
    (s.decay).fb = s.fb := rfl
@[simp] theorem State.decay_waitValid (s : State) :
    (s.decay).waitValid = s.waitValid := rfl
@[simp] theorem State.decay_waitReg (s : State) :
    (s.decay).waitReg = s.waitReg := rfl
@[simp] theorem State.decay_instAcc (s : State) :
    (s.decay).instAcc = s.instAcc := rfl
@[simp] theorem State.decay_decayAcc (s : State) :
    (s.decay).decayAcc = s.decayAcc := rfl
@[simp] theorem State.decay_fault (s : State) :
    (s.decay).fault = s.fault := rfl
@[simp] theorem State.decay_mem (s : State) :
    (s.decay).mem = s.mem := rfl
@[simp] theorem State.decay_font (s : State) :
    (s.decay).font = s.font := rfl
@[simp] theorem State.decay_input (s : State) :
    (s.decay).input = s.input := rfl
@[simp] theorem State.decay_calls (s : State) :
    (s.decay).calls = s.calls := rfl
@[simp] theorem State.decay_draws (s : State) :
    (s.decay).draws = s.draws := rfl
@[simp] theorem State.decay_drawCount (s : State) :
    (s.decay).drawCount = s.drawCount := rfl
@[simp] theorem State.decay_started (s : State) :
    (s.decay).started = s.started := rfl

/-! ### spendDecay -/

@[simp] theorem State.spendDecay_v (s : State) :
    (s.spendDecay).v = s.v := rfl
@[simp] theorem State.spendDecay_i (s : State) :
    (s.spendDecay).i = s.i := rfl
@[simp] theorem State.spendDecay_pc (s : State) :
    (s.spendDecay).pc = s.pc := rfl
@[simp] theorem State.spendDecay_sp (s : State) :
    (s.spendDecay).sp = s.sp := rfl
@[simp] theorem State.spendDecay_stack (s : State) :
    (s.spendDecay).stack = s.stack := rfl
@[simp] theorem State.spendDecay_dt (s : State) :
    (s.spendDecay).dt = decrement s.dt := rfl
@[simp] theorem State.spendDecay_st (s : State) :
    (s.spendDecay).st = decrement s.st := rfl
@[simp] theorem State.spendDecay_fb (s : State) :
    (s.spendDecay).fb = s.fb := rfl
@[simp] theorem State.spendDecay_waitValid (s : State) :
    (s.spendDecay).waitValid = s.waitValid := rfl
@[simp] theorem State.spendDecay_waitReg (s : State) :
    (s.spendDecay).waitReg = s.waitReg := rfl
@[simp] theorem State.spendDecay_instAcc (s : State) :
    (s.spendDecay).instAcc = s.instAcc := rfl
@[simp] theorem State.spendDecay_decayAcc (s : State) :
    (s.spendDecay).decayAcc = s.decayAcc - Config.decayPeriod := rfl
@[simp] theorem State.spendDecay_fault (s : State) :
    (s.spendDecay).fault = s.fault := rfl
@[simp] theorem State.spendDecay_mem (s : State) :
    (s.spendDecay).mem = s.mem := rfl
@[simp] theorem State.spendDecay_font (s : State) :
    (s.spendDecay).font = s.font := rfl
@[simp] theorem State.spendDecay_input (s : State) :
    (s.spendDecay).input = s.input := rfl
@[simp] theorem State.spendDecay_calls (s : State) :
    (s.spendDecay).calls = s.calls := rfl
@[simp] theorem State.spendDecay_draws (s : State) :
    (s.spendDecay).draws = s.draws := rfl
@[simp] theorem State.spendDecay_drawCount (s : State) :
    (s.spendDecay).drawCount = s.drawCount := rfl
@[simp] theorem State.spendDecay_started (s : State) :
    (s.spendDecay).started = s.started := rfl

/-! ### Reset -/

theorem State.reset_eq : State.reset = State.resetWith defaultFont := rfl

@[simp] theorem State.resetWith_v (f : Font) : (State.resetWith f).v = Vector.replicate 16 0 := rfl
@[simp] theorem State.resetWith_i (f : Font) : (State.resetWith f).i = 0 := rfl
@[simp] theorem State.resetWith_pc (f : Font) : (State.resetWith f).pc = 0x200 := rfl
@[simp] theorem State.resetWith_sp (f : Font) : (State.resetWith f).sp = 0 := rfl
@[simp] theorem State.resetWith_stack (f : Font) : (State.resetWith f).stack = Vector.replicate 16 0 := rfl
@[simp] theorem State.resetWith_dt (f : Font) : (State.resetWith f).dt = 0 := rfl
@[simp] theorem State.resetWith_st (f : Font) : (State.resetWith f).st = 0 := rfl
@[simp] theorem State.resetWith_fb (f : Font) : (State.resetWith f).fb = Vector.replicate 64 (Vector.replicate 32 false) := rfl
@[simp] theorem State.resetWith_waitValid (f : Font) : (State.resetWith f).waitValid = false := rfl
@[simp] theorem State.resetWith_waitReg (f : Font) : (State.resetWith f).waitReg = 0 := rfl
@[simp] theorem State.resetWith_instAcc (f : Font) : (State.resetWith f).instAcc = 0 := rfl
@[simp] theorem State.resetWith_decayAcc (f : Font) : (State.resetWith f).decayAcc = 0 := rfl
@[simp] theorem State.resetWith_fault (f : Font) : (State.resetWith f).fault = FaultStatus.clear := rfl
@[simp] theorem State.resetWith_mem (f : Font) : (State.resetWith f).mem = [] := rfl
@[simp] theorem State.resetWith_font (f : Font) : (State.resetWith f).font = f := rfl
@[simp] theorem State.resetWith_input (f : Font) : (State.resetWith f).input = { keyHeld := 0, keyReleased := 0 } := rfl
@[simp] theorem State.resetWith_calls (f : Font) : (State.resetWith f).calls = [] := rfl
@[simp] theorem State.resetWith_draws (f : Font) : (State.resetWith f).draws = [] := rfl
@[simp] theorem State.resetWith_drawCount (f : Font) : (State.resetWith f).drawCount = 0 := rfl
@[simp] theorem State.resetWith_started (f : Font) : (State.resetWith f).started = false := rfl
@[simp] theorem State.resetWith_audio (f : Font) : (State.resetWith f).audio = [] := rfl

end Sys2Proof.Machine
end

