-- ==== Sys2Proof/Laws/Ops.lean ====
section
/-! SUPPORT. What each named operation does, said once. -/

namespace Sys2Proof.Machine

/-! ### Registers -/

/-- What a register reads after a write: the byte written, or what it read before. -/
theorem State.getV_setV (s : State) (x : Nibble) (b : Byte) (k : Nibble) :
    (s.setV x b).getV k = if k = x then b else s.getV k := by
  simp only [State.getV, State.setV, Vector.getElem_set, BitVec.toNat_inj, eq_comm]

/-- Registers are read from `v` alone. -/
theorem State.getV_congr {s t : State} (h : t.v = s.v) (k : Nibble) : t.getV k = s.getV k := by
  simp only [State.getV, h]

@[simp] theorem State.length_vPrefix (s : State) (x : Nibble) : (s.vPrefix x).length = x.toNat + 1 := by
  have := x.isLt
  simp [State.vPrefix, prefixLength]; omega

/-- The `j`-th byte of V0..Vx is V[j]. -/
theorem State.getElem_vPrefix (s : State) (x k : Nibble) (h : k.toNat < (s.vPrefix x).length) :
    (s.vPrefix x)[k.toNat] = s.getV k := by
  simp [State.vPrefix, State.getV]

/-- What a register reads after bytes were written from V[first] upwards. -/
theorem State.getV_setVFrom (s : State) (first : Nat) (bs : List Byte) (h : first + bs.length ≤ 16) (k : Nibble) :
    (s.setVFrom first bs).getV k =
      if hk : first ≤ k.toNat ∧ k.toNat - first < bs.length then bs[k.toNat - first]'hk.2 else s.getV k := by
  induction bs generalizing s first with
  | nil => simp [State.setVFrom]
  | cons b bs ih =>
    simp only [List.length_cons] at h
    rw [State.setVFrom, ih _ _ (by omega), State.getV_setV]
    have hf : k = BitVec.ofNat 4 first ↔ k.toNat = first := by
      rw [← BitVec.toNat_inj, BitVec.toNat_ofNat]; have := k.isLt; omega
    by_cases h1 : first + 1 ≤ k.toNat ∧ k.toNat - (first + 1) < bs.length
    · have h2 : first ≤ k.toNat ∧ k.toNat - first < (b :: bs).length := by simp; omega
      rw [dif_pos h1, dif_pos h2]
      have e : k.toNat - first = k.toNat - (first + 1) + 1 := by omega
      simp [e]
    · rw [dif_neg h1]
      by_cases h3 : k.toNat = first
      · have h2 : first ≤ k.toNat ∧ k.toNat - first < (b :: bs).length := by simp; omega
        rw [if_pos (hf.mpr h3), dif_pos h2]
        simp [h3]
      · have h2 : ¬(first ≤ k.toNat ∧ k.toNat - first < (b :: bs).length) := by simp; omega
        rw [if_neg (fun e => h3 (hf.mp e)), dif_neg h2]

/-- Loading registers touches nothing but `v`. -/
theorem State.setVFrom_eq (s : State) (first : Nat) (bs : List Byte) :
    s.setVFrom first bs = { s with v := (s.setVFrom first bs).v } := by
  induction bs generalizing s first with
  | nil => rfl
  | cons b bs ih => rw [State.setVFrom, ih]; rfl

/-! ### Frames -/

theorem Part.same_refl (p : Part) (s : State) : p.Same s s := by cases p <;> simp [Part.Same]

theorem Part.same_trans {p : Part} {s t u : State} (h : p.Same s t) (h' : p.Same t u) : p.Same s u := by
  cases p <;> simp_all [Part.Same]

theorem onlyChanges_refl (changed : Part → Prop) (s : State) : OnlyChanges changed s s :=
  fun p _ => p.same_refl s

theorem OnlyChanges.mono {c d : Part → Prop} {s t : State} (h : OnlyChanges c s t) (hcd : ∀ p, c p → d p) :
    OnlyChanges d s t := fun p hp => h p fun hc => hp (hcd p hc)

theorem OnlyChanges.trans {c : Part → Prop} {s t u : State} (h : OnlyChanges c s t) (h' : OnlyChanges c t u) :
    OnlyChanges c s u := fun p hp => Part.same_trans (h p hp) (h' p hp)

/-- Advancing is the sequential PC effect. -/
theorem onlyAdvances_advance (s : State) : OnlyAdvances s s.advance :=
  ⟨rfl, fun p hp => by cases p <;> first | rfl | exact absurd rfl hp | exact ⟨rfl, rfl⟩⟩

/-- A skip moves PC by 4 or by 2 (40_cycle R94). -/
theorem skip_pc (c : Bool) (s : State) :
    (if c then s.advance else s).advance.pc = if c then s.pc + 4 else s.pc + 2 := by
  cases c
  · rfl
  · exact (BitVec.add_assoc s.pc 2 2).trans rfl

/-- A skip changes PC alone. -/
theorem skip_onlyChanges (c : Bool) (s : State) :
    OnlyChanges (fun p => p = .pc) s (if c then s.advance else s).advance := by
  have h := onlyAdvances_advance
  cases c
  · exact (h s).2
  · exact (h s).2.trans (h s.advance).2

/-- A state that differs from `s` in `v` and by the advance has the register frame. -/
theorem registersBecome_of_eq {s t : State} {g : Nibble → Byte} (ht : t = { s with v := t.v, pc := s.pc + 2 })
    (hg : ∀ k, t.getV k = g k) : RegistersBecome g s t := by
  refine ⟨by rw [ht], hg, fun p hp => ?_⟩
  rw [ht]
  cases p <;> first | rfl | exact ⟨rfl, rfl⟩ | (simp at hp)

/-! ### The tone and faults -/

theorem toneEdge_eq_toneCalls (before after : Bool) : toneEdge before after = toneCalls before after := by
  cases before <;> cases after <;> rfl

@[simp] theorem State.raiseFault_toneOn (s : State) (c : Cause) (op : Option Word) :
    (s.raiseFault c op).toneOn = false := by simp [State.toneOn]

/-- Taking a fault is what R212 says it is. -/
theorem faultTaken_raiseFault (s : State) (c : Cause) (op : Option Word) :
    FaultTaken c op s (s.raiseFault c op) := by
  refine ⟨rfl, rfl, rfl, rfl, rfl, rfl, s.raiseFault_toneOn c op, ?_, fun p hp => ?_⟩
  · rw [← toneEdge_eq_toneCalls, ← s.raiseFault_toneOn c op]; rfl
  · cases p <;> first | rfl | exact ⟨rfl, rfl⟩ | (simp at hp)

/-- What a write of ST does on the audio port. -/
theorem State.setST_audio (s : State) (b : Byte) :
    (s.setST b).audio = s.audio ++ toneCalls s.toneOn (b != 0 && !s.fault.halted) := by
  rw [← toneEdge_eq_toneCalls]; rfl

theorem toneAfter_append (on : Bool) (es fs : List ToneEvent) :
    toneAfter on (es ++ fs) = (toneAfter on es).bind fun mid => toneAfter mid fs := by
  induction es generalizing on with
  | nil => rfl
  | cons e es ih => cases on <;> cases e <;> simp [toneAfter, ih]

/-- An edge of the tone replays to the level after it. -/
theorem toneAfter_toneEdge (before after : Bool) : toneAfter before (toneEdge before after) = some after := by
  cases before <;> cases after <;> rfl

/-! ### Retiring -/

@[simp] theorem retire_sequential (i : Instr) (s t : State) : retire i s (sequential t) = .next t.advance := rfl

@[simp] theorem retire_jumpTo (i : Instr) (s t : State) (w : Word) :
    retire i s (jumpTo w t) = .next (t.setPC w) := rfl

@[simp] theorem retire_skipIf (i : Instr) (s t : State) (c : Bool) :
    retire i s (skipIf c t) = .next (if c then t.advance else t).advance := rfl

@[simp] theorem retire_error (i : Instr) (s : State) (c : Cause) :
    retire i s (.error c) = .next (s.raiseFault c (some (encode i))) := rfl

/-! ### Timers -/

/-- A decrement is truncated subtraction. -/
theorem decrement_toNat (b : Byte) : (decrement b).toNat = b.toNat - 1 := by
  unfold decrement
  split
  · next h => simp [h]
  · next h =>
    have : b.toNat ≠ 0 := fun h0 => h (BitVec.eq_of_toNat_eq h0)
    rw [BitVec.toNat_sub]
    have := b.isLt
    simp; omega

/-! ### Keys -/

/-- No bit set, no key. -/
theorem lowestKey_zero : lowestKey 0 = none := by decide

/-- The least set bit is the key found. -/
theorem lowestKey_eq_some {w : Word} {k : Nat} (hk : k < 16) (h : w.getLsbD k = true)
    (hlow : ∀ j < k, w.getLsbD j = false) : lowestKey w = some k := by
  unfold lowestKey
  rw [List.find?_eq_some_iff_append]
  refine ⟨h, List.range k, (List.range (16 - k - 1)).map (· + (k + 1)), ?_, ?_⟩
  · apply List.ext_getElem
    · simp; omega
    · intro n h1 h2
      simp [List.getElem_append, List.getElem_cons]
      split <;> omega
  · intro j hj
    simp [hlow j (List.mem_range.mp hj)]

/-- A key found is one of the sixteen. -/
theorem lowestKey_lt {w : Word} {k : Nat} (h : lowestKey w = some k) : k < 16 :=
  List.mem_range.mp (List.mem_of_find?_eq_some h)

/-- Everything the poll can do (R96). -/
theorem State.poll_cases (s : State) :
    (lowestKey s.input.keyReleased = none ∧ s.poll = s) ∨
      ∃ k, lowestKey s.input.keyReleased = some k ∧ s.poll = (s.setV s.waitReg (BitVec.ofNat 8 k)).endWait := by
  unfold State.poll
  cases h : lowestKey s.input.keyReleased with
  | none => exact .inl ⟨rfl, rfl⟩
  | some k => exact .inr ⟨k, rfl, rfl⟩

/-- Everything reading a held key can do (R190). -/
theorem State.heldKey_cases (s : State) (b : Byte) :
    (b.toNat ≤ 15 ∧ s.heldKey b = .ok (s.input.keyHeld.getLsbD b.toNat)) ∨
      (15 < b.toNat ∧ s.heldKey b = .error .keyIndexOutOfRange) := by
  unfold State.heldKey
  by_cases h : b.toNat > 15
  · exact .inr ⟨h, by rw [if_pos h]⟩
  · exact .inl ⟨by omega, by rw [if_neg h]⟩

/-! ### The random port -/

/-- Everything taking a draw can do (R228). -/
theorem State.draw_cases (s : State) :
    (∃ r rest, s.draws = r :: rest ∧ s.nextDraw = r ∧ s.takeDraw = { s with draws := rest }) ∨
      (s.draws = [] ∧ s.nextDraw = Config.randomByte s.drawCount ∧
        s.takeDraw = { s with drawCount := s.drawCount + 1 }) := by
  unfold State.nextDraw State.takeDraw
  cases h : s.draws with
  | nil => exact .inr ⟨rfl, rfl, rfl⟩
  | cons r rest => exact .inl ⟨r, rest, rfl, rfl, rfl⟩

/-! ### The host's calls -/

/-- Everything a slot can do (R90). -/
theorem slot_cases (s : State) :
    (s.fault.halted = true ∧ slot s = .next s) ∨
      (s.fault.halted = false ∧ s.waitValid = true ∧ slot s = .next s.poll) ∨
      (s.fault.halted = false ∧ s.waitValid = false ∧ s.pc.toNat + 2 ≤ 4096 ∧
        slot s = exec (decodeWord (Mem.lookup s.font s.mem s.pc.toNat ++ Mem.lookup s.font s.mem (s.pc.toNat + 1))) s) ∨
      (s.fault.halted = false ∧ s.waitValid = false ∧ 4096 < s.pc.toNat + 2 ∧
        slot s = .next (s.raiseFault .addressOutOfRange none)) := by
  unfold slot
  cases hh : s.fault.halted
  · cases hw : s.waitValid
    · rcases s.loadBytes_cases s.pc.toNat 2 with ⟨h, hl⟩ | ⟨_, h, hl⟩
      · exact .inr (.inr (.inl ⟨rfl, rfl, by omega, by simp [executeOne, State.fetchBytes, hl, Mem.readMany, decode]⟩))
      · exact .inr (.inr (.inr ⟨rfl, rfl, by omega, by simp [executeOne, State.fetchBytes, hl]⟩))
    · exact .inr (.inl ⟨rfl, rfl, by simp⟩)
  · exact .inl ⟨rfl, by simp⟩

end Sys2Proof.Machine
end

