-- ==== Sys2Proof/Laws/Display.lean ====
section
/-! SUPPORT. What drawing one on-pixel, one row and all the rows of a sprite does to each pixel and to the collision
flag (44_display R181). -/

namespace Sys2Proof.Machine

/-- A pixel of a framebuffer, `false` off the screen: `State.pixel` as a function of the framebuffer. -/
def pixelAt (f : Frame) (px py : Nat) : Bool := if h : px < 64 ∧ py < 32 then (f[px]'h.1)[py]'h.2 else false

theorem State.pixel_eq (s : State) (px py : Nat) : s.pixel px py = pixelAt s.fb px py := rfl

theorem pixelAt_off {f : Frame} {px py : Nat} (h : ¬OnScreen px py) : pixelAt f px py = false := dif_neg h

@[simp] theorem pixelAt_blankFrame (px py : Nat) : pixelAt blankFrame px py = false := by
  simp [pixelAt, blankFrame]

/-- One on-pixel toggles its own pixel, if it is on the screen, and no other. -/
theorem pixelAt_drawPixel (px py a b : Nat) (d : Frame × Bool) :
    pixelAt (drawPixel px py d).1 a b =
      if a = px ∧ b = py ∧ OnScreen px py then !pixelAt d.1 a b else pixelAt d.1 a b := by
  unfold drawPixel
  by_cases h : px < 64 ∧ py < 32
  · rw [dif_pos h]
    by_cases hab : a < 64 ∧ b < 32
    · simp only [pixelAt, dif_pos hab, OnScreen]
      by_cases hx : px = a
      · subst hx
        by_cases hy : py = b
        · subst hy; simp [h]
        · simp [hy, Ne.symm hy]
      · simp [hx, Ne.symm hx]
    · have hne : ¬(a = px ∧ b = py ∧ OnScreen px py) := fun e => hab (e.1 ▸ e.2.1 ▸ h)
      rw [if_neg hne, pixelAt_off hab, pixelAt_off hab]
  · rw [dif_neg h, if_neg fun e => h e.2.2]

/-- One on-pixel collides when its own pixel was on. -/
theorem drawPixel_flag (px py : Nat) (d : Frame × Bool) :
    (drawPixel px py d).2 = (d.2 || pixelAt d.1 px py) := by
  unfold drawPixel pixelAt
  by_cases h : px < 64 ∧ py < 32 <;> simp [h]

/-- Column offset `col` of a row is an on-pixel that lands at (a, b). -/
def RowCovers (byte : Byte) (px0 py : Nat) (cols : List Nat) (a b : Nat) : Prop :=
  ∃ col ∈ cols, byte.getLsbD (7 - col) = true ∧ a = px0 + col ∧ b = py

/-- A row toggles exactly the on-screen pixels it covers, where no column is drawn twice. -/
theorem pixelAt_drawRow (byte : Byte) (px0 py a b : Nat) (cols : List Nat) (hc : cols.Nodup) (d : Frame × Bool) :
    (RowCovers byte px0 py cols a b ∧ OnScreen a b →
      pixelAt (drawRow byte px0 py cols d).1 a b = !pixelAt d.1 a b) ∧
    (¬(RowCovers byte px0 py cols a b ∧ OnScreen a b) →
      pixelAt (drawRow byte px0 py cols d).1 a b = pixelAt d.1 a b) := by
  induction cols generalizing d with
  | nil => simp [RowCovers, drawRow]
  | cons col cols ih =>
    obtain ⟨hnot, hnd⟩ := List.nodup_cons.mp hc
    have ih := ih hnd (if byte.getLsbD (7 - col) then drawPixel (px0 + col) py d else d)
    have hcase : RowCovers byte px0 py (col :: cols) a b ↔
        (byte.getLsbD (7 - col) = true ∧ a = px0 + col ∧ b = py) ∨ RowCovers byte px0 py cols a b := by
      simp [RowCovers]
    have hdisj : (a = px0 + col) → ¬RowCovers byte px0 py cols a b := by
      rintro rfl ⟨col', hm, _, he, _⟩
      exact hnot ((by omega : col = col') ▸ hm)
    rw [drawRow]
    by_cases hbit : byte.getLsbD (7 - col) = true
    · simp only [hbit, if_true] at ih ⊢
      rw [pixelAt_drawPixel] at ih
      by_cases hhere : a = px0 + col ∧ b = py
      · have hn := hdisj hhere.1
        have e := ih.2 (fun h => hn h.1)
        rw [e]
        refine ⟨fun h => if_pos ⟨hhere.1, hhere.2, hhere.1 ▸ hhere.2 ▸ h.2⟩, fun h => if_neg fun g => h ⟨?_, ?_⟩⟩
        · exact hcase.mpr (.inl ⟨hbit, hhere⟩)
        · exact hhere.1 ▸ hhere.2 ▸ g.2.2
      · have hif : ¬(a = px0 + col ∧ b = py ∧ OnScreen (px0 + col) py) := fun g => hhere ⟨g.1, g.2.1⟩
        rw [if_neg hif] at ih
        have hiff : RowCovers byte px0 py (col :: cols) a b ↔ RowCovers byte px0 py cols a b := by
          rw [hcase]; constructor
          · rintro (g | g)
            · exact absurd g.2 hhere
            · exact g
          · exact .inr
        rw [hiff]; exact ih
    · simp only [Bool.not_eq_true] at hbit
      simp only [hbit] at ih ⊢
      have hiff : RowCovers byte px0 py (col :: cols) a b ↔ RowCovers byte px0 py cols a b := by
        rw [hcase]; simp [hbit]
      rw [hiff]; exact ih

/-- A row collides when it covers an on-screen pixel that was on, where no column is drawn twice. -/
theorem drawRow_flag (byte : Byte) (px0 py : Nat) (cols : List Nat) (hc : cols.Nodup) (d : Frame × Bool) :
    (drawRow byte px0 py cols d).2 = true ↔
      d.2 = true ∨ ∃ a b, RowCovers byte px0 py cols a b ∧ OnScreen a b ∧ pixelAt d.1 a b = true := by
  induction cols generalizing d with
  | nil => simp [RowCovers, drawRow]
  | cons col cols ih =>
    obtain ⟨hnot, hnd⟩ := List.nodup_cons.mp hc
    rw [drawRow, ih hnd]
    by_cases hbit : byte.getLsbD (7 - col) = true
    · simp only [hbit, if_true, drawPixel_flag, Bool.or_eq_true]
      have hother : ∀ a b, RowCovers byte px0 py cols a b →
          pixelAt (drawPixel (px0 + col) py d).1 a b = pixelAt d.1 a b := by
        rintro a b ⟨col', hm, _, rfl, rfl⟩
        rw [pixelAt_drawPixel, if_neg]
        rintro ⟨he, _⟩
        exact hnot ((by omega : col = col') ▸ hm)
      constructor
      · rintro ((h | h) | ⟨a, b, hr, hs, hp⟩)
        · exact .inl h
        · refine .inr ⟨px0 + col, py, ⟨col, by simp, hbit, rfl, rfl⟩, ?_, h⟩
          by_contra hoff
          rw [pixelAt_off hoff] at h
          cases h
        · obtain ⟨col', hm, g⟩ := hr
          have hr' : RowCovers byte px0 py cols a b := ⟨col', hm, g⟩
          rw [hother a b hr'] at hp
          exact .inr ⟨a, b, ⟨col', List.mem_cons_of_mem _ hm, g⟩, hs, hp⟩
      · rintro (h | ⟨a, b, ⟨col', hm, hb, rfl, rfl⟩, hs, hp⟩)
        · exact .inl (.inl h)
        · rcases List.mem_cons.mp hm with rfl | hm
          · exact .inl (.inr hp)
          · have hr : RowCovers byte px0 b cols (px0 + col') b := ⟨col', hm, hb, rfl, rfl⟩
            exact .inr ⟨_, _, hr, hs, by rw [hother _ _ hr]; exact hp⟩
    · simp only [Bool.not_eq_true] at hbit
      simp [RowCovers, hbit]

/-- The rows of a sprite, byte `j` in row `py0 + j`, have an on-pixel at (a, b). -/
def RowsCover (bs : List Byte) (px0 py0 a b : Nat) : Prop :=
  ∃ j byte, bs[j]? = some byte ∧ RowCovers byte px0 (py0 + j) [0, 1, 2, 3, 4, 5, 6, 7] a b

theorem rowsCover_cons (byte : Byte) (bs : List Byte) (px0 py0 a b : Nat) :
    RowsCover (byte :: bs) px0 py0 a b ↔
      RowCovers byte px0 py0 [0, 1, 2, 3, 4, 5, 6, 7] a b ∨ RowsCover bs px0 (py0 + 1) a b := by
  constructor
  · rintro ⟨j, c, hj, hc⟩
    cases j with
    | zero => simp at hj; subst hj; exact .inl hc
    | succ j => exact .inr ⟨j, c, by simpa using hj, by rwa [show py0 + 1 + j = py0 + (j + 1) by omega]⟩
  · rintro (h | ⟨j, c, hj, hc⟩)
    · exact ⟨0, byte, rfl, h⟩
    · exact ⟨j + 1, c, by simpa using hj, by rwa [show py0 + (j + 1) = py0 + 1 + j by omega]⟩

/-- Two rows of a sprite never cover the same pixel. -/
theorem rowsCover_below {bs : List Byte} {byte : Byte} {px0 py0 a b : Nat} {cols : List Nat}
    (h : RowsCover bs px0 (py0 + 1) a b) : ¬RowCovers byte px0 py0 cols a b := by
  obtain ⟨j, _, _, _, _, _, _, hb⟩ := h
  rintro ⟨_, _, _, _, hb'⟩
  omega

/-- The rows toggle exactly the on-screen pixels they cover. -/
theorem pixelAt_drawRows (bs : List Byte) (px0 py0 a b : Nat) (d : Frame × Bool) :
    (RowsCover bs px0 py0 a b ∧ OnScreen a b → pixelAt (drawRows px0 py0 bs d).1 a b = !pixelAt d.1 a b) ∧
    (¬(RowsCover bs px0 py0 a b ∧ OnScreen a b) → pixelAt (drawRows px0 py0 bs d).1 a b = pixelAt d.1 a b) := by
  induction bs generalizing py0 d with
  | nil => simp [RowsCover, drawRows]
  | cons byte bs ih =>
    have hrow := pixelAt_drawRow byte px0 py0 a b [0, 1, 2, 3, 4, 5, 6, 7] (by decide) d
    have ih := ih (py0 + 1) (drawRow byte px0 py0 [0, 1, 2, 3, 4, 5, 6, 7] d)
    rw [drawRows, rowsCover_cons]
    by_cases hb : RowsCover bs px0 (py0 + 1) a b
    · have e := hrow.2 fun h => rowsCover_below hb h.1
      rw [e] at ih
      exact ⟨fun h => ih.1 ⟨hb, h.2⟩, fun h => ih.2 fun g => h ⟨.inr g.1, g.2⟩⟩
    · have e := ih.2 fun h => hb h.1
      rw [e]
      exact ⟨fun h => hrow.1 ⟨h.1.resolve_right hb, h.2⟩, fun h => hrow.2 fun g => h ⟨.inl g.1, g.2⟩⟩

/-- The rows collide when they cover an on-screen pixel that was on. -/
theorem drawRows_flag (bs : List Byte) (px0 py0 : Nat) (d : Frame × Bool) :
    (drawRows px0 py0 bs d).2 = true ↔
      d.2 = true ∨ ∃ a b, RowsCover bs px0 py0 a b ∧ OnScreen a b ∧ pixelAt d.1 a b = true := by
  induction bs generalizing py0 d with
  | nil => simp [RowsCover, drawRows]
  | cons byte bs ih =>
    rw [drawRows, ih, drawRow_flag _ _ _ _ (by decide), or_assoc]
    have hkeep : ∀ a b, RowsCover bs px0 (py0 + 1) a b →
        pixelAt (drawRow byte px0 py0 [0, 1, 2, 3, 4, 5, 6, 7] d).1 a b = pixelAt d.1 a b := fun a b h =>
      (pixelAt_drawRow byte px0 py0 a b _ (by decide) d).2 fun g => rowsCover_below h g.1
    refine or_congr Iff.rfl ?_
    constructor
    · rintro (⟨a, b, h, g⟩ | ⟨a, b, h, hs, hp⟩)
      · exact ⟨a, b, (rowsCover_cons ..).mpr (.inl h), g⟩
      · exact ⟨a, b, (rowsCover_cons ..).mpr (.inr h), hs, by rwa [hkeep a b h] at hp⟩
    · rintro ⟨a, b, h, hs, hp⟩
      rcases (rowsCover_cons ..).mp h with h | h
      · exact .inl ⟨a, b, h, hs, hp⟩
      · exact .inr ⟨a, b, h, hs, by rwa [hkeep a b h]⟩

end Sys2Proof.Machine
end

