-- ==== Sys2Proof/Laws/PerInstr.lean ====
section
/-! SUPPORT. Facts about each instruction as syntax, one lemma per constructor of Instr. -/

namespace Sys2Proof.Laws

/-- The word of a well-formed instruction decodes to it (30_encoding R73, R80, R81). -/
def RoundTrip.Statement (i : Instr) : Prop := i.WellFormed → decodeWord (encode i) = i

theorem RoundTrip.cls : RoundTrip.Statement .cls := fun _ => rfl

theorem RoundTrip.ret : RoundTrip.Statement .ret := fun _ => rfl

theorem RoundTrip.sys (nnn : Addr) : RoundTrip.Statement (.sys nnn) := by
  intro h
  have h1 : encode (.sys nnn) ≠ 0x00E0 := fun e => by
    have hn := congrArg nnnField e
    simp only [encode, nnnField_wordNnn] at hn
    subst hn
    simp [Instr.WellFormed, Instr.wellFormed, nnnField] at h
  have h2 : encode (.sys nnn) ≠ 0x00EE := fun e => by
    have hn := congrArg nnnField e
    simp only [encode, nnnField_wordNnn] at hn
    subst hn
    simp [Instr.WellFormed, Instr.wellFormed, nnnField] at h
  have hw : decodeWord (encode (.sys nnn)) = decodeFamily0 (encode (.sys nnn)) := by simp [decodeWord, encode]
  rw [hw, decodeFamily0, if_neg h1, if_neg h2]
  simp [encode]

theorem RoundTrip.jp (nnn : Addr) : RoundTrip.Statement (.jp nnn) := by
  intro _; simp [decodeWord, encode]

theorem RoundTrip.call (nnn : Addr) : RoundTrip.Statement (.call nnn) := by
  intro _; simp [decodeWord, encode]

theorem RoundTrip.seImm (x : Nibble) (kk : Byte) : RoundTrip.Statement (.seImm x kk) := by
  intro _; simp [decodeWord, encode]

theorem RoundTrip.sneImm (x : Nibble) (kk : Byte) : RoundTrip.Statement (.sneImm x kk) := by
  intro _; simp [decodeWord, encode]

theorem RoundTrip.seReg (x y n : Nibble) : RoundTrip.Statement (.seReg x y n) := by
  intro _; simp [decodeWord, encode]

theorem RoundTrip.ldImm (x : Nibble) (kk : Byte) : RoundTrip.Statement (.ldImm x kk) := by
  intro _; simp [decodeWord, encode]

theorem RoundTrip.addImm (x : Nibble) (kk : Byte) : RoundTrip.Statement (.addImm x kk) := by
  intro _; simp [decodeWord, encode]

theorem RoundTrip.ldReg (x y : Nibble) : RoundTrip.Statement (.ldReg x y) := by
  intro _; simp [decodeWord, decodeFamily8, encode]

theorem RoundTrip.or (x y : Nibble) : RoundTrip.Statement (.or x y) := by
  intro _; simp [decodeWord, decodeFamily8, encode]

theorem RoundTrip.and (x y : Nibble) : RoundTrip.Statement (.and x y) := by
  intro _; simp [decodeWord, decodeFamily8, encode]

theorem RoundTrip.xor (x y : Nibble) : RoundTrip.Statement (.xor x y) := by
  intro _; simp [decodeWord, decodeFamily8, encode]

theorem RoundTrip.addReg (x y : Nibble) : RoundTrip.Statement (.addReg x y) := by
  intro _; simp [decodeWord, decodeFamily8, encode]

theorem RoundTrip.sub (x y : Nibble) : RoundTrip.Statement (.sub x y) := by
  intro _; simp [decodeWord, decodeFamily8, encode]

theorem RoundTrip.shr (x y : Nibble) : RoundTrip.Statement (.shr x y) := by
  intro _; simp [decodeWord, decodeFamily8, encode]

theorem RoundTrip.subn (x y : Nibble) : RoundTrip.Statement (.subn x y) := by
  intro _; simp [decodeWord, decodeFamily8, encode]

theorem RoundTrip.shl (x y : Nibble) : RoundTrip.Statement (.shl x y) := by
  intro _; simp [decodeWord, decodeFamily8, encode]

theorem RoundTrip.undef8 (x y n : Nibble) : RoundTrip.Statement (.undef8 x y n) := by
  intro h
  simp [Instr.WellFormed, Instr.wellFormed, family8Defined] at h
  have hn : ∀ m : Nibble, m.toNat ≤ 7 → n ≠ m := by rintro m hm rfl; omega
  simp [decodeWord, decodeFamily8, encode, hn, h.2]

theorem RoundTrip.sneReg (x y n : Nibble) : RoundTrip.Statement (.sneReg x y n) := by
  intro _; simp [decodeWord, encode]

theorem RoundTrip.ldI (nnn : Addr) : RoundTrip.Statement (.ldI nnn) := by
  intro _; simp [decodeWord, encode]

theorem RoundTrip.jpV0 (nnn : Addr) : RoundTrip.Statement (.jpV0 nnn) := by
  intro _; simp [decodeWord, encode]

theorem RoundTrip.rnd (x : Nibble) (kk : Byte) : RoundTrip.Statement (.rnd x kk) := by
  intro _; simp [decodeWord, encode]

theorem RoundTrip.drw (x y n : Nibble) : RoundTrip.Statement (.drw x y n) := by
  intro _; simp [decodeWord, encode]

theorem RoundTrip.skp (x : Nibble) : RoundTrip.Statement (.skp x) := by
  intro _; simp [decodeWord, decodeFamilyE, encode]

theorem RoundTrip.sknp (x : Nibble) : RoundTrip.Statement (.sknp x) := by
  intro _; simp [decodeWord, decodeFamilyE, encode]

theorem RoundTrip.undefE (x : Nibble) (kk : Byte) : RoundTrip.Statement (.undefE x kk) := by
  intro h
  simp [Instr.WellFormed, Instr.wellFormed, familyEDefined] at h
  simp [decodeWord, decodeFamilyE, encode, h]

theorem RoundTrip.ldVxDt (x : Nibble) : RoundTrip.Statement (.ldVxDt x) := by
  intro _; simp [decodeWord, decodeFamilyF, encode]

theorem RoundTrip.ldVxK (x : Nibble) : RoundTrip.Statement (.ldVxK x) := by
  intro _; simp [decodeWord, decodeFamilyF, encode]

theorem RoundTrip.ldDtVx (x : Nibble) : RoundTrip.Statement (.ldDtVx x) := by
  intro _; simp [decodeWord, decodeFamilyF, encode]

theorem RoundTrip.ldStVx (x : Nibble) : RoundTrip.Statement (.ldStVx x) := by
  intro _; simp [decodeWord, decodeFamilyF, encode]

theorem RoundTrip.addIVx (x : Nibble) : RoundTrip.Statement (.addIVx x) := by
  intro _; simp [decodeWord, decodeFamilyF, encode]

theorem RoundTrip.ldFVx (x : Nibble) : RoundTrip.Statement (.ldFVx x) := by
  intro _; simp [decodeWord, decodeFamilyF, encode]

theorem RoundTrip.ldBVx (x : Nibble) : RoundTrip.Statement (.ldBVx x) := by
  intro _; simp [decodeWord, decodeFamilyF, encode]

theorem RoundTrip.ldMemVx (x : Nibble) : RoundTrip.Statement (.ldMemVx x) := by
  intro _; simp [decodeWord, decodeFamilyF, encode]

theorem RoundTrip.ldVxMem (x : Nibble) : RoundTrip.Statement (.ldVxMem x) := by
  intro _; simp [decodeWord, decodeFamilyF, encode]

theorem RoundTrip.undefF (x : Nibble) (kk : Byte) : RoundTrip.Statement (.undefF x kk) := by
  intro h
  simp [Instr.WellFormed, Instr.wellFormed, familyFDefined] at h
  simp [decodeWord, decodeFamilyF, encode, h]

end Sys2Proof.Laws
end

