-- ==== Sys2Proof/Laws/Timing.lean ====
section
/-! SUPPORT. Everything a host call can do, and the inductions over the drains of a tick, said once. -/

namespace Sys2Proof.Machine

/-- The end of a call that ran to `u`: nothing more after a fault, else `rest`. -/
def State.unlessHalted (u rest : State) : State := if u.fault.halted then u else rest

/-- Everything one step that answers a next state can have done. -/
theorem step_cases {s t : State} (h : step s = .next t) :
    (s.nextCall = .reset ∧ t = resetCall s.takeCall) ∨
      (∃ rom, s.nextCall = .load rom ∧ s.started = false ∧ rom.length ≤ 3584 ∧
        t = s.takeCall.setMem (Mem.writeMany s.font s.mem 0x200 rom)) ∨
      (((∃ delta sample, s.nextCall = .tick delta sample) ∨ ∃ sample, s.nextCall = .step sample) ∧
        s.fault.halted = true ∧ t = s.takeCall) ∨
      (∃ delta sample u, s.nextCall = .tick delta sample ∧ s.fault.halted = false ∧
        runSlots delta (s.takeCall.beginCall sample) = .next u ∧ t = u.unlessHalted (runDecays delta u)) ∨
      ∃ sample u, s.nextCall = .step sample ∧ s.fault.halted = false ∧
        slot (s.takeCall.beginCall sample) = .next u ∧ t = u.unlessHalted u.decay := by
  unfold step hostStep at h
  generalize hc : s.nextCall = c at h
  cases c with
  | reset => injection h with h; exact .inl ⟨rfl, h.symm⟩
  | load rom =>
    refine .inr (.inl ⟨rom, rfl, ?_⟩)
    simp only [runCall, loadCall] at h
    split at h
    · cases h
    · next hs =>
      split at h
      · cases h
      · next hl => injection h with h; exact ⟨by simpa using hs, Nat.not_lt.mp hl, h.symm⟩
  | tick delta sample =>
    simp only [runCall, tickCall] at h
    split at h
    · next hh => injection h with h; exact .inr (.inr (.inl ⟨.inl ⟨_, _, rfl⟩, hh, h.symm⟩))
    · next hh =>
      refine .inr (.inr (.inr (.inl ?_)))
      cases hr : runSlots delta (s.takeCall.beginCall sample) with
      | next u =>
        refine ⟨delta, sample, u, rfl, by simpa using hh, hr, ?_⟩
        simp only [hr] at h
        unfold State.unlessHalted
        split at h <;> injection h with h <;> simp_all
      | fault f => rw [hr] at h; cases h
      | refused r => rw [hr] at h; cases h
  | step sample =>
    simp only [runCall, stepCall] at h
    split at h
    · next hh => injection h with h; exact .inr (.inr (.inl ⟨.inr ⟨_, rfl⟩, hh, h.symm⟩))
    · next hh =>
      refine .inr (.inr (.inr (.inr ?_)))
      cases hr : slot (s.takeCall.beginCall sample) with
      | next u =>
        refine ⟨sample, u, rfl, by simpa using hh, hr, ?_⟩
        simp only [hr] at h
        unfold State.unlessHalted
        split at h <;> injection h with h <;> simp_all
      | fault f => rw [hr] at h; cases h
      | refused r => rw [hr] at h; cases h

/-- A reflexive and transitive relation that every slot and the accumulator's spending keep holds over a drain. -/
theorem drainSlots_induction {R : State → State → Prop} (refl : ∀ s, R s s)
    (trans : ∀ s t u, R s t → R t u → R s u) (spend : ∀ s : State, R s s.spendInstr)
    (hslot : ∀ s t, slot s = .next t → R s t) {count : Nat} {s t : State} (h : drainSlots count s = .next t) :
    R s t := by
  induction count generalizing s with
  | zero => injection h with h; exact h ▸ refl s
  | succ count ih =>
    simp only [drainSlots] at h
    cases hs : slot s.spendInstr with
    | next u =>
      have hu := trans _ _ _ (spend s) (hslot _ _ hs)
      rw [hs] at h
      simp only at h
      split at h
      · injection h with h; exact h ▸ hu
      · exact trans _ _ _ hu (ih h)
    | fault f => rw [hs] at h; cases h
    | refused r => rw [hs] at h; cases h

/-- The same for the decay drain. -/
theorem drainDecays_induction {R : State → State → Prop} (refl : ∀ s, R s s)
    (trans : ∀ s t u, R s t → R t u → R s u) (spend : ∀ s : State, R s s.spendDecay) (count : Nat) (s : State) :
    R s (drainDecays count s) := by
  induction count generalizing s with
  | zero => exact refl s
  | succ count ih => exact trans _ _ _ (spend s) (ih _)

/-! ### Runs of the host's interface -/

/-- `Host.Core.run` unfolds one step of any machine. -/
theorem run_succ (M : Host.Core) (n : Nat) (s : M.State) :
    M.run (n + 1) s =
      match M.step s with
      | .next t => M.run n t
      | .fault f => .fault f
      | .refused r => .refused r := rfl

/-- A run of `n + 1` steps whose first answers `t`. -/
theorem run_succ_of_step {n : Nat} {s t : State} (h : step s = .next t) :
    Host.Core.run core (n + 1) s = Host.Core.run core n t := by
  have hrun := run_succ core n s
  have hstep : core.step s = .next t := h
  rw [hstep] at hrun
  exact hrun

/-- A run of `n + 1` steps that answers a state begins with a step that does. -/
theorem step_of_run_succ {n : Nat} {s t : State} (h : Host.Core.run core (n + 1) s = .next t) :
    ∃ u : State, step s = .next u ∧ Host.Core.run core n u = .next t := by
  have hrun := run_succ core n s
  cases hs : step s with
  | next u => exact ⟨u, rfl, (run_succ_of_step hs).symm.trans h⟩
  | fault f =>
    have hstep : core.step s = .fault f := hs
    rw [hstep] at hrun
    cases hrun.symm.trans h
  | refused r =>
    have hstep : core.step s = .refused r := hs
    rw [hstep] at hrun
    cases hrun.symm.trans h

end Sys2Proof.Machine
end

