-- ==== Sys2Proof/Tests/Slice0.lean ====
section
/-! SUPPORT. The model's own tests. Expected values are the spec's (95_test_vectors; its section stands beside each
group), or written out from the encodings of 30_encoding R80. -/

namespace Sys2Proof.Tests

open Sys2Proof.Machine

/-! ### Small states -/

/-- Bytes put into memory. -/
def poke (a : Nat) (bs : List Byte) (s : State) : State := s.setMem (Mem.writeMany s.font s.mem a bs)

/-- The reset state with a word at 0x200, as the vectors of 95 start. -/
def start (w : Word) : State := poke 0x200 (wordBytes w) State.reset

/-- Registers given values. -/
def withV : List (Nibble × Byte) → State → State
  | [], s => s
  | (x, b) :: rest, s => withV rest (s.setV x b)

/-- The keys held down. -/
def held (k : Word) (s : State) : State := { s with input := { keyHeld := k, keyReleased := 0 } }

/-- A return stack of `n` entries with this one on top of zeros. -/
def withStack (n : BitVec 5) (top : Word) (s : State) : State :=
  { s with sp := n, stack := s.stack.setIfInBounds (n.toNat - 1) top }

/-- What one slot makes of a state, where it answers a next state. -/
def ran (s : State) : Option State :=
  match slot s with
  | .next t => some t
  | .fault _ => none
  | .refused _ => none

/-- What one host call makes of a state, where it answers a next state. -/
def called (c : HostCall) (s : State) : Option State :=
  match step { s with calls := [c] } with
  | .next t => some t
  | .fault _ => none
  | .refused _ => none

/-- A fault record as 95 writes it, the word valid. -/
def faulted (c : Cause) (pc : Word) (sp : BitVec 5) (op : Word) : FaultStatus :=
  { halted := true, cause := c, faultPC := pc, faultSP := sp, faultOp := op, faultOpValid := true }

/-! ### Well-formedness: an ill-formed term for each check -/

theorem test_wf_sys : ¬(Instr.sys 0x0E0).WellFormed ∧ ¬(Instr.sys 0x0EE).WellFormed ∧ (Instr.sys 0x0E1).WellFormed := by
  decide

theorem test_wf_undef8 :
    (∀ n ∈ ([0, 1, 2, 3, 4, 5, 6, 7, 0xE] : List Nibble), ¬(Instr.undef8 1 2 n).WellFormed) ∧
      ∀ n ∈ ([8, 9, 0xA, 0xB, 0xC, 0xD, 0xF] : List Nibble), (Instr.undef8 1 2 n).WellFormed := by decide

theorem test_wf_undefE :
    ¬(Instr.undefE 1 0x9E).WellFormed ∧ ¬(Instr.undefE 1 0xA1).WellFormed ∧ (Instr.undefE 1 0x9F).WellFormed := by
  decide

theorem test_wf_undefF :
    (∀ kk ∈ ([0x07, 0x0A, 0x15, 0x18, 0x1E, 0x29, 0x33, 0x55, 0x65] : List Byte), ¬(Instr.undefF 1 kk).WellFormed) ∧
      (Instr.undefF 1 0x66).WellFormed := by decide

/-! ### Decoding: words written out bit by bit from the patterns of R80 -/

theorem test_decode_cls : decode [0b00000000, 0b11100000] = .ok (.cls, []) := by decide
theorem test_decode_ret : decode [0b00000000, 0b11101110] = .ok (.ret, []) := by decide
theorem test_decode_sys : decode [0b00000001, 0b00100011] = .ok (.sys 0x123, []) := by decide
theorem test_decode_jp : decode [0b00011010, 0b10111100] = .ok (.jp 0xABC, []) := by decide
theorem test_decode_call : decode [0b00100011, 0b00000001] = .ok (.call 0x301, []) := by decide
theorem test_decode_seImm : decode [0b00110011, 0b00010000] = .ok (.seImm 3 0x10, []) := by decide
theorem test_decode_sneImm : decode [0b01000011, 0b00010001] = .ok (.sneImm 3 0x11, []) := by decide
theorem test_decode_seReg : decode [0b01010001, 0b00101111] = .ok (.seReg 1 2 0xF, []) := by decide
theorem test_decode_ldImm : decode [0b01101010, 0b01111111] = .ok (.ldImm 0xA 0x7F, []) := by decide
theorem test_decode_addImm : decode [0b01111010, 0b00000001] = .ok (.addImm 0xA 1, []) := by decide
theorem test_decode_ldReg : decode [0b10000001, 0b00100000] = .ok (.ldReg 1 2, []) := by decide
theorem test_decode_or : decode [0b10000001, 0b00100001] = .ok (.or 1 2, []) := by decide
theorem test_decode_and : decode [0b10000001, 0b00100010] = .ok (.and 1 2, []) := by decide
theorem test_decode_xor : decode [0b10000001, 0b00100011] = .ok (.xor 1 2, []) := by decide
theorem test_decode_addReg : decode [0b10001010, 0b10110100] = .ok (.addReg 0xA 0xB, []) := by decide
theorem test_decode_sub : decode [0b10000001, 0b00100101] = .ok (.sub 1 2, []) := by decide
theorem test_decode_shr : decode [0b10000001, 0b00100110] = .ok (.shr 1 2, []) := by decide
theorem test_decode_subn : decode [0b10000001, 0b00100111] = .ok (.subn 1 2, []) := by decide
theorem test_decode_shl : decode [0b10000001, 0b00101110] = .ok (.shl 1 2, []) := by decide
theorem test_decode_undef8 : decode [0b10000001, 0b00101000] = .ok (.undef8 1 2 8, []) := by decide
theorem test_decode_sneReg : decode [0b10010001, 0b00100101] = .ok (.sneReg 1 2 5, []) := by decide
theorem test_decode_ldI : decode [0b10100011, 0b00000010] = .ok (.ldI 0x302, []) := by decide
theorem test_decode_jpV0 : decode [0b10111111, 0b11111110] = .ok (.jpV0 0xFFE, []) := by decide
theorem test_decode_rnd : decode [0b11000011, 0b00001010] = .ok (.rnd 3 0x0A, []) := by decide
theorem test_decode_drw : decode [0b11010001, 0b00100101] = .ok (.drw 1 2 5, []) := by decide
theorem test_decode_skp : decode [0b11100101, 0b10011110] = .ok (.skp 5, []) := by decide
theorem test_decode_sknp : decode [0b11100101, 0b10100001] = .ok (.sknp 5, []) := by decide
theorem test_decode_undefE : decode [0b11100101, 0b10011111] = .ok (.undefE 5 0x9F, []) := by decide
theorem test_decode_ldVxDt : decode [0b11110001, 0b00000111] = .ok (.ldVxDt 1, []) := by decide
theorem test_decode_ldVxK : decode [0b11110011, 0b00001010] = .ok (.ldVxK 3, []) := by decide
theorem test_decode_ldDtVx : decode [0b11110010, 0b00010101] = .ok (.ldDtVx 2, []) := by decide
theorem test_decode_ldStVx : decode [0b11110010, 0b00011000] = .ok (.ldStVx 2, []) := by decide
theorem test_decode_addIVx : decode [0b11110010, 0b00011110] = .ok (.addIVx 2, []) := by decide
theorem test_decode_ldFVx : decode [0b11111010, 0b00101001] = .ok (.ldFVx 0xA, []) := by decide
theorem test_decode_ldBVx : decode [0b11111010, 0b00110011] = .ok (.ldBVx 0xA, []) := by decide
theorem test_decode_ldMemVx : decode [0b11110001, 0b01010101] = .ok (.ldMemVx 1, []) := by decide
theorem test_decode_ldVxMem : decode [0b11110010, 0b01100101] = .ok (.ldVxMem 2, []) := by decide
theorem test_decode_undefF : decode [0b11110000, 0b00011111] = .ok (.undefF 0 0x1F, []) := by decide

/-- R70: one byte is no instruction, and the bytes after the word are handed back. -/
theorem test_decode_bytes : decode [0x12] = .error .truncated ∧ decode [0x60, 0x12, 0x34] = .ok (.ldImm 0 0x12, [0x34]) := by
  decide

theorem test_decodeTableWord : decodeTableWord 16 0x8AB4 = some (.addReg 0xA 0xB) := by decide

/-! ### Control flow (95 sections 2.1 and 2.2) -/

theorem test_sys : (ran (start 0x0123)).map (fun t => (t.pc, t.sp, t.fault.halted)) = some (0x202, 0, false) := by decide
theorem test_cls :
    (ran (withV [(0xF, 3)] { start 0x00E0 with fb := State.reset.fb.set 5 ((Vector.replicate 32 false).set 5 true) })).map
      (fun t => (t.pixel 5 5, t.getV 0xF, t.pc)) = some (false, 3, 0x202) := by decide
theorem test_ret_empty : (ran (start 0x00EE)).map (fun t => (t.fault, t.pc)) =
    some (faulted .stackUnderflow 0x200 0 0x00EE, 0x200) := by decide
theorem test_ret_full :
    (ran (withStack 16 0xFFE (start 0x00EE))).map (fun t => (t.sp, t.pc, t.fault.halted)) = some (15, 0x1000, false) := by
  decide
theorem test_jp : (ran (start 0x1ABC)).map (·.pc) = some 0xABC := by decide
theorem test_call_last :
    (ran (withStack 15 0x999 (start 0x2300))).map (fun t => (t.stack[15]?, t.sp, t.pc)) =
      some (some 0x200, 16, 0x300) := by decide
theorem test_call_full :
    (ran (withStack 16 0x999 (start 0x2300))).map (fun t => (t.fault, t.sp, t.pc)) =
      some (faulted .stackOverflow 0x200 16 0x2300, 16, 0x200) := by decide
theorem test_seImm : (ran (withV [(3, 0x10)] (start 0x3310))).map (·.pc) = some 0x204 ∧
    (ran (withV [(3, 0x10)] (start 0x3311))).map (·.pc) = some 0x202 := by decide
theorem test_sneImm : (ran (withV [(3, 0x10)] (start 0x4310))).map (·.pc) = some 0x202 ∧
    (ran (withV [(3, 0x10)] (start 0x4311))).map (·.pc) = some 0x204 := by decide
theorem test_seReg : (ran (withV [(1, 7), (2, 7)] (start 0x5121))).map (·.pc) = some 0x204 ∧
    (ran (withV [(1, 7), (2, 8)] (start 0x512F))).map (·.pc) = some 0x202 := by decide
theorem test_sneReg : (ran (withV [(1, 7), (2, 8)] (start 0x9125))).map (·.pc) = some 0x204 ∧
    (ran (withV [(1, 7), (2, 7)] (start 0x912F))).map (·.pc) = some 0x202 := by decide
theorem test_jpV0 : (ran (withV [(0, 0xFF)] (start 0xBFFF))).map (·.pc) = some 0x10FE := by decide

/-! ### Arithmetic (95 section 2.3) -/

theorem test_ldImm : (ran (start 0x6A7F)).map (fun t => (t.getV 0xA, t.pc)) = some (0x7F, 0x202) := by decide
theorem test_addImm : (ran (withV [(0xA, 0xFF), (0xF, 5)] (start 0x7A01))).map (fun t => (t.getV 0xA, t.getV 0xF)) =
    some (0, 5) := by decide
theorem test_ldReg : (ran (withV [(1, 0x7E), (0xF, 9)] (start 0x8010))).map (fun t => (t.getV 0, t.getV 0xF)) =
    some (0x7E, 9) := by decide
theorem test_or : (ran (withV [(0, 0xF0), (1, 0x0F), (0xF, 7)] (start 0x8011))).map (fun t => (t.getV 0, t.getV 0xF)) =
    some (0xFF, 0) := by decide
theorem test_or_vf : (ran (withV [(0xF, 0xF0), (1, 0x0F)] (start 0x8F11))).map (·.getV 0xF) = some 0 := by decide
theorem test_and : (ran (withV [(0, 0xF0), (1, 0x3C), (0xF, 1)] (start 0x8012))).map (fun t => (t.getV 0, t.getV 0xF)) =
    some (0x30, 0) := by decide
theorem test_xor : (ran (withV [(0, 0xFF), (1, 0x0F), (0xF, 1)] (start 0x8013))).map (fun t => (t.getV 0, t.getV 0xF)) =
    some (0xF0, 0) := by decide
theorem test_addReg : (ran (withV [(0, 0xFF), (0xF, 0x01)] (start 0x80F4))).map (fun t => (t.getV 0, t.getV 0xF)) =
    some (0, 1) := by decide
theorem test_addReg_vf : (ran (withV [(0xF, 0x10), (1, 2)] (start 0x8F14))).map (·.getV 0xF) = some 0 := by decide
theorem test_sub_equal : (ran (withV [(0, 5), (1, 5)] (start 0x8015))).map (fun t => (t.getV 0, t.getV 0xF)) =
    some (0, 0) := by decide
theorem test_sub_vf : (ran (withV [(0xF, 5), (1, 3)] (start 0x8F15))).map (·.getV 0xF) = some 0xFE ∧
    (ran (withV [(0, 5), (0xF, 3)] (start 0x80F5))).map (fun t => (t.getV 0, t.getV 0xF)) = some (4, 1) := by decide
theorem test_shr : (ran (withV [(0, 5), (1, 0xAA)] (start 0x8016))).map (fun t => (t.getV 0, t.getV 1, t.getV 0xF)) =
    some (2, 0xAA, 1) := by decide
theorem test_shr_vf : (ran (withV [(0xF, 3)] (start 0x8F06))).map (·.getV 0xF) = some 0 := by decide
theorem test_subn : (ran (withV [(0, 5), (1, 5)] (start 0x8017))).map (fun t => (t.getV 0, t.getV 0xF)) =
    some (0, 1) := by decide
theorem test_subn_zero : (ran (withV [(0, 0), (1, 5)] (start 0x8017))).map (fun t => (t.getV 0, t.getV 0xF)) =
    some (5, 0) := by decide
theorem test_shl : (ran (withV [(0, 0x81), (1, 0xAA)] (start 0x801E))).map (fun t => (t.getV 0, t.getV 1, t.getV 0xF)) =
    some (2, 0xAA, 1) := by decide
theorem test_shl_vf : (ran (withV [(0xF, 0x81)] (start 0x8F0E))).map (·.getV 0xF) = some 2 := by decide
theorem test_undef8 : (ran (withV [(0, 0x12), (1, 0x34)] (start 0x8018))).map (fun t => (t.getV 0, t.getV 0xF, t.pc)) =
    some (0x12, 0, 0x202) := by decide
theorem test_rnd : (ran { start 0xC30A with draws := [0xFF, 0x2F] }).map (fun t => (t.getV 3, t.draws)) =
    some (5, [0x2F]) := by decide
theorem test_rnd_zero : (ran { start 0xC300 with draws := [0xFF] }).map (fun t => (t.fault, t.draws)) =
    some (faulted .randomModuloZero 0x200 0 0xC300, [0xFF]) := by decide

/-! ### Index register and memory (95 section 2.4) -/

theorem test_ldI : (ran (start 0xA300)).map (·.i) = some 0x300 := by decide
theorem test_addIVx : (ran (withV [(2, 2), (0xF, 7)] ((start 0xF21E).setI 0xFFFF))).map (fun t => (t.i, t.getV 0xF)) =
    some (1, 7) := by decide
theorem test_ldFVx : (ran (withV [(0xA, 0xFF)] (start 0xFA29))).map (·.i) = some 0x4FB := by decide
theorem test_ldBVx : (ran (withV [(0xA, 7)] ((start 0xFA33).setI 0xFFD))).map
    (fun t => (t.readByte 0xFFD, t.readByte 0xFFE, t.readByte 0xFFF, t.i)) =
      some (some 0, some 0, some 7, 0xFFD) := by decide
theorem test_ldBVx_fault : (ran (withV [(0xA, 7)] ((start 0xFA33).setI 0xFFE))).map
    (fun t => (t.fault, t.mem == (start 0xFA33).mem)) = some (faulted .addressOutOfRange 0x200 0 0xFA33, true) := by decide
theorem test_ldMemVx : (ran (withV [(0, 0xAA), (1, 0xBB)] ((start 0xF155).setI 0x300))).map
    (fun t => (t.readByte 0x300, t.readByte 0x301, t.readByte 0x302, t.i)) =
      some (some 0xAA, some 0xBB, some 0, 0x302) := by decide
theorem test_ldMemVx_fault : (ran (withV [(0, 9)] ((start 0xFF55).setI 0xFF1))).map
    (fun t => (t.fault, t.readByte 0xFF1, t.i)) = some (faulted .addressOutOfRange 0x200 0 0xFF55, some 0, 0xFF1) := by decide
theorem test_ldVxMem : (ran (poke 0xFFF [0x5A] ((start 0xF065).setI 0xFFF))).map (fun t => (t.getV 0, t.i)) =
    some (0x5A, 0x1000) := by decide
theorem test_ldVxMem_font : (ran (start 0xFF65)).map (fun t => (t.getV 0, t.getV 1, t.getV 4, t.getV 0xF, t.i)) =
    some (0xF0, 0x90, 0xF0, 0xF0, 0x10) := by decide
/-- 70_reset R252: another font supplied to the machine is what it reads, after a reset call as well. -/
theorem test_font_parameter :
    (ran (poke 0x200 [0xF0, 0x65] (State.resetWith (Vector.replicate 80 0x11)))).map (fun t => (t.getV 0, t.i)) =
      some (0x11, 1) ∧
    (called .reset (poke 0 [0x22] (State.resetWith (Vector.replicate 80 0x11)))).map (fun t => (t.readByte 0, t.readByte 80)) =
      some (some 0x11, some 0) := by decide

/-! ### Display (95 section 2.5) -/

theorem test_drw_clip :
    (ran (withV [(1, 60)] (poke 0x300 [0x81] { (start 0xD121).setI 0x300 with
      fb := State.reset.fb.set 60 ((Vector.replicate 32 false).set 0 true) }))).map
      (fun t => (t.pixel 60 0, t.pixel 3 0, t.getV 0xF)) = some (false, false, 1) := by decide
theorem test_drw_vf : (ran (withV [(0xF, 2)] (poke 0x300 [0xC0] ((start 0xDFF1).setI 0x300)))).map
    (fun t => (t.pixel 2 2, t.pixel 3 2, t.pixel 4 2, t.getV 0xF)) = some (true, true, false, 0) := by decide

/-! ### Keys and timers (95 section 2.6) -/

theorem test_skp : (ran (withV [(5, 0xA)] (held 0x400 (start 0xE59E)))).map (·.pc) = some 0x204 ∧
    (ran (withV [(5, 0xA)] (start 0xE59E))).map (·.pc) = some 0x202 := by decide
theorem test_skp_fault : (ran (withV [(5, 0x10)] (held 0xFFFF (start 0xE59E)))).map (·.fault) =
    some (faulted .keyIndexOutOfRange 0x200 0 0xE59E) := by decide
theorem test_sknp : (ran (withV [(5, 0xA)] (start 0xE5A1))).map (·.pc) = some 0x204 ∧
    (ran (withV [(5, 0xA)] (held 0x400 (start 0xE5A1)))).map (·.pc) = some 0x202 := by decide
theorem test_sknp_fault : (ran (withV [(5, 0xFF)] (start 0xE5A1))).map (·.fault) =
    some (faulted .keyIndexOutOfRange 0x200 0 0xE5A1) := by decide
theorem test_undefE : (ran (start 0xE59F)).map (fun t => (t.pc, t.fault.halted)) = some (0x202, false) := by decide
theorem test_ldVxDt : (ran ((start 0xF107).setDT 0x3C)).map (·.getV 1) = some 0x3C := by decide
theorem test_ldVxK : (ran (start 0xF30A)).map (fun t => (t.waitValid, t.waitReg, t.pc)) = some (true, 3, 0x202) := by
  decide
theorem test_ldDtVx : (ran (withV [(0, 0x3C)] (start 0xF015))).map (·.dt) = some 0x3C := by decide
theorem test_ldStVx_start : (ran (withV [(2, 0x1E)] (start 0xF218))).map (fun t => (t.st, t.toneOn, t.audio)) =
    some (0x1E, true, [.startTone]) := by decide
theorem test_ldStVx_stop : (ran { start 0xF218 with st := 5 }).map (fun t => (t.st, t.toneOn, t.audio)) =
    some (0, false, [.stopTone]) := by decide
theorem test_undefF : (ran (start 0xF01F)).map (fun t => (t.pc, t.i, t.fault.halted)) = some (0x202, 0, false) := by
  decide

/-! ### Fetch, poll and the timing controller (95 sections 1 S9 and 2.7) -/

theorem test_fetch_edge : (ran (State.reset.setPC 0xFFF)).map (·.fault) =
    some { faulted .addressOutOfRange 0xFFF 0 0 with faultOpValid := false } := by decide
theorem test_fetch_odd : (ran (poke 0x201 [0x6A, 0x05] (State.reset.setPC 0x201))).map (fun t => (t.getV 0xA, t.pc)) =
    some (5, 0x203) := by decide
theorem test_poll_lowest :
    (called (.step { keyHeld := 0, keyReleased := 0x1080 }) ((start 0x7310).enterWait 3)).map
      (fun t => (t.getV 3, t.waitValid, t.pc)) = some (7, false, 0x200) := by decide
theorem test_tick_short :
    (called (.tick 3 { keyHeld := 0, keyReleased := 0 }) (start 0x1200)).map (fun t => (t.pc, t.instAcc, t.decayAcc)) =
      some (0x200, 3, 3) := by decide
theorem test_tick_decay :
    (called (.tick 1 { keyHeld := 0, keyReleased := 0 }) { start 0x1200 with dt := 5, decayAcc := 49 }).map
      (fun t => (t.dt, t.instAcc, t.decayAcc)) = some (4, 1, 0) := by decide
/-- 95 P6, from its 17th slot on: the unspent units stay, and no decay comes. -/
theorem test_tick_fault :
    (called (.tick 100 { keyHeld := 0, keyReleased := 0 }) { withStack 16 0x200 (start 0x2200) with dt := 5 }).map
      (fun t => (t.fault, t.instAcc, t.decayAcc, t.dt)) =
        some (faulted .stackOverflow 0x200 16 0x2200, 96, 0, 5) := by decide
theorem test_step_decay :
    (called (.step { keyHeld := 0, keyReleased := 0 }) { start 0x1200 with dt := 2, st := 1 }).map
      (fun t => (t.pc, t.dt, t.st, t.audio, t.instAcc)) = some (0x200, 1, 0, [.stopTone], 0) := by decide

/-! ### Placing an instruction, and reset -/

theorem test_withFetchWord :
    (match step (State.reset.withFetchWord 16 0x6A7F) with
      | .next t => some (t.getV 0xA, t.pc)
      | .fault _ => none
      | .refused _ => none) = some (0x7F, 0x202) := by decide

/-- R211's codes. -/
theorem test_cause_codes :
    [Cause.none, .stackUnderflow, .stackOverflow, .addressOutOfRange, .randomModuloZero, .keyIndexOutOfRange].map
      Cause.code = [0, 1, 2, 3, 4, 5] := by decide

/-- 20_memory R63: the image goes to 0x200, and a load after the first step is refused. -/
theorem test_load :
    (called (.load [0x12, 0x34]) State.reset).map (fun t => (t.readByte 0x200, t.readByte 0x201, t.pc)) =
      some (some 0x12, some 0x34, 0x200) ∧ called (.load [0x12]) { State.reset with started := true } = none := by decide

/-- 70_reset R255: a reset of a halted core, its tone off already, clears the record and the registers. -/
theorem test_reset :
    (called .reset (withV [(3, 7)] ((start 0x1234).raiseFault .stackOverflow none))).map
      (fun t => (t.fault, t.getV 3, t.readByte 0x200, t.audio)) = some (FaultStatus.clear, 0, some 0, []) := by decide

/-! ### Witnesses: a concrete state and operands for the hypotheses of each statement, each clause at a boundary -/

/-- An idle input sample. -/
def idle : Input := { keyHeld := 0, keyReleased := 0 }

theorem test_witness_DecodeOfEncode :
    (Instr.sys 0x0E1).WellFormed ∧ (Instr.undef8 0 0 0xF).WellFormed ∧ (Instr.undefE 0 0).WellFormed ∧
      (Instr.undefF 0xF 0xFF).WellFormed := by decide

/-- 0x8004 has two matching rows, so that the choice is no empty one. -/
theorem test_witness_WordSelectsMostSpecificRow :
    opcodeRows[14]? = some ⟨0x8004, 0xF00F⟩ ∧ rowMatches ⟨0x8004, 0xF00F⟩ 0x8004 = true ∧
      opcodeRows[19]? = some ⟨0x8000, 0xF000⟩ ∧ rowMatches ⟨0x8000, 0xF000⟩ 0x8004 = true := by decide

/-- PC at the last address a word fits at, and at the odd one before it. -/
theorem test_witness_FetchIsBigEndian :
    ∀ pc ∈ ([0xFFE, 0xFFD] : List Word), ∃ s : State, s.pc = pc ∧ s.fault.halted = false ∧ s.waitValid = false ∧
      s.readByte s.pc.toNat = some 0x12 ∧ s.readByte (s.pc.toNat + 1) = some 0x34 := by
  intro pc hpc
  refine ⟨poke pc.toNat [0x12, 0x34] (State.reset.setPC pc), ?_⟩
  simp only [List.mem_cons, List.not_mem_nil, or_false] at hpc
  rcases hpc with rfl | rfl <;> decide

theorem test_witness_FetchFaultsPastEnd :
    (State.reset.setPC 0xFFF).fault.halted = false ∧ (State.reset.setPC 0xFFF).waitValid = false ∧
      0xFFF ≤ (State.reset.setPC 0xFFF).pc.toNat := by decide

theorem test_witness_StepRunsDecodedInstruction :
    (start 0x6A7F).fault.halted = false ∧ (start 0x6A7F).waitValid = false ∧ (start 0x6A7F).nextCall = .step idle ∧
      (start 0x6A7F).readByte (start 0x6A7F).pc.toNat = some 0x6A ∧
      (start 0x6A7F).readByte ((start 0x6A7F).pc.toNat + 1) = some 0x7F ∧
      decode [0x6A, 0x7F] = .ok (.ldImm 0xA 0x7F, []) := by decide

/-- PC at its bound, and I where a store meets the next word. -/
def selfModifying (w : Word) (i : Word) : State := (poke 0xFFC (wordBytes w) (State.reset.setPC 0xFFC)).setI i

/-- F155 onto the whole next word, and F033 onto it and the byte before it; both up to the last byte. -/
theorem test_witness_StoredWordIsFetchedNext :
    (∃ (s : State) (after : Nat → Byte), Mem.Wf s.font s.mem ∧ s.fault.halted = false ∧ s.waitValid = false ∧
      s.pc.toNat ≤ 0xFFC ∧ s.i.toNat + (1 : Nibble).toNat ≤ 0xFFF ∧
      (∀ k : Nibble, k.toNat ≤ (1 : Nibble).toNat → after (s.i.toNat + k.toNat) = s.getV k) ∧
      ∀ a < 4096, a < s.i.toNat ∨ s.i.toNat + (1 : Nibble).toNat < a → s.readByte a = some (after a)) ∧
    ∃ (s : State) (after : Nat → Byte), Mem.Wf s.font s.mem ∧ s.fault.halted = false ∧ s.waitValid = false ∧
      s.pc.toNat ≤ 0xFFC ∧ s.i.toNat + 2 ≤ 0xFFF ∧
      after s.i.toNat = BitVec.ofNat 8 ((s.getV 0).toNat / 100) ∧
      after (s.i.toNat + 1) = BitVec.ofNat 8 ((s.getV 0).toNat / 10 % 10) ∧
      after (s.i.toNat + 2) = BitVec.ofNat 8 ((s.getV 0).toNat % 10) ∧
      ∀ a < 4096, a < s.i.toNat ∨ s.i.toNat + 2 < a → s.readByte a = some (after a) := by
  refine ⟨⟨selfModifying 0xF155 0xFFE, fun c => if 0xFFE ≤ c then 0 else
      Mem.lookup defaultFont (selfModifying 0xF155 0xFFE).mem c, by decide, rfl, rfl, by decide, by decide, by decide,
      fun a h h' => ?_⟩,
    selfModifying 0xF033 0xFFD, fun c => if 0xFFD ≤ c then 0 else
      Mem.lookup defaultFont (selfModifying 0xF033 0xFFD).mem c, by decide, rfl, rfl, by decide, by decide, by decide,
      by decide, by decide, fun a h h' => ?_⟩
  · have hi : (selfModifying 0xF155 0xFFE).i.toNat = 0xFFE := rfl
    have hx : (1 : Nibble).toNat = 1 := rfl
    exact State.readByte_eq_some.mpr ⟨h, (if_neg (show ¬0xFFE ≤ a by omega)).symm⟩
  · have hi : (selfModifying 0xF033 0xFFD).i.toNat = 0xFFD := rfl
    exact State.readByte_eq_some.mpr ⟨h, (if_neg (show ¬0xFFD ≤ a by omega)).symm⟩

/-- The words beside the two that SYS leaves out, and the last. -/
theorem test_witness_SysOnlyAdvances :
    ∀ w ∈ ([0x0000, 0x00E1, 0x00EF, 0x0FFF] : List Word), Selects 0x0000 0xF000 w ∧ w ≠ 0x00E0 ∧ w ≠ 0x00EE := by
  intro w hw
  simp only [List.mem_cons, List.not_mem_nil, or_false] at hw
  rcases hw with rfl | rfl | rfl | rfl <;> exact ⟨rfl, by decide, by decide⟩

theorem test_witness_UndefinedWordsOnlyAdvance :
    (Selects 0x8000 0xF000 0x8008 ∧ 8 ≤ (nField 0x8008).toNat) ∧
      (Selects 0x8000 0xF000 0x8FFD ∧ (nField 0x8FFD).toNat ≤ 0xD) ∧
      (Selects 0x8000 0xF000 0x801F ∧ nField 0x801F = 0xF) ∧
      (Selects 0xE000 0xF000 0xE59F ∧ kkField 0xE59F ≠ 0x9E ∧ kkField 0xE59F ≠ 0xA1) ∧
      Selects 0xF000 0xF000 0xF0FF ∧ kkField 0xF0FF ∉ [0x07, 0x0A, 0x15, 0x18, 0x1E, 0x29, 0x33, 0x55, 0x65] :=
  ⟨⟨rfl, by decide⟩, ⟨rfl, by decide⟩, ⟨rfl, by decide⟩, ⟨rfl, by decide, by decide⟩, rfl, by decide⟩

theorem test_witness_JumpSetsPc : Selects 0x1000 0xF000 0x1FFF := rfl

/-- A sum of 0x1000, one past the last address, from a core that runs. -/
theorem test_witness_JumpAddsV0 :
    Selects 0xB000 0xF000 0xBFFF ∧ (withV [(0, 1)] State.reset).fault.halted = false ∧
      (withV [(0, 1)] State.reset).waitValid = false ∧
      0xFFF < (0xFFF : Addr).toNat + ((withV [(0, 1)] State.reset).getV 0).toNat := ⟨rfl, rfl, rfl, by decide⟩

/-- The last entry free, and the stack full. -/
theorem test_witness_CallPushesOwnAddress :
    Selects 0x2000 0xF000 0x2300 ∧ (withStack 15 0 State.reset).sp.toNat < 16 ∧ State.reset.sp.toNat < 16 ∧
      (withStack 16 0 State.reset).sp = 16 := ⟨rfl, by decide, by decide, rfl⟩

/-- One entry, all entries, and none. -/
theorem test_witness_RetResumesAfterCall :
    Selects 0x00EE 0xFFFF 0x00EE ∧ State.reset.sp = 0 ∧
      ∀ n ∈ ([1, 16] : List (BitVec 5)), 0 < (withStack n 0x204 State.reset).sp.toNat ∧
        (withStack n 0x204 State.reset).stack[(withStack n 0x204 State.reset).sp.toNat - 1]? = some 0x204 :=
  ⟨rfl, rfl, by decide⟩

/-- Sixteen calls from an empty stack, and none more on a full one. -/
theorem test_witness_CallsReturnInReverse :
    State.reset.sp.toNat + (List.replicate 16 (0x300 : Addr)).length ≤ 16 ∧
      (withStack 16 0 State.reset).sp.toNat + ([] : List Addr).length = 16 ∧
      State.reset.sp.toNat + (List.replicate 16 (0x300 : Addr)).length = 16 ∧
      0 < 16 ∧ 16 ≤ (List.replicate 16 (0x300 : Addr)).length := by decide

theorem test_witness_SkipsCompareImmediate : Selects 0x3000 0xF000 0x3310 ∧ Selects 0x4000 0xF000 0x4310 := ⟨rfl, rfl⟩

theorem test_witness_SkipsCompareRegisters : Selects 0x5000 0xF000 0x512F ∧ Selects 0x9000 0xF000 0x9125 := ⟨rfl, rfl⟩

theorem test_witness_PlainLoadsAndAdd :
    Selects 0x6000 0xF000 0x6A7F ∧ Selects 0x7000 0xF000 0x7A01 ∧ Selects 0x8000 0xF00F 0x8010 := ⟨rfl, rfl, rfl⟩

theorem test_witness_LogicClearsFlag :
    Selects 0x8001 0xF00F 0x8F11 ∧ Selects 0x8002 0xF00F 0x8012 ∧ Selects 0x8003 0xF00F 0x8013 := ⟨rfl, rfl, rfl⟩

theorem test_witness_AddSetsCarry : Selects 0x8004 0xF00F 0x8F14 := rfl

/-- The registers of 95's row 0x8F15 once the flag is written. -/
theorem test_witness_SubSetsFlagFirst :
    Selects 0x8005 0xF00F 0x8F15 ∧ ∃ g : Nibble → Byte, ∀ k, g k =
      if k = 0xF then
        (if ((withV [(0xF, 5), (1, 3)] State.reset).getV 0xF).toNat >
          ((withV [(0xF, 5), (1, 3)] State.reset).getV 1).toNat then 1 else 0)
      else (withV [(0xF, 5), (1, 3)] State.reset).getV k := ⟨rfl, _, fun _ => rfl⟩

theorem test_witness_ShiftsSetFlagFirst :
    Selects 0x8006 0xF00F 0x8F06 ∧ Selects 0x800E 0xF00F 0x8F0E ∧
      (∃ g : Nibble → Byte, ∀ k, g k =
        if k = 0xF then BitVec.ofNat 8 (((withV [(0xF, 3)] State.reset).getV 0xF).toNat % 2)
        else (withV [(0xF, 3)] State.reset).getV k) ∧
      ∃ g : Nibble → Byte, ∀ k, g k =
        if k = 0xF then BitVec.ofNat 8 (((withV [(0xF, 0x81)] State.reset).getV 0xF).toNat / 128)
        else (withV [(0xF, 0x81)] State.reset).getV k := ⟨rfl, rfl, ⟨_, fun _ => rfl⟩, _, fun _ => rfl⟩

theorem test_witness_SubnSetsFlagFromResult :
    Selects 0x8007 0xF00F 0x8F17 ∧ ∃ g : Nibble → Byte, ∀ k, g k =
      if k = 0xF then
        BitVec.ofNat 8 ((((withV [(0xF, 3), (1, 5)] State.reset).getV 1).toNat + 256 -
          ((withV [(0xF, 3), (1, 5)] State.reset).getV 0xF).toNat) % 256)
      else (withV [(0xF, 3), (1, 5)] State.reset).getV k := ⟨rfl, _, fun _ => rfl⟩

theorem test_witness_SubnFlagClosedForm : (0 : Nibble) ≠ 0xE ∧ (0 : Nibble) ≠ 0xF ∧ (0xE : Nibble) ≠ 0xF := by decide

/-- The least immediate with a draw supplied, and the greatest with none. -/
theorem test_witness_RandomModuloImmediate :
    Selects 0xC000 0xF000 0xC301 ∧ (1 : Byte) ≠ 0 ∧ ({ State.reset with draws := [0xFF] } : State).draws = [0xFF] ∧
      (0xFF : Byte) ≠ 0 ∧ State.reset.draws = [] := ⟨rfl, by decide, rfl, by decide, rfl⟩

theorem test_witness_IndexRegisterWrites :
    Selects 0xA000 0xF000 0xA300 ∧ Selects 0xF01E 0xF0FF 0xF21E ∧ Selects 0xF029 0xF0FF 0xFA29 := ⟨rfl, rfl, rfl⟩

theorem test_witness_BcdStoresDigits :
    Selects 0xF033 0xF0FF 0xFA33 ∧ Mem.Wf State.reset.font (State.reset.setI 0xFFD).mem ∧ (State.reset.setI 0xFFD).i.toNat + 2 ≤ 0xFFF ∧
      0xFFF < (State.reset.setI 0xFFE).i.toNat + 2 := ⟨rfl, by decide, by decide, by decide⟩

theorem test_witness_StoreRegistersAtI :
    Selects 0xF055 0xF0FF 0xFF55 ∧ Mem.Wf State.reset.font (State.reset.setI 0xFF0).mem ∧
      (State.reset.setI 0xFF0).i.toNat + (0xF : Nibble).toNat ≤ 0xFFF ∧
      0xFFF < (State.reset.setI 0xFF1).i.toNat + (0xF : Nibble).toNat ∧
      (State.reset.setI 0xFFF).i.toNat + (0 : Nibble).toNat ≤ 0xFFF ∧
      0xFFF < (State.reset.setI 0x1000).i.toNat + (0 : Nibble).toNat :=
  ⟨rfl, by decide, by decide, by decide, by decide, by decide⟩

theorem test_witness_LoadRegistersFromI :
    Selects 0xF065 0xF0FF 0xF065 ∧ (State.reset.setI 0xFFF).i.toNat + (0 : Nibble).toNat ≤ 0xFFF ∧
      0xFFF < (State.reset.setI 0xFFF).i.toNat + (1 : Nibble).toNat := ⟨rfl, by decide, by decide⟩

/-- The state between the store and the load: I set back. -/
theorem test_witness_StoreThenLoadRestores :
    ∃ t u : State, Mem.Wf State.reset.font (State.reset.setI 0xFFF).mem ∧ (State.reset.setI 0xFFF).i.toNat + (0 : Nibble).toNat ≤ 0xFFF ∧
      exec (.ldMemVx 0) (State.reset.setI 0xFFF) = .next t ∧ u.i = (State.reset.setI 0xFFF).i ∧
      ∀ a, u.readByte a = t.readByte a := by
  refine ⟨_, State.setI _ 0xFFF, by decide, by decide, rfl, rfl, fun _ => rfl⟩

theorem test_witness_ClsTurnsPixelsOff : Selects 0x00E0 0xFFFF 0x00E0 := rfl

/-- A sprite whose last row is the last byte, with its first pixel in the corner of the screen and on. -/
def cornerSprite : State :=
  withV [(1, 63), (2, 31)]
    { poke 0xFFF [0x80] (State.reset.setI 0xFFF) with
      fb := State.reset.fb.set 63 ((Vector.replicate 32 false).set 31 true) }

/-- The first row read is the last byte; no row at any I; a row past the last byte. -/
theorem test_witness_DrwTogglesCoveredPixels :
    Selects 0xD000 0xF000 0xD125 ∧ (cornerSprite.i.toNat + (1 : Nibble).toNat - 1 ≤ 0xFFF) ∧
      (0 : Nibble) = 0 ∧ ((2 : Nibble) ≠ 0 ∧ 0xFFF < cornerSprite.i.toNat + (2 : Nibble).toNat - 1) :=
  ⟨rfl, by decide, rfl, by decide, by decide⟩

/-- A covered pixel in the corner that is on, a covered one off the screen, and an uncovered one. -/
theorem test_witness_DrwTogglesCoveredPixels_pixels :
    (SpriteCovers cornerSprite (cornerSprite.getV 1).toNat (cornerSprite.getV 2).toNat 1 63 31 ∧ OnScreen 63 31 ∧
        cornerSprite.pixel 63 31 = true) ∧
      (SpriteCovers cornerSprite 64 (cornerSprite.getV 2).toNat 1 64 31 ∧ ¬OnScreen 64 31) ∧
      ¬SpriteCovers cornerSprite (cornerSprite.getV 1).toNat (cornerSprite.getV 2).toNat 1 62 31 := by
  refine ⟨⟨⟨by decide, by decide, by decide, by decide, 0x80, by decide, by decide⟩, by decide, by decide⟩,
    ⟨⟨by decide, by decide, by decide, by decide, 0x80, by decide, by decide⟩, by decide⟩, ?_⟩
  rintro ⟨h, -⟩
  exact absurd h (by decide)

/-- Drawing keeps the coordinate registers where neither is VF; the drawn pixel was on, so no covered one is off. -/
theorem test_witness_DoubleDrawRestoresPixels :
    cornerSprite.i.toNat + (1 : Nibble).toNat - 1 ≤ 0xFFF ∧ ∃ t, exec (.drw 1 2 1) cornerSprite = .next t ∧
      t.getV 1 = cornerSprite.getV 1 ∧ t.getV 2 = cornerSprite.getV 2 := by
  refine ⟨by decide, _, rfl, by decide, by decide⟩

/-- A covered pixel that the first draw turns on. -/
theorem test_witness_DoubleDrawRestoresPixels_on :
    SpriteCovers (State.reset.setI 0) 0 0 1 0 0 ∧ OnScreen 0 0 ∧ (State.reset.setI 0).pixel 0 0 = false :=
  ⟨⟨by decide, by decide, by decide, by decide, 0xF0, by decide, by decide⟩, by decide, by decide⟩

/-- The last key, and the first value that is none. -/
theorem test_witness_SkipsReadHeldKey :
    Selects 0xE09E 0xF0FF 0xE59E ∧ Selects 0xE0A1 0xF0FF 0xE5A1 ∧
      ((withV [(5, 15)] State.reset).getV 5).toNat ≤ 15 ∧ 15 < ((withV [(5, 16)] State.reset).getV 5).toNat :=
  ⟨rfl, rfl, by decide, by decide⟩

theorem test_witness_DelayTimerMoves : Selects 0xF007 0xF0FF 0xF107 ∧ Selects 0xF015 0xF0FF 0xF015 := ⟨rfl, rfl⟩

theorem test_witness_SoundTimerDrivesTone :
    Selects 0xF018 0xF0FF 0xF218 ∧ State.reset.fault.halted = false ∧
      (State.reset.raiseFault .stackOverflow none).fault.halted = true := ⟨rfl, rfl, rfl⟩

theorem test_witness_KeyWaitIsEntered : Selects 0xF00A 0xF0FF 0xF30A := rfl

/-- A waiting core with these keys released in its sample. -/
def waiting (released : Word) : State :=
  { State.reset.enterWait 3 with input := { keyHeld := 0, keyReleased := released } }

/-- No release; the first key and the last alone; a lower key beside a higher one. -/
theorem test_witness_PollStoresLowestKey :
    ((waiting 0).fault.halted = false ∧ (waiting 0).waitValid = true ∧ (waiting 0).input.keyReleased = 0) ∧
      ((waiting 0x8001).waitValid = true ∧ (waiting 0x8001).input.keyReleased.getLsbD 0 = true) ∧
      ((waiting 0x8000).input.keyReleased.getLsbD 15 = true ∧
        ∀ j < 15, (waiting 0x8000).input.keyReleased.getLsbD j = false) ∧
      ((waiting 0x1080).input.keyReleased.getLsbD 7 = true ∧
        ∀ j < 7, (waiting 0x1080).input.keyReleased.getLsbD j = false) := by decide

theorem test_witness_KeyWaitHoldsWhileTimersDecay :
    ({ waiting 0 with calls := [.tick 50 idle] } : State).fault.halted = false ∧
      ({ waiting 0 with calls := [.tick 50 idle] } : State).waitValid = true ∧
      ({ waiting 0 with calls := [.tick 50 idle] } : State).nextCall = .tick 50 { keyHeld := 0, keyReleased := 0 } ∧
      (waiting 0).fault.halted = false ∧ (waiting 0).nextCall = .step { keyHeld := 0, keyReleased := 0 } := by decide

/-- A full stack is within the bound; one instruction that faults there and one that does not. -/
theorem test_witness_FaultsExactlyOnTheirConditions :
    (withStack 16 0 State.reset).sp.toNat ≤ 16 ∧ causeOf (.call 0) (withStack 16 0 State.reset) ≠ .none ∧
      causeOf .ret (withStack 16 0 State.reset) = .none := by decide

theorem test_witness_HaltedCoreIsStuck :
    (State.reset.raiseFault .stackOverflow none).fault.halted = true ∧
      (State.reset.raiseFault .stackOverflow none).nextCall = .step idle ∧
      ({ State.reset.raiseFault .stackOverflow none with calls := [.tick 3000 idle] } : State).nextCall =
        .tick 3000 idle := by decide

/-- A slot that does not halt, and one that does. -/
theorem test_witness_StepIsSlotThenDecay :
    (∃ u, (start 0x1200).fault.halted = false ∧ (start 0x1200).nextCall = .step idle ∧
      slot ((start 0x1200).takeCall.beginCall idle) = .next u ∧ u.fault.halted = false) ∧
    ∃ u, (start 0x00EE).fault.halted = false ∧ (start 0x00EE).nextCall = .step idle ∧
      slot ((start 0x00EE).takeCall.beginCall idle) = .next u ∧ u.fault.halted = true :=
  ⟨⟨_, rfl, rfl, rfl, rfl⟩, _, rfl, rfl, rfl, rfl⟩

/-- A tick of two slots and no fault, and one whose first slot faults. -/
theorem test_witness_TickIsSlotsThenDecays :
    (∃ u, ({ start 0x1200 with calls := [.tick 8 idle] } : State).fault.halted = false ∧
      ({ start 0x1200 with calls := [.tick 8 idle] } : State).nextCall = .tick 8 idle ∧
      slotTimes ((({ start 0x1200 with calls := [.tick 8 idle] } : State).instAcc + 8) / 4)
        (({ start 0x1200 with calls := [.tick 8 idle] } : State).takeCall.beginCall idle) = .next u ∧
      u.fault.halted = false) ∧
    ∃ u, ({ start 0x00EE with calls := [.tick 8 idle] } : State).fault.halted = false ∧
      ({ start 0x00EE with calls := [.tick 8 idle] } : State).nextCall = .tick 8 idle ∧
      slotTimes ((({ start 0x00EE with calls := [.tick 8 idle] } : State).instAcc + 8) / 4)
        (({ start 0x00EE with calls := [.tick 8 idle] } : State).takeCall.beginCall idle) = .next u ∧
      u.fault.halted = true := ⟨⟨_, rfl, rfl, rfl, rfl⟩, _, rfl, rfl, rfl, rfl⟩

theorem reset_inv : State.reset.Inv :=
  ⟨by decide, by decide, by decide, ⟨fun _ => rfl, by decide⟩, Mem.wf_nil⟩

theorem test_reset_pcBounded : State.reset.PcBounded := by
  refine ⟨by decide, fun j a h => ?_⟩
  simp [State.reset, State.resetWith, Vector.getElem?_replicate] at h
  simp [← h.2]

/-- Two ticks from a reset core that loops. -/
def twoTicks : State := { State.reset with calls := [.tick 1 idle, .tick 2 idle] }

theorem test_witness_AccumulatorsAreDecoupled :
    twoTicks.Inv ∧ twoTicks.calls = ([(1, idle), (2, idle)] : List (Nat × Input)).map (fun c => .tick c.1 c.2) ++ [] ∧
      ∃ t : State, Host.Core.run core 2 twoTicks = .next t ∧ t.fault.halted = false :=
  ⟨⟨reset_inv.1, reset_inv.2, reset_inv.3, reset_inv.4, reset_inv.5⟩, rfl, _, rfl, rfl⟩

theorem test_witness_ResetCallDiscardsEverything :
    ({ State.reset.raiseFault .stackOverflow none with calls := [.reset] } : State).nextCall = .reset := by decide

/-- The longest image that fits, one byte more, and a load too late. -/
theorem test_witness_LoadWritesImageOrIsRefused :
    (∃ (s : State) (rom : List Byte), Mem.Wf s.font s.mem ∧ s.nextCall = .load rom ∧ s.started = false ∧ rom.length ≤ 3584 ∧
      rom.length = 3584) ∧
    (∃ (s : State) (rom : List Byte), s.nextCall = .load rom ∧ s.started = false ∧ 3584 < rom.length) ∧
    ∃ (s : State) (rom : List Byte), s.nextCall = .load rom ∧ s.started = true :=
  ⟨⟨{ State.reset with calls := [.load (List.replicate 3584 0)] }, _, Mem.wf_nil, rfl, rfl,
      by rw [List.length_replicate], List.length_replicate⟩,
    ⟨{ State.reset with calls := [.load (List.replicate 3585 0)] }, _, rfl, rfl, by rw [List.length_replicate]; decide⟩,
    { State.reset with calls := [.load []], started := true }, _, rfl, rfl⟩

theorem test_witness_StepKeepsInvariant : State.reset.Inv ∧ ∃ t, step State.reset = .next t := ⟨reset_inv, _, rfl⟩

theorem test_witness_StepKeepsPcBounded : State.reset.PcBounded ∧ ∃ t, step State.reset = .next t :=
  ⟨test_reset_pcBounded, _, rfl⟩

/-- A step in which the tone falls. -/
theorem test_witness_ToneCallsAreTheEdges :
    ∃ t, step { start 0x1200 with st := 1 } = .next t ∧ t.audio = [.stopTone] := ⟨_, rfl, rfl⟩

theorem test_witness_OnlyTheseInstructionsChangeThem : ∃ t, exec (.call 0x300) State.reset = .next t := ⟨_, rfl⟩

/-- VF under an instruction that writes V0 and no flag, and V1 under one that writes V0 and VF. -/
theorem test_witness_OnlyNamedRegistersAndFlagChange :
    (∃ t, exec (.addImm 0 1) State.reset = .next t ∧ writesV 0xF (.addImm 0 1) = false ∧
      writesFlag (.addImm 0 1) = false) ∧
    ∃ t, exec (.addReg 0 1) State.reset = .next t ∧ writesV 1 (.addReg 0 1) = false ∧ (1 : Nibble) ≠ 0xF :=
  ⟨⟨_, rfl, rfl, rfl⟩, _, rfl, rfl, by decide⟩

theorem test_witness_OnlyKeySkipsReadInput :
    ((∀ x, Instr.ldVxK 3 ≠ .skp x ∧ Instr.ldVxK 3 ≠ .sknp x) ∧ ∃ t, exec (.ldVxK 3) State.reset = .next t) ∧
      (∃ t, exec (.skp 0) State.reset = .next t) ∧ ∃ t, exec (.sknp 0) State.reset = .next t :=
  ⟨⟨fun _ => ⟨nofun, nofun⟩, _, rfl⟩, ⟨_, rfl⟩, _, rfl⟩

end Sys2Proof.Tests
end

section
/-! SUPPORT. Which pieces of the state each named operation leaves unchanged: one rule per operation, for any set `c` of
pieces that contains the ones it writes. -/

namespace Sys2Proof.Machine

variable {c : Part → Prop} {s : State}

theorem State.onlyChanges_setV {x : Nibble} {b : Byte} (hx : c (.v x)) : OnlyChanges c s (s.setV x b) := by
  intro p hp
  cases p with
  | v k =>
    have hk : k ≠ x := fun e => hp (e ▸ hx)
    exact (s.getV_setV x b k).trans (if_neg hk)
  | wait | draws => exact ⟨rfl, rfl⟩
  | _ => rfl

/-- Bytes written from V[first] upwards. -/
theorem State.onlyChanges_setVFrom {first : Nat} {bs : List Byte}
    (hc : ∀ j < bs.length, c (.v (BitVec.ofNat 4 (first + j)))) : OnlyChanges c s (s.setVFrom first bs) := by
  induction bs generalizing s first with
  | nil => exact onlyChanges_refl c s
  | cons b bs ih =>
    have hfirst : OnlyChanges c s (s.setV (BitVec.ofNat 4 first) b) := onlyChanges_setV (hc 0 (by simp))
    refine hfirst.trans (ih fun j hj => ?_)
    rw [Nat.add_assoc, Nat.add_comm 1 j]
    exact hc (j + 1) (by simpa using hj)

theorem State.onlyChanges_setI {w : Word} (hi : c .i) : OnlyChanges c s (s.setI w) := by
  intro p hp
  cases p with
  | i => exact absurd hi hp
  | wait | draws => exact ⟨rfl, rfl⟩
  | _ => rfl

theorem State.onlyChanges_setPC {w : Word} (hpc : c .pc) : OnlyChanges c s (s.setPC w) := by
  intro p hp
  cases p with
  | pc => exact absurd hpc hp
  | wait | draws => exact ⟨rfl, rfl⟩
  | _ => rfl

theorem State.onlyChanges_setMem {m : List Host.Cell} (hm : ∀ a, c (.byte a)) : OnlyChanges c s (s.setMem m) := by
  intro p hp
  cases p with
  | byte a => exact absurd (hm a) hp
  | wait | draws => exact ⟨rfl, rfl⟩
  | _ => rfl

theorem State.onlyChanges_setFb {f : Frame} (hf : ∀ px py, c (.pixel px py)) : OnlyChanges c s (s.setFb f) := by
  intro p hp
  cases p with
  | pixel px py => exact absurd (hf px py) hp
  | wait | draws => exact ⟨rfl, rfl⟩
  | _ => rfl

theorem State.onlyChanges_setDT {b : Byte} (hdt : c .dt) : OnlyChanges c s (s.setDT b) := by
  intro p hp
  cases p with
  | dt => exact absurd hdt hp
  | wait | draws => exact ⟨rfl, rfl⟩
  | _ => rfl

/-- A write of ST drives the audio port too (10_state R32). -/
theorem State.onlyChanges_setST {b : Byte} (hst : c .st) (ha : c .audio) : OnlyChanges c s (s.setST b) := by
  intro p hp
  cases p with
  | st => exact absurd hst hp
  | audio => exact absurd ha hp
  | wait | draws => exact ⟨rfl, rfl⟩
  | _ => rfl

theorem State.onlyChanges_enterWait {x : Nibble} (hw : c .wait) : OnlyChanges c s (s.enterWait x) := by
  intro p hp
  cases p with
  | wait => exact absurd hw hp
  | draws => exact ⟨rfl, rfl⟩
  | _ => rfl

theorem State.onlyChanges_takeDraw (hd : c .draws) : OnlyChanges c s s.takeDraw := by
  obtain ⟨r, rest, _, _, htake⟩ | ⟨_, _, htake⟩ := s.draw_cases
  all_goals
    rw [htake]
    intro p hp
    cases p with
    | draws => exact absurd hd hp
    | wait => exact ⟨rfl, rfl⟩
    | _ => rfl

theorem State.onlyChanges_popInto {w : Word} (hsp : c .sp) (hpc : c .pc) : OnlyChanges c s (s.popInto w) := by
  intro p hp
  cases p with
  | sp => exact absurd hsp hp
  | pc => exact absurd hpc hp
  | wait | draws => exact ⟨rfl, rfl⟩
  | _ => rfl

theorem State.onlyChanges_push {h : s.sp.toNat < 16} (hsp : c .sp) (he : ∀ j, c (.stackEntry j)) :
    OnlyChanges c s (s.push h) := by
  intro p hp
  cases p with
  | sp => exact absurd hsp hp
  | stackEntry j => exact absurd (he j) hp
  | wait | draws => exact ⟨rfl, rfl⟩
  | _ => rfl

theorem State.onlyChanges_raiseFault {cause : Cause} {op : Option Word} (hf : c .fault) (ha : c .audio) :
    OnlyChanges c s (s.raiseFault cause op) := by
  obtain ⟨_, _, _, _, _, _, _, _, hframe⟩ := faultTaken_raiseFault s cause op
  refine hframe.mono ?_
  rintro p (rfl | rfl)
  · exact hf
  · exact ha

end Sys2Proof.Machine
end

section
/-! SUPPORT. Everything executing an instruction can do, said once: it takes a fault, or it completes. -/

namespace Sys2Proof.Machine

/-- `u` is what the instruction's own statements may leave of `s` where it raises nothing; the PC effect of 40_cycle R94
comes after it. -/
def Completes (s u : State) : Instr → Prop
  | .sys _ | .jp _ | .seImm _ _ | .sneImm _ _ | .seReg _ _ _ | .sneReg _ _ _ | .jpV0 _ | .skp _ | .sknp _ => u = s
  | .undef8 _ _ _ | .undefE _ _ | .undefF _ _ => u = s
  | .cls => u = s.setFb blankFrame
  | .ret => s.sp ≠ 0 ∧ ∃ w, u = s.popInto w
  | .call _ => ∃ h : s.sp.toNat < 16, u = s.push h
  | .ldImm x _ | .addImm x _ | .ldReg x _ | .ldVxDt x => ∃ b, u = s.setV x b
  | .or x _ | .and x _ | .xor x _ | .addReg x _ | .subn x _ => ∃ r flag, u = (s.setV x r).setV vf flag
  | .sub x _ | .shr x _ | .shl x _ => ∃ r flag, u = (s.setV vf flag).setV x r
  | .rnd x _ => ∃ b, u = s.takeDraw.setV x b
  | .drw _ _ _ => ∃ f flag, u = (s.setFb f).setV vf flag
  | .ldI _ | .addIVx _ | .ldFVx _ => ∃ w, u = s.setI w
  | .ldBVx _ =>
    ∃ bs, s.i.toNat + bs.length ≤ 4096 ∧ u = s.setMem (Mem.writeMany s.font s.mem s.i.toNat bs)
  | .ldMemVx x =>
    ∃ bs, s.i.toNat + bs.length ≤ 4096 ∧ u = (s.setMem (Mem.writeMany s.font s.mem s.i.toNat bs)).bumpI x
  | .ldVxMem x => ∃ bs, bs.length = x.toNat + 1 ∧ u = (s.setVFrom 0 bs).bumpI x
  | .ldVxK x => u = s.enterWait x
  | .ldDtVx _ => ∃ b, u = s.setDT b
  | .ldStVx _ => ∃ b, u = s.setST b

/-- The instruction took a fault with a cause (60_exceptions R212), or completed and set PC. -/
def Retires (i : Instr) (s t : State) : Prop :=
  (∃ cause, cause ≠ .none ∧ t = s.raiseFault cause (some (encode i))) ∨
    ∃ u w, Completes s u i ∧ t = u.setPC w

section
variable {i : Instr} {s t u : State}

theorem retires_of_sequential (hu : Completes s u i) (h : retire i s (sequential u) = .next t) : Retires i s t := by
  injection h with h
  exact .inr ⟨u, u.pc + 2, hu, h.symm⟩

theorem retires_of_jumpTo {w : Word} (hu : Completes s u i) (h : retire i s (jumpTo w u) = .next t) :
    Retires i s t := by
  injection h with h
  exact .inr ⟨u, w, hu, h.symm⟩

theorem retires_of_skipIf {b : Bool} (hu : Completes s u i) (h : retire i s (skipIf b u) = .next t) :
    Retires i s t := by
  injection h with h
  cases b
  · exact .inr ⟨u, u.pc + 2, hu, h.symm⟩
  · exact .inr ⟨u, u.pc + 2 + 2, hu, h.symm⟩

theorem retires_of_error {cause : Cause} (hc : cause ≠ .none) (h : retire i s (.error cause) = .next t) :
    Retires i s t := by
  injection h with h
  exact .inl ⟨cause, hc, h.symm⟩

/-- Everything an instruction that answers a next state can have done. -/
theorem retires_of_exec (h : exec i s = .next t) : Retires i s t := by
  cases i with
  | sys | undef8 | undefE | undefF => exact retires_of_sequential rfl h
  | jp | jpV0 => exact retires_of_jumpTo rfl h
  | seImm | sneImm | seReg | sneReg => exact retires_of_skipIf rfl h
  | cls | ldVxK => exact retires_of_sequential rfl h
  | ldImm | addImm | ldReg | ldVxDt | ldI | addIVx | ldFVx | ldDtVx | ldStVx =>
    exact retires_of_sequential ⟨_, rfl⟩ h
  | or | and | xor | addReg | subn | sub | shr | shl => exact retires_of_sequential ⟨_, _, rfl⟩ h
  | ret =>
    simp only [exec, execRet] at h
    split at h
    · exact retires_of_error (by decide) h
    · next hsp =>
      split at h
      · exact retires_of_sequential ⟨hsp, _, rfl⟩ h
      · cases h
  | call nnn =>
    simp only [exec, execCall] at h
    split at h
    · exact retires_of_error (by decide) h
    · split at h
      · next hsp => exact retires_of_jumpTo ⟨hsp, rfl⟩ h
      · cases h
  | rnd x kk =>
    simp only [exec, execRnd] at h
    split at h
    · exact retires_of_error (by decide) h
    · exact retires_of_sequential ⟨_, rfl⟩ h
  | drw x y n =>
    simp only [exec, execDrw] at h
    obtain ⟨_, hl⟩ | ⟨_, _, hl⟩ := s.loadBytes_cases s.i.toNat n.toNat <;> rw [hl] at h
    · exact retires_of_sequential ⟨_, _, rfl⟩ h
    · exact retires_of_error (by decide) h
  | skp x =>
    simp only [exec, execSkp] at h
    obtain ⟨_, hk⟩ | ⟨_, hk⟩ := s.heldKey_cases (s.getV x) <;> rw [hk] at h
    · exact retires_of_skipIf rfl h
    · exact retires_of_error (by decide) h
  | sknp x =>
    simp only [exec, execSknp] at h
    obtain ⟨_, hk⟩ | ⟨_, hk⟩ := s.heldKey_cases (s.getV x) <;> rw [hk] at h
    · exact retires_of_skipIf rfl h
    · exact retires_of_error (by decide) h
  | ldBVx x =>
    simp only [exec, execLdBVx] at h
    obtain ⟨hr, hst⟩ | ⟨_, _, hst⟩ := s.storeBytes_cases s.i.toNat (decimalDigits (s.getV x)) <;> rw [hst] at h
    · exact retires_of_sequential ⟨_, hr.resolve_left (by simp [decimalDigits]), rfl⟩ h
    · exact retires_of_error (by decide) h
  | ldMemVx x =>
    simp only [exec, execLdMemVx] at h
    obtain ⟨hr, hst⟩ | ⟨_, _, hst⟩ := s.storeBytes_cases s.i.toNat (s.vPrefix x) <;> rw [hst] at h
    · exact retires_of_sequential ⟨_, hr.resolve_left (by simp), rfl⟩ h
    · exact retires_of_error (by decide) h
  | ldVxMem x =>
    simp only [exec, execLdVxMem] at h
    obtain ⟨_, hl⟩ | ⟨_, _, hl⟩ := s.loadBytes_cases s.i.toNat (prefixLength x) <;> rw [hl] at h
    · exact retires_of_sequential ⟨_, Mem.length_readMany _ _ _, rfl⟩ h
    · exact retires_of_error (by decide) h

end

/-- The pieces a completing instruction may write (10_state R22 to R29, R36, R38; 20_memory R58). -/
def MayWrite (i : Instr) : Part → Prop
  | .v k => writesV k i = true ∨ (k = vf ∧ writesFlag i = true)
  | .i => writesI i = true
  | .sp => touchesStack i = true
  | .stackEntry _ => ∃ nnn, i = .call nnn
  | .byte _ => storesMemory i = true
  | .pixel _ _ => writesDisplay i = true
  | .dt => ∃ x, i = .ldDtVx x
  | .st => ∃ x, i = .ldStVx x
  | .wait => ∃ x, i = .ldVxK x
  | .draws => ∃ x kk, i = .rnd x kk
  | .pc | .audio => True
  | .instAcc | .decayAcc | .fault | .input | .calls | .started | .font => False

variable {i : Instr} {s t u : State}

/-- A completing instruction changes only what it may write: its update's rule, piece by piece. -/
theorem completes_onlyChanges (h : Completes s u i) : OnlyChanges (MayWrite i) s u := by
  cases i with
  | sys | jp | seImm | sneImm | seReg | sneReg | jpV0 | skp | sknp | undef8 | undefE | undefF =>
    obtain rfl : u = s := h
    exact onlyChanges_refl _ u
  | cls => exact h ▸ State.onlyChanges_setFb fun _ _ => rfl
  | ret =>
    obtain ⟨_, w, rfl⟩ := h
    exact State.onlyChanges_popInto rfl trivial
  | call nnn =>
    obtain ⟨_, rfl⟩ := h
    exact State.onlyChanges_push rfl fun _ => ⟨nnn, rfl⟩
  | ldImm | addImm | ldReg | ldVxDt =>
    obtain ⟨b, rfl⟩ := h
    exact State.onlyChanges_setV (.inl (beq_self_eq_true _))
  | or | and | xor | addReg | subn =>
    obtain ⟨r, flag, rfl⟩ := h
    exact (State.onlyChanges_setV (.inl (beq_self_eq_true _))).trans (State.onlyChanges_setV (.inr ⟨rfl, rfl⟩))
  | sub | shr | shl =>
    obtain ⟨r, flag, rfl⟩ := h
    exact (State.onlyChanges_setV (.inr ⟨rfl, rfl⟩)).trans (State.onlyChanges_setV (.inl (beq_self_eq_true _)))
  | rnd x kk =>
    obtain ⟨b, rfl⟩ := h
    exact (State.onlyChanges_takeDraw ⟨x, kk, rfl⟩).trans (State.onlyChanges_setV (.inl (beq_self_eq_true x)))
  | drw =>
    obtain ⟨f, flag, rfl⟩ := h
    exact (State.onlyChanges_setFb fun _ _ => rfl).trans (State.onlyChanges_setV (.inr ⟨rfl, rfl⟩))
  | ldI | addIVx | ldFVx =>
    obtain ⟨w, rfl⟩ := h
    exact State.onlyChanges_setI rfl
  | ldBVx =>
    obtain ⟨bs, _, rfl⟩ := h
    exact State.onlyChanges_setMem fun _ => rfl
  | ldMemVx =>
    obtain ⟨bs, _, rfl⟩ := h
    exact (State.onlyChanges_setMem fun _ => rfl).trans (State.onlyChanges_setI rfl)
  | ldVxMem x =>
    obtain ⟨bs, hlen, rfl⟩ := h
    refine (State.onlyChanges_setVFrom fun j hj => .inl ?_).trans (State.onlyChanges_setI rfl)
    have := x.isLt
    simp only [writesV, decide_eq_true_eq, BitVec.toNat_ofNat]
    omega
  | ldVxK x => exact h ▸ State.onlyChanges_enterWait ⟨x, rfl⟩
  | ldDtVx x =>
    obtain ⟨b, rfl⟩ := h
    exact State.onlyChanges_setDT ⟨x, rfl⟩
  | ldStVx x =>
    obtain ⟨b, rfl⟩ := h
    exact State.onlyChanges_setST ⟨x, rfl⟩ trivial

/-- An instruction changes what it may write, and by a fault the record. -/
theorem exec_onlyChanges (h : exec i s = .next t) : OnlyChanges (fun p => p = .fault ∨ MayWrite i p) s t := by
  obtain ⟨cause, _, rfl⟩ | ⟨u, w, hu, rfl⟩ := retires_of_exec h
  · exact State.onlyChanges_raiseFault (.inl rfl) (.inr trivial)
  · exact ((completes_onlyChanges hu).mono fun _ => .inr).trans (State.onlyChanges_setPC (.inr trivial))

/-- Settles O54: every piece an instruction may write is one the statement names for it. -/
theorem onlyTheseInstructionsChangeThem : Obligations.OnlyTheseInstructionsChangeThem := by
  unfold Obligations.OnlyTheseInstructionsChangeThem
  intro i s t h
  refine (exec_onlyChanges h).mono ?_
  rintro p (rfl | hp)
  · exact .inr (.inl rfl)
  · cases p <;> simp_all [MayWrite]

/-- Settles O55: a register that is neither a destination nor the flag is none of the pieces the instruction may
write. -/
theorem onlyNamedRegistersAndFlagChange : Obligations.OnlyNamedRegistersAndFlagChange := by
  unfold Obligations.OnlyNamedRegistersAndFlagChange
  intro i s t k h hdest hflag
  refine exec_onlyChanges h (.v k) ?_
  rintro (hk | hk | ⟨hvf, hk⟩)
  · cases hk
  · rw [hdest] at hk; cases hk
  · rw [hflag hvf] at hk; cases hk

end Sys2Proof.Machine
end

section
/-! SUPPORT. The invariant between host calls, its part that every slot keeps, and the drains of a tick. -/

namespace Sys2Proof.Machine

variable {i : Instr} {s t u : State}

/-- The part of `State.Inv` that holds after every slot of a tick too, while the accumulators are being drained. -/
structure State.SlotInv (s : State) : Prop where
  spBound : s.sp.toNat ≤ 16
  faultCoherent : s.fault.Coherent s.pc s.sp
  memWf : Mem.Wf s.font s.mem

theorem State.Inv.slotInv (h : s.Inv) : s.SlotInv := ⟨h.spBound, h.faultCoherent, h.memWf⟩

/-- The slots' invariant reads five fields only. -/
theorem State.SlotInv.congr (h : s.SlotInv) (hsp : t.sp = s.sp) (hpc : t.pc = s.pc) (hfault : t.fault = s.fault)
    (hfont : t.font = s.font) (hmem : t.mem = s.mem) : t.SlotInv :=
  ⟨hsp ▸ h.spBound, by rw [hfault, hpc, hsp]; exact h.faultCoherent, by rw [hfont, hmem]; exact h.memWf⟩

/-- While the core runs, the record says nothing of PC and SP. -/
theorem FaultStatus.Coherent.of_running {f : FaultStatus} {pc pc' : Word} {sp sp' : BitVec 5} (h : f.Coherent pc sp)
    (hrun : f.halted = false) : f.Coherent pc' sp' :=
  ⟨h.1, fun hh => absurd (hrun.symm.trans hh) (by decide)⟩

/-! ### One instruction -/

/-- A completing instruction leaves SP at most 16: RET pops what is there, CALL pushes below 16 (10_state R25). -/
theorem completes_spBound (h : Completes s u i) (hs : s.sp.toNat ≤ 16) : u.sp.toNat ≤ 16 := by
  cases i with
  | ret =>
    obtain ⟨hne, w, rfl⟩ := h
    have hpos : s.sp.toNat ≠ 0 := fun e => hne (BitVec.eq_of_toNat_eq e)
    simp only [State.popInto_sp]
    bv_omega
  | call =>
    obtain ⟨hlt, rfl⟩ := h
    simp only [State.push_sp]
    bv_omega
  | _ =>
    have hsp : u.sp = s.sp := completes_onlyChanges h .sp Bool.false_ne_true
    rwa [hsp]

/-- A completing instruction leaves memory alone or writes bytes that all exist. -/
theorem completes_mem (h : Completes s u i) :
    u.mem = s.mem ∨
      ∃ bs, s.i.toNat + bs.length ≤ 4096 ∧ u.mem = Mem.writeMany s.font s.mem s.i.toNat bs := by
  cases i with
  | ldBVx | ldMemVx =>
    obtain ⟨bs, hbs, rfl⟩ := h
    exact .inr ⟨bs, hbs, rfl⟩
  | sys | jp | seImm | sneImm | seReg | sneReg | jpV0 | skp | sknp | undef8 | undefE | undefF | cls | ldVxK =>
    exact .inl (h ▸ rfl)
  | call | ldImm | addImm | ldReg | ldVxDt | ldI | addIVx | ldFVx | ldDtVx | ldStVx =>
    obtain ⟨_, rfl⟩ := h
    exact .inl rfl
  | ret | or | and | xor | addReg | subn | sub | shr | shl | drw =>
    obtain ⟨_, _, rfl⟩ := h
    exact .inl rfl
  | rnd =>
    obtain ⟨b, rfl⟩ := h
    obtain ⟨_, _, _, _, htake⟩ | ⟨_, _, htake⟩ := s.draw_cases
    all_goals exact .inl (by rw [htake]; rfl)
  | ldVxMem =>
    obtain ⟨bs, _, rfl⟩ := h
    exact .inl (by rw [State.setVFrom_eq]; rfl)

theorem completes_memWf (h : Completes s u i) (hs : Mem.Wf s.font s.mem) : Mem.Wf u.font u.mem := by
  have hfont : u.font = s.font := completes_onlyChanges h .font not_false
  rw [hfont]
  obtain hmem | ⟨bs, hbs, hmem⟩ := completes_mem h
  · rwa [hmem]
  · rw [hmem]
    exact Mem.wf_writeMany hs hbs

/-- Taking a fault with a cause keeps the slots' invariant; without a word the cause is the address (R212). -/
theorem State.SlotInv.raiseFault (h : s.SlotInv) {cause : Cause} {op : Option Word} (hc : cause ≠ .none)
    (hop : op = none → cause = .addressOutOfRange) : (s.raiseFault cause op).SlotInv := by
  refine ⟨h.spBound, ⟨nofun, fun _ => ⟨hc, rfl, rfl, fun hv => ?_⟩⟩, h.memWf⟩
  have hnone : op = none := by simpa using hv
  exact ⟨hop hnone, by rw [hnone]; rfl⟩

/-- Executing an instruction while the core runs keeps the slots' invariant. -/
theorem exec_keeps_slotInv (hs : s.SlotInv) (hrun : s.fault.halted = false) (h : exec i s = .next t) :
    t.SlotInv := by
  obtain ⟨cause, hc, rfl⟩ | ⟨u, w, hu, rfl⟩ := retires_of_exec h
  · exact hs.raiseFault hc nofun
  · have hfault : u.fault = s.fault := completes_onlyChanges hu .fault not_false
    have hcoherent : u.fault.Coherent w u.sp := by
      rw [hfault]
      exact hs.faultCoherent.of_running hrun
    have hmem : Mem.Wf u.font u.mem := completes_memWf hu hs.memWf
    have hsp : u.sp.toNat ≤ 16 := completes_spBound hu hs.spBound
    exact ⟨hsp, hcoherent, hmem⟩

/-! ### One slot -/

/-- A slot keeps the slots' invariant. -/
theorem slot_keeps_slotInv (hs : s.SlotInv) (h : slot s = .next t) : t.SlotInv := by
  obtain ⟨_, hslot⟩ | ⟨_, _, hslot⟩ | ⟨hrun, _, _, hslot⟩ | ⟨_, _, _, hslot⟩ := slot_cases s
  · injection hslot.symm.trans h with h
    exact h ▸ hs
  · injection hslot.symm.trans h with h
    subst h
    obtain ⟨_, hpoll⟩ | ⟨k, _, hpoll⟩ := s.poll_cases
    · exact hpoll.symm ▸ hs
    · exact hpoll.symm ▸ hs.congr rfl rfl rfl rfl rfl
  · exact exec_keeps_slotInv hs hrun (hslot.symm.trans h)
  · injection hslot.symm.trans h with h
    exact h ▸ hs.raiseFault (by decide) fun _ => rfl

/-- No slot touches an accumulator (10_state R30). -/
theorem slot_accumulators (h : slot s = .next t) : t.instAcc = s.instAcc ∧ t.decayAcc = s.decayAcc := by
  obtain ⟨_, hslot⟩ | ⟨_, _, hslot⟩ | ⟨_, _, _, hslot⟩ | ⟨_, _, _, hslot⟩ := slot_cases s
  · injection hslot.symm.trans h with h
    exact h ▸ ⟨rfl, rfl⟩
  · injection hslot.symm.trans h with h
    subst h
    obtain ⟨_, hpoll⟩ | ⟨k, _, hpoll⟩ := s.poll_cases
    all_goals rw [hpoll]; exact ⟨rfl, rfl⟩
  · have hframe := exec_onlyChanges (hslot.symm.trans h)
    exact ⟨hframe .instAcc (by simp [MayWrite]), hframe .decayAcc (by simp [MayWrite])⟩
  · injection hslot.symm.trans h with h
    exact h ▸ ⟨rfl, rfl⟩

/-! ### The drains of a tick -/

theorem drainSlots_slotInv {count : Nat} (h : drainSlots count s = .next t) : s.SlotInv → t.SlotInv :=
  drainSlots_induction (R := fun s t => s.SlotInv → t.SlotInv) (fun _ => id) (fun _ _ _ hst htu => htu ∘ hst)
    (fun _ hs => hs.congr rfl rfl rfl rfl rfl) (fun _ _ hslot hs => slot_keeps_slotInv hs hslot) h

theorem drainSlots_decayAcc {count : Nat} (h : drainSlots count s = .next t) : t.decayAcc = s.decayAcc :=
  drainSlots_induction (R := fun s t => t.decayAcc = s.decayAcc) (fun _ => rfl)
    (fun _ _ _ hst htu => htu.trans hst) (fun _ => rfl) (fun _ _ hslot => (slot_accumulators hslot).2) h

/-- A drain that no fault stopped has spent one period per slot (60_exceptions R218). -/
theorem drainSlots_instAcc {count : Nat} (h : drainSlots count s = .next t) (hrun : t.fault.halted = false) :
    t.instAcc = s.instAcc - 4 * count := by
  induction count generalizing s with
  | zero => injection h with h; rw [h]; rfl
  | succ count ih =>
    simp only [drainSlots] at h
    cases hslot : slot s.spendInstr with
    | next u =>
      have hspent : u.instAcc = s.instAcc - 4 := (slot_accumulators hslot).1
      rw [hslot] at h
      simp only at h
      split at h
      · next hhalt =>
        injection h with h
        rw [← h, hhalt] at hrun
        cases hrun
      · rw [ih h, hspent]; omega
    | fault f => rw [hslot] at h; cases h
    | refused r => rw [hslot] at h; cases h

/-- The decay drain has spent one period per event (60_exceptions R218). -/
theorem drainDecays_decayAcc (count : Nat) (s : State) :
    (drainDecays count s).decayAcc = s.decayAcc - 50 * count := by
  induction count generalizing s with
  | zero => rfl
  | succ count ih =>
    rw [drainDecays, ih, State.spendDecay_decayAcc]
    simp only [Config.decayPeriod]
    omega

theorem drainDecays_slotInv (count : Nat) (s : State) : s.SlotInv → (drainDecays count s).SlotInv :=
  drainDecays_induction (R := fun s t => s.SlotInv → t.SlotInv) (fun _ => id) (fun _ _ _ hst htu => htu ∘ hst)
    (fun _ hs => hs.congr rfl rfl rfl rfl rfl) count s

theorem drainDecays_instAcc (count : Nat) (s : State) : (drainDecays count s).instAcc = s.instAcc :=
  drainDecays_induction (R := fun s t => t.instAcc = s.instAcc) (fun _ => rfl)
    (fun _ _ _ hst htu => htu.trans hst) (fun _ => rfl) count s

/-! ### The host calls -/

/-- The invariant reads the slots' fields and the accumulators only. -/
theorem State.Inv.congr (h : s.Inv) (hslot : s.SlotInv → t.SlotInv) (hfault : t.fault = s.fault)
    (hinst : t.instAcc = s.instAcc) (hdecay : t.decayAcc = s.decayAcc) : t.Inv := by
  obtain ⟨hsp, hcoherent, hmem⟩ := hslot h.slotInv
  refine ⟨hsp, ?_, hdecay ▸ h.decayAccBound, hcoherent, hmem⟩
  rw [hfault, hinst]
  exact h.instAccBound

theorem State.Inv.takeCall (h : s.Inv) : s.takeCall.Inv :=
  h.congr (fun hs => hs.congr rfl rfl rfl rfl rfl) rfl rfl rfl

theorem State.Inv.beginCall (h : s.Inv) (sample : Input) : (s.beginCall sample).Inv :=
  h.congr (fun hs => hs.congr rfl rfl rfl rfl rfl) rfl rfl rfl

theorem State.Inv.decay (h : s.Inv) : s.decay.Inv :=
  h.congr (fun hs => hs.congr rfl rfl rfl rfl rfl) rfl rfl rfl

/-- The state after reset has the invariant, for every font (70_reset R250). -/
theorem State.resetWith_inv (f : Font) : (State.resetWith f).Inv where
  spBound := Nat.zero_le 16
  instAccBound := fun _ => Nat.zero_lt_succ 3
  decayAccBound := Nat.zero_lt_succ 49
  faultCoherent := ⟨fun _ => rfl, nofun⟩
  memWf := Mem.wf_nil

/-- The host call `reset` gives the state after reset, as far as the invariant reads it (70_reset R255). -/
theorem resetCall_inv (s : State) : (resetCall s).Inv :=
  (State.resetWith_inv s.font).congr (fun hs => hs.congr rfl rfl rfl rfl rfl) rfl rfl rfl

/-- An image loaded at 0x200 that fits keeps the invariant (20_memory R63). -/
theorem State.Inv.load (h : s.Inv) {rom : List Byte} (hlen : rom.length ≤ 3584) :
    (s.setMem (Mem.writeMany s.font s.mem 0x200 rom)).Inv :=
  have hmem := Mem.wf_writeMany (a := 0x200) h.memWf (by simp only [Config.memSize]; omega)
  h.congr (fun hs => ⟨hs.spBound, hs.faultCoherent, hmem⟩) rfl rfl rfl

theorem runSlots_slotInv {delta : Nat} (hs : s.SlotInv) (h : runSlots delta s = .next u) : u.SlotInv :=
  drainSlots_slotInv h (hs.congr rfl rfl rfl rfl rfl)

theorem runSlots_decayAcc {delta : Nat} (h : runSlots delta s = .next u) : u.decayAcc = s.decayAcc :=
  drainSlots_decayAcc (s := { s with instAcc := s.instAcc + delta }) h

/-- The instruction drain of a tick that no fault stopped leaves less than a period (10_state R30). -/
theorem runSlots_instAcc_lt {delta : Nat} (h : runSlots delta s = .next u) (hrun : u.fault.halted = false) :
    u.instAcc < 4 := by
  have hspent := drainSlots_instAcc h hrun
  simp only [Config.instrPeriod] at hspent
  omega

/-- The decay drain of a tick leaves less than a period (10_state R30). -/
theorem runDecays_decayAcc_lt (delta : Nat) (s : State) : (runDecays delta s).decayAcc < 50 := by
  rw [runDecays, drainDecays_decayAcc]
  simp only [Config.decayPeriod]
  omega

/-- A tick's decays give the invariant back, once its slots left less than a period. -/
theorem State.SlotInv.runDecays_inv (h : s.SlotInv) (hinst : s.instAcc < 4) (delta : Nat) :
    (runDecays delta s).Inv := by
  have hslot : (runDecays delta s).SlotInv := drainDecays_slotInv _ _ (h.congr rfl rfl rfl rfl rfl)
  have hkept : (runDecays delta s).instAcc = s.instAcc := drainDecays_instAcc _ _
  exact ⟨hslot.spBound, fun _ => hkept.trans_lt hinst, runDecays_decayAcc_lt delta s, hslot.faultCoherent,
    hslot.memWf⟩

/-- The end of a call: after a fault the instruction accumulator has no bound to meet. -/
theorem State.SlotInv.unlessHalted_inv (h : u.SlotInv) (hdecay : u.decayAcc < 50)
    (hrest : u.fault.halted = false → t.Inv) : (u.unlessHalted t).Inv := by
  unfold State.unlessHalted
  split
  · next hhalt =>
    exact ⟨h.spBound, fun hrun => absurd (hhalt.symm.trans hrun) nofun, hdecay, h.faultCoherent, h.memWf⟩
  · next hrun => exact hrest (Bool.eq_false_of_not_eq_true hrun)

/-- A tick keeps the invariant: its slots keep their part of it, and both drains leave less than a period. -/
theorem State.Inv.tick (h : s.Inv) {delta : Nat} (hrun : runSlots delta s = .next u) :
    (u.unlessHalted (runDecays delta u)).Inv := by
  have hdecay : u.decayAcc = s.decayAcc := runSlots_decayAcc hrun
  have hu : u.SlotInv := runSlots_slotInv h.slotInv hrun
  exact hu.unlessHalted_inv (hdecay.trans_lt h.decayAccBound) fun hgo =>
    hu.runDecays_inv (runSlots_instAcc_lt hrun hgo) delta

/-- One slot and one decay keep the invariant where the core runs: no accumulator moves (60_exceptions R219). -/
theorem State.Inv.slotThenDecay (h : s.Inv) (hs : s.fault.halted = false) (hslot : slot s = .next u) :
    (u.unlessHalted u.decay).Inv := by
  obtain ⟨hinst, hdecay⟩ := slot_accumulators hslot
  have hu : u.SlotInv := slot_keeps_slotInv h.slotInv hslot
  have hbound : u.decayAcc < 50 := hdecay.trans_lt h.decayAccBound
  refine hu.unlessHalted_inv hbound fun _ => State.Inv.decay ?_
  exact ⟨hu.spBound, fun _ => hinst.trans_lt (h.instAccBound hs), hbound, hu.faultCoherent, hu.memWf⟩

/-- Settles O51: each of the host calls `step_cases` names keeps the invariant. -/
theorem stepKeepsInvariant : Obligations.StepKeepsInvariant := by
  unfold Obligations.StepKeepsInvariant
  intro s t hs h
  obtain ⟨_, rfl⟩ | ⟨rom, _, _, hlen, rfl⟩ | ⟨_, _, rfl⟩ | ⟨delta, sample, u, _, _, hrun, rfl⟩ |
    ⟨sample, u, _, hgo, hslot, rfl⟩ := step_cases h
  · exact resetCall_inv s.takeCall
  · exact hs.takeCall.load hlen
  · exact hs.takeCall
  · exact (hs.takeCall.beginCall sample).tick hrun
  · exact (hs.takeCall.beginCall sample).slotThenDecay hgo hslot

end Sys2Proof.Machine
end

section
/-! SUPPORT. What a state reads after bytes were stored, and the slot and the host call `load` said by the bytes read. -/

namespace Sys2Proof.Machine

variable {c : Part → Prop} {s t : State} {a : Nat} {bs : List Byte} {after : Nat → Byte}

/-! ### Stored bytes -/

/-- The `j`-th byte stored is the one read at the `j`-th address (20_memory R52, R59). -/
theorem State.readByte_writeMany_inside (hm : Mem.Wf s.font s.mem) (hfit : a + bs.length ≤ 4096) {j : Nat}
    (hj : j < bs.length) : (s.setMem (Mem.writeMany s.font s.mem a bs)).readByte (a + j) = some bs[j] :=
  State.readByte_eq_some.mpr ⟨by omega, Mem.lookup_writeMany_inside hm hfit hj⟩

/-- Every byte outside the stored range reads as before. -/
theorem State.readByte_writeMany_outside {b : Nat} (hb : b < a ∨ a + bs.length ≤ b) :
    (s.setMem (Mem.writeMany s.font s.mem a bs)).readByte b = s.readByte b := by
  simp only [State.readByte, State.setMem_font, State.setMem_mem, Mem.lookup_writeMany_outside hb]

/-- A store of bytes from `a` on changes those bytes alone. -/
theorem State.onlyChanges_writeMany (hc : ∀ b, a ≤ b → b < a + bs.length → c (.byte b)) :
    OnlyChanges c s (s.setMem (Mem.writeMany s.font s.mem a bs)) := by
  intro p hp
  cases p with
  | byte b =>
    have hb : b < a ∨ a + bs.length ≤ b := by
      by_contra hin
      exact hp (hc b (by omega) (by omega))
    exact State.readByte_writeMany_outside hb
  | wait | draws => exact ⟨rfl, rfl⟩
  | _ => rfl

/-- Where `after` has the stored bytes in their range and the old ones outside it, it is what is read everywhere. -/
theorem State.readByte_writeMany_eq_after (hm : Mem.Wf s.font s.mem) (hfit : a + bs.length ≤ 4096)
    (hin : ∀ j (hj : j < bs.length), after (a + j) = bs[j])
    (hout : ∀ b < 4096, b < a ∨ a + bs.length ≤ b → s.readByte b = some (after b)) :
    ∀ b < 4096, (s.setMem (Mem.writeMany s.font s.mem a bs)).readByte b = some (after b) := by
  intro b hb
  by_cases hrange : a ≤ b ∧ b - a < bs.length
  · obtain ⟨j, rfl⟩ := Nat.exists_eq_add_of_le hrange.1
    have hj : j < bs.length := by omega
    rw [State.readByte_writeMany_inside hm hfit hj, hin j hj]
  · have hb' : b < a ∨ a + bs.length ≤ b := by omega
    rw [State.readByte_writeMany_outside hb', hout b hb hb']

/-! ### The fetch -/

/-- Where both bytes at PC can be read, the slot executes the word they make, high byte first (20_memory R53). -/
theorem slot_of_readByte {hi lo : Byte} (hrun : s.fault.halted = false) (hwait : s.waitValid = false)
    (hhi : s.readByte s.pc.toNat = some hi) (hlo : s.readByte (s.pc.toNat + 1) = some lo) :
    slot s = exec (decodeWord (hi ++ lo)) s := by
  obtain ⟨_, rfl⟩ := State.readByte_eq_some.mp hhi
  obtain ⟨hfit, rfl⟩ := State.readByte_eq_some.mp hlo
  obtain ⟨hhalt, _⟩ | ⟨_, hpend, _⟩ | ⟨_, _, _, hslot⟩ | ⟨_, _, hpast, _⟩ := slot_cases s
  · rw [hrun] at hhalt; cases hhalt
  · rw [hwait] at hpend; cases hpend
  · exact hslot
  · omega

/-- Where a byte of the word at PC does not exist, the slot takes the fetch fault (40_cycle R91). -/
theorem slot_past_end (hrun : s.fault.halted = false) (hwait : s.waitValid = false) (hpc : 0xFFF ≤ s.pc.toNat) :
    slot s = .next (s.raiseFault .addressOutOfRange none) := by
  obtain ⟨hhalt, _⟩ | ⟨_, hpend, _⟩ | ⟨_, _, hfit, _⟩ | ⟨_, _, _, hslot⟩ := slot_cases s
  · rw [hrun] at hhalt; cases hhalt
  · rw [hwait] at hpend; cases hpend
  · omega
  · exact hslot

/-- One instruction after `s`, with memory as `after` has it, the slot executes the word of `after` at PC + 2. -/
theorem slot_of_readByte_after (hrun : t.fault.halted = false) (hwait : t.waitValid = false) (hpc : t.pc = s.pc + 2)
    (hle : s.pc.toNat ≤ 0xFFC) (hread : ∀ b < 4096, t.readByte b = some (after b)) :
    slot t = exec (decodeWord (after (s.pc.toNat + 2) ++ after (s.pc.toNat + 3))) t := by
  have hnext : t.pc.toNat = s.pc.toNat + 2 := by rw [hpc]; bv_omega
  have hhi : t.readByte t.pc.toNat = some (after (s.pc.toNat + 2)) := by
    rw [hnext]; exact hread _ (by omega)
  have hlo : t.readByte (t.pc.toNat + 1) = some (after (s.pc.toNat + 3)) := by
    rw [hnext]; exact hread _ (by omega)
  exact slot_of_readByte hrun hwait hhi hlo

/-! ### The storing instructions -/

/-- A store whose bytes all exist is done (20_memory R52). -/
theorem State.storeBytes_of_fits (hfit : a + bs.length ≤ 4096) :
    s.storeBytes a bs = .ok (s.setMem (Mem.writeMany s.font s.mem a bs)) := by
  obtain ⟨_, hst⟩ | ⟨_, hpast, _⟩ := s.storeBytes_cases a bs
  · exact hst
  · omega

/-- Fx55 whose bytes all exist (43_index_memory R164). -/
theorem exec_ldMemVx_of_fits {x : Nibble} (hfit : s.i.toNat + x.toNat ≤ 0xFFF) :
    exec (.ldMemVx x) s =
      .next ((s.setMem (Mem.writeMany s.font s.mem s.i.toNat (s.vPrefix x))).bumpI x).advance := by
  have hst := State.storeBytes_of_fits (s := s) (a := s.i.toNat) (bs := s.vPrefix x) (by simp; omega)
  simp only [exec, execLdMemVx, hst, retire_sequential]

/-- Fx33 whose bytes all exist (43_index_memory R163). -/
theorem exec_ldBVx_of_fits {x : Nibble} (hfit : s.i.toNat + 2 ≤ 0xFFF) :
    exec (.ldBVx x) s =
      .next (s.setMem (Mem.writeMany s.font s.mem s.i.toNat (decimalDigits (s.getV x)))).advance := by
  have hst := State.storeBytes_of_fits (s := s) (a := s.i.toNat) (bs := decimalDigits (s.getV x))
    (by simp only [decimalDigits, List.length_cons, List.length_nil]; omega)
  simp only [exec, execLdBVx, hst, retire_sequential]

/-- Where `after` has V[k] at `a + k` for every k up to x, it has the bytes Fx55 stores, in their order. -/
theorem vPrefix_eq_after {x : Nibble} (hin : ∀ k : Nibble, k.toNat ≤ x.toNat → after (a + k.toNat) = s.getV k)
    (j : Nat) (hj : j < (s.vPrefix x).length) : after (a + j) = (s.vPrefix x)[j] := by
  have hle : j ≤ x.toNat := by
    rw [State.length_vPrefix] at hj
    omega
  obtain ⟨k, rfl⟩ : ∃ k : Nibble, k.toNat = j :=
    ⟨BitVec.ofNat 4 j, Nat.mod_eq_of_lt (Nat.lt_of_le_of_lt hle x.isLt)⟩
  rw [hin k hle, s.getElem_vPrefix x k hj]

/-- Where `after` has the hundreds, tens and ones at `a`, `a + 1` and `a + 2`, it has the bytes Fx33 stores. -/
theorem decimalDigits_eq_after {b : Byte} (hhundreds : after a = BitVec.ofNat 8 (b.toNat / 100))
    (htens : after (a + 1) = BitVec.ofNat 8 (b.toNat / 10 % 10))
    (hones : after (a + 2) = BitVec.ofNat 8 (b.toNat % 10)) :
    ∀ j (hj : j < (decimalDigits b).length), after (a + j) = (decimalDigits b)[j]
  | 0, _ => hhundreds
  | 1, _ => htens
  | 2, _ => hones

/-! ### The host call `load` -/

/-- Taking a call from the list changes the list and the call's own record alone. -/
theorem State.onlyChanges_takeCall (hcalls : c .calls) (haudio : c .audio) : OnlyChanges c s s.takeCall := by
  intro p hp
  cases p with
  | calls => exact absurd hcalls hp
  | audio => exact absurd haudio hp
  | wait | draws => exact ⟨rfl, rfl⟩
  | _ => rfl

/-- The step that takes a `load` is the load. -/
theorem step_of_nextCall_load {rom : List Byte} (h : s.nextCall = .load rom) : step s = loadCall rom s.takeCall := by
  simp only [step, hostStep, h, runCall]

/-- A load before the first `tick` or `step`, of an image that fits, writes it from 0x200 on (20_memory R63). -/
theorem loadCall_of_fits {rom : List Byte} (hstart : s.started = false) (hlen : rom.length ≤ 3584) :
    loadCall rom s = .next (s.setMem (Mem.writeMany s.font s.mem 0x200 rom)) := by
  simp [loadCall, hstart, Nat.not_lt.mpr hlen]

theorem loadCall_of_too_long {rom : List Byte} (hstart : s.started = false) (hlen : 3584 < rom.length) :
    loadCall rom s = .refused .romTooLong := by
  simp [loadCall, hstart, hlen]

theorem loadCall_of_started {rom : List Byte} (hstart : s.started = true) : loadCall rom s = .refused .lateLoad := by
  simp [loadCall, hstart]

end Sys2Proof.Machine
end

section
/-! SUPPORT. The statements about memory, the fetch and the load. -/

namespace Sys2Proof.Machine

/-- Settles O9: both instructions leave memory as `after` has it at every address, and PC at the next word, which the
slot fetches from there. -/
theorem storedWordIsFetchedNext : Obligations.StoredWordIsFetchedNext := by
  unfold Obligations.StoredWordIsFetchedNext
  constructor
  · intro x s after hm hrun hwait hpc hfit hin hout
    have hlen : (s.vPrefix x).length = x.toNat + 1 := s.length_vPrefix x
    have hread := State.readByte_writeMany_eq_after (a := s.i.toNat) hm (by omega) (vPrefix_eq_after hin)
      fun b hb hrange => hout b hb (by omega)
    exact ⟨_, exec_ldMemVx_of_fits hfit, slot_of_readByte_after hrun hwait rfl hpc hread⟩
  · intro x s after hm hrun hwait hpc hfit hhundreds htens hones hout
    have hlen : (decimalDigits (s.getV x)).length = 3 := rfl
    have hread := State.readByte_writeMany_eq_after (a := s.i.toNat) hm (by omega)
      (decimalDigits_eq_after hhundreds htens hones) fun b hb hrange => hout b hb (by omega)
    exact ⟨_, exec_ldBVx_of_fits hfit, slot_of_readByte_after hrun hwait rfl hpc hread⟩

/-- Settles O6: the slot's case of a word whose bytes exist. -/
theorem fetchIsBigEndian : Obligations.FetchIsBigEndian := by
  unfold Obligations.FetchIsBigEndian
  intro s hi lo hrun hwait hhi hlo
  exact slot_of_readByte hrun hwait hhi hlo

/-- Settles O7: the slot's case of a word past the end, and what taking a fault does. -/
theorem fetchFaultsPastEnd : Obligations.FetchFaultsPastEnd := by
  unfold Obligations.FetchFaultsPastEnd
  intro s hrun hwait hpc
  exact ⟨_, slot_past_end hrun hwait hpc, faultTaken_raiseFault s .addressOutOfRange none⟩

/-- Settles O49: the load stores the image's bytes and nothing else, or is refused by one of its two checks. -/
theorem loadWritesImageOrIsRefused : Obligations.LoadWritesImageOrIsRefused := by
  unfold Obligations.LoadWritesImageOrIsRefused
  refine ⟨fun s rom hm hcall hstart hlen => ?_, fun s rom hcall hstart hlen => ?_, fun s rom hcall hstart => ?_⟩
  · have hstep := (step_of_nextCall_load hcall).trans (loadCall_of_fits (s := s.takeCall) hstart hlen)
    refine ⟨_, hstep, fun j hj => ?_, ?_⟩
    · rw [List.getElem?_eq_getElem hj]
      exact State.readByte_writeMany_inside (s := s.takeCall) hm (by omega) hj
    · exact (State.onlyChanges_takeCall (.inl rfl) (.inr (.inl rfl))).trans
        (State.onlyChanges_writeMany fun b hlo hhi => .inr (.inr ⟨b, rfl, hlo, hhi⟩))
  · exact (step_of_nextCall_load hcall).trans (loadCall_of_too_long (s := s.takeCall) hstart hlen)
  · exact (step_of_nextCall_load hcall).trans (loadCall_of_started (s := s.takeCall) hstart)

end Sys2Proof.Machine
end

section
/-! SUPPORT. A word is rebuilt from its fields; decode after encode, and encode after decode. -/

namespace Sys2Proof

variable {w : Word} {op : Nibble}

/-! ### Rebuilding a word from its fields (30_encoding R73) -/

theorem wordXyn_fields (w : Word) : wordXyn (opField w) (xField w) (yField w) (nField w) = w := by
  apply BitVec.eq_of_toNat_eq
  rw [wordXyn_toNat, opField_toNat, xField_toNat, yField_toNat, nField_toNat]
  omega

theorem wordXkk_fields (w : Word) : wordXkk (opField w) (xField w) (kkField w) = w := by
  apply BitVec.eq_of_toNat_eq
  rw [wordXkk_toNat, opField_toNat, xField_toNat, kkField_toNat]
  omega

theorem wordNnn_fields (w : Word) : wordNnn (opField w) (nnnField w) = w := by
  apply BitVec.eq_of_toNat_eq
  rw [wordNnn_toNat, opField_toNat, nnnField_toNat]
  omega

theorem hiByte_append_loByte (w : Word) : hiByte w ++ loByte w = w := by
  apply BitVec.eq_of_toNat_eq
  simp only [toNat_append_add, hiByte, loByte, BitVec.extractLsb'_toNat, Nat.shiftRight_eq_div_pow]
  omega

/-- The nibble of the primary dispatch, as the arm that its value selects has it (R74). -/
theorem opField_of_toNat (h : (opField w).toNat = op.toNat) : opField w = op := BitVec.eq_of_toNat_eq h

theorem wordXyn_of_op (h : (opField w).toNat = op.toNat) : wordXyn op (xField w) (yField w) (nField w) = w :=
  opField_of_toNat h ▸ wordXyn_fields w

theorem wordXkk_of_op (h : (opField w).toNat = op.toNat) : wordXkk op (xField w) (kkField w) = w :=
  opField_of_toNat h ▸ wordXkk_fields w

theorem wordNnn_of_op (h : (opField w).toNat = op.toNat) : wordNnn op (nnnField w) = w :=
  opField_of_toNat h ▸ wordNnn_fields w

/-! ### Decode after encode -/

/-- The decoder reads the word that the first two bytes make, and hands back the others (R70; 20_memory R53). -/
theorem decode_wordBytes (w : Word) (rest : List Byte) : decode (wordBytes w ++ rest) = .ok (decodeWord w, rest) := by
  simp only [wordBytes, decode, List.cons_append, List.nil_append, hiByte_append_loByte]

/-- The round trip of every constructor. -/
theorem decodeWord_encode {i : Instr} (h : i.WellFormed) : decodeWord (encode i) = i := by
  cases i with
  | cls => exact Laws.RoundTrip.cls h
  | ret => exact Laws.RoundTrip.ret h
  | sys nnn => exact Laws.RoundTrip.sys nnn h
  | jp nnn => exact Laws.RoundTrip.jp nnn h
  | call nnn => exact Laws.RoundTrip.call nnn h
  | seImm x kk => exact Laws.RoundTrip.seImm x kk h
  | sneImm x kk => exact Laws.RoundTrip.sneImm x kk h
  | seReg x y n => exact Laws.RoundTrip.seReg x y n h
  | ldImm x kk => exact Laws.RoundTrip.ldImm x kk h
  | addImm x kk => exact Laws.RoundTrip.addImm x kk h
  | ldReg x y => exact Laws.RoundTrip.ldReg x y h
  | or x y => exact Laws.RoundTrip.or x y h
  | and x y => exact Laws.RoundTrip.and x y h
  | xor x y => exact Laws.RoundTrip.xor x y h
  | addReg x y => exact Laws.RoundTrip.addReg x y h
  | sub x y => exact Laws.RoundTrip.sub x y h
  | shr x y => exact Laws.RoundTrip.shr x y h
  | subn x y => exact Laws.RoundTrip.subn x y h
  | shl x y => exact Laws.RoundTrip.shl x y h
  | undef8 x y n => exact Laws.RoundTrip.undef8 x y n h
  | sneReg x y n => exact Laws.RoundTrip.sneReg x y n h
  | ldI nnn => exact Laws.RoundTrip.ldI nnn h
  | jpV0 nnn => exact Laws.RoundTrip.jpV0 nnn h
  | rnd x kk => exact Laws.RoundTrip.rnd x kk h
  | drw x y n => exact Laws.RoundTrip.drw x y n h
  | skp x => exact Laws.RoundTrip.skp x h
  | sknp x => exact Laws.RoundTrip.sknp x h
  | undefE x kk => exact Laws.RoundTrip.undefE x kk h
  | ldVxDt x => exact Laws.RoundTrip.ldVxDt x h
  | ldVxK x => exact Laws.RoundTrip.ldVxK x h
  | ldDtVx x => exact Laws.RoundTrip.ldDtVx x h
  | ldStVx x => exact Laws.RoundTrip.ldStVx x h
  | addIVx x => exact Laws.RoundTrip.addIVx x h
  | ldFVx x => exact Laws.RoundTrip.ldFVx x h
  | ldBVx x => exact Laws.RoundTrip.ldBVx x h
  | ldMemVx x => exact Laws.RoundTrip.ldMemVx x h
  | ldVxMem x => exact Laws.RoundTrip.ldVxMem x h
  | undefF x kk => exact Laws.RoundTrip.undefF x kk h

/-! ### Encode after decode, family by family (R75 to R78) -/

theorem decodeFamily0_roundTrip (hop : opField w = 0x0) :
    (decodeFamily0 w).WellFormed ∧ encode (decodeFamily0 w) = w := by
  have hw : wordNnn 0x0 (nnnField w) = w := hop ▸ wordNnn_fields w
  unfold decodeFamily0
  split_ifs with hcls hret
  · exact ⟨rfl, hcls.symm⟩
  · exact ⟨rfl, hret.symm⟩
  · have h0E0 : nnnField w ≠ 0x0E0 := fun h => hcls (by rw [← hw, h]; rfl)
    have h0EE : nnnField w ≠ 0x0EE := fun h => hret (by rw [← hw, h]; rfl)
    exact ⟨by simp_all [Instr.WellFormed, Instr.wellFormed], hw⟩

theorem decodeFamily8_roundTrip (x y n : Nibble) :
    (decodeFamily8 x y n).WellFormed ∧ encode (decodeFamily8 x y n) = wordXyn 0x8 x y n := by
  unfold decodeFamily8
  split_ifs
  case neg =>
    refine ⟨?_, rfl⟩
    simp only [Instr.WellFormed, Instr.wellFormed, family8Defined, Bool.not_eq_true', Bool.or_eq_false_iff,
      decide_eq_false_iff_not, beq_eq_false_iff_ne]
    constructor <;> bv_omega
  all_goals
    subst n
    exact ⟨rfl, rfl⟩

theorem decodeFamilyE_roundTrip (x : Nibble) (kk : Byte) :
    (decodeFamilyE x kk).WellFormed ∧ encode (decodeFamilyE x kk) = wordXkk 0xE x kk := by
  unfold decodeFamilyE
  split_ifs
  case neg => exact ⟨by simp_all [Instr.WellFormed, Instr.wellFormed, familyEDefined], rfl⟩
  all_goals
    subst kk
    exact ⟨rfl, rfl⟩

theorem decodeFamilyF_roundTrip (x : Nibble) (kk : Byte) :
    (decodeFamilyF x kk).WellFormed ∧ encode (decodeFamilyF x kk) = wordXkk 0xF x kk := by
  unfold decodeFamilyF
  split_ifs
  case neg => exact ⟨by simp_all [Instr.WellFormed, Instr.wellFormed, familyFDefined], rfl⟩
  all_goals
    subst kk
    exact ⟨rfl, rfl⟩

/-- Every word is the encoding of the well-formed instruction it decodes to: the arms of the primary dispatch, in the
order of `op` (R74). -/
theorem decodeWord_roundTrip (w : Word) : (decodeWord w).WellFormed ∧ encode (decodeWord w) = w := by
  unfold decodeWord
  split
  next hop => exact decodeFamily0_roundTrip (opField_of_toNat hop)
  next hop => exact ⟨rfl, wordNnn_of_op hop⟩
  next hop => exact ⟨rfl, wordNnn_of_op hop⟩
  next hop => exact ⟨rfl, wordXkk_of_op hop⟩
  next hop => exact ⟨rfl, wordXkk_of_op hop⟩
  next hop => exact ⟨rfl, wordXyn_of_op hop⟩
  next hop => exact ⟨rfl, wordXkk_of_op hop⟩
  next hop => exact ⟨rfl, wordXkk_of_op hop⟩
  next hop => exact (decodeFamily8_roundTrip _ _ _).imp_right (·.trans (wordXyn_of_op hop))
  next hop => exact ⟨rfl, wordXyn_of_op hop⟩
  next hop => exact ⟨rfl, wordNnn_of_op hop⟩
  next hop => exact ⟨rfl, wordNnn_of_op hop⟩
  next hop => exact ⟨rfl, wordXkk_of_op hop⟩
  next hop => exact ⟨rfl, wordXyn_of_op hop⟩
  next hop => exact (decodeFamilyE_roundTrip _ _).imp_right (·.trans (wordXkk_of_op hop))
  next =>
    have hlt : (opField w).toNat < 16 := (opField w).isLt
    have hop : (opField w).toNat = 0xF := by grind
    exact (decodeFamilyF_roundTrip _ _).imp_right (·.trans (wordXkk_of_op hop))

@[simp] theorem encode_decodeWord (w : Word) : encode (decodeWord w) = w := (decodeWord_roundTrip w).2

end Sys2Proof
end

section
/-! SUPPORT. The rows of the opcode map (30_encoding R80): what each compares, whose words it matches, and which one is
selected. -/

namespace Sys2Proof

open Machine (Selects)

variable {w : Word} {op n : Nibble} {kk : Byte}

/-! ### What a row compares -/

theorem and_F000 (w : Word) : w &&& 0xF000 = wordNnn (opField w) 0#12 :=
  calc w &&& 0xF000
      = wordNnn (opField w) (nnnField w) &&& wordNnn (.allOnes 4) 0#12 := by rw [wordNnn_fields]; rfl
    _ = wordNnn (opField w &&& .allOnes 4) (nnnField w &&& 0#12) := BitVec.and_append
    _ = wordNnn (opField w) 0#12 := by rw [BitVec.and_allOnes, BitVec.and_zero]

theorem and_F00F (w : Word) : w &&& 0xF00F = wordXyn (opField w) 0#4 0#4 (nField w) :=
  calc w &&& 0xF00F
      = wordXyn (opField w) (xField w) (yField w) (nField w) &&& wordXyn (.allOnes 4) 0#4 0#4 (.allOnes 4) := by
        rw [wordXyn_fields]; rfl
    _ = wordXyn (opField w &&& .allOnes 4) (xField w &&& 0#4) (yField w &&& 0#4) (nField w &&& .allOnes 4) := by
        unfold wordXyn; rw [BitVec.and_append, BitVec.and_append, BitVec.and_append]
    _ = wordXyn (opField w) 0#4 0#4 (nField w) := by simp only [BitVec.and_allOnes, BitVec.and_zero]

theorem and_F0FF (w : Word) : w &&& 0xF0FF = wordXkk (opField w) 0#4 (kkField w) :=
  calc w &&& 0xF0FF
      = wordXkk (opField w) (xField w) (kkField w) &&& wordXkk (.allOnes 4) 0#4 (.allOnes 8) := by
        rw [wordXkk_fields]; rfl
    _ = wordXkk (opField w &&& .allOnes 4) (xField w &&& 0#4) (kkField w &&& .allOnes 8) := by
        unfold wordXkk; rw [BitVec.and_append, BitVec.and_append]
    _ = wordXkk (opField w) 0#4 (kkField w) := by simp only [BitVec.and_allOnes, BitVec.and_zero]

theorem rowMatches_iff {r : OpcodeRow} : rowMatches r w = true ↔ Selects r.value r.mask w := beq_iff_eq

/-- A family's row compares `op`. -/
theorem selects_op : Selects (wordNnn op 0#12) 0xF000 w ↔ opField w = op := by
  rw [Selects, and_F000]
  exact ⟨fun h => by simpa using congrArg opField h, fun h => by rw [h]⟩

/-- A row of family 8 compares `op` and `n`. -/
theorem selects_op_n : Selects (wordXyn op 0#4 0#4 n) 0xF00F w ↔ opField w = op ∧ nField w = n := by
  rw [Selects, and_F00F]
  refine ⟨fun h => ⟨?_, ?_⟩, fun ⟨hop, hn⟩ => by rw [hop, hn]⟩
  · simpa using congrArg opField h
  · simpa using congrArg nField h

/-- A row of family E or F compares `op` and `kk`. -/
theorem selects_op_kk : Selects (wordXkk op 0#4 kk) 0xF0FF w ↔ opField w = op ∧ kkField w = kk := by
  rw [Selects, and_F0FF]
  refine ⟨fun h => ⟨?_, ?_⟩, fun ⟨hop, hkk⟩ => by rw [hop, hkk]⟩
  · simpa using congrArg opField h
  · simpa using congrArg kkField h

theorem wordXyn_of_selects (h : Selects (wordXyn op 0#4 0#4 n) 0xF00F w) : wordXyn op (xField w) (yField w) n = w := by
  obtain ⟨rfl, rfl⟩ := selects_op_n.mp h
  exact wordXyn_fields w

theorem wordXkk_of_selects (h : Selects (wordXkk op 0#4 kk) 0xF0FF w) : wordXkk op (xField w) kk = w := by
  obtain ⟨rfl, rfl⟩ := selects_op_kk.mp h
  exact wordXkk_fields w

/-! ### The row selected (R80) -/

/-- An instruction's row matches its word. -/
theorem row_selects_encode (i : Instr) :
    ∃ r, opcodeRows[rowIndex i]? = some r ∧ Selects r.value r.mask (encode i) := by
  cases i with
  | cls | ret => exact ⟨_, rfl, rfl⟩
  | sys | jp | call | ldI | jpV0 => exact ⟨_, rfl, selects_op.mpr (opField_wordNnn _ _)⟩
  | seImm | sneImm | ldImm | addImm | rnd | undefE | undefF =>
    exact ⟨_, rfl, selects_op.mpr (opField_wordXkk _ _ _)⟩
  | seReg | sneReg | drw | undef8 => exact ⟨_, rfl, selects_op.mpr (opField_wordXyn _ _ _ _)⟩
  | ldReg | or | and | xor | addReg | sub | shr | subn | shl =>
    exact ⟨_, rfl, selects_op_n.mpr ⟨opField_wordXyn _ _ _ _, nField_wordXyn _ _ _ _⟩⟩
  | skp | sknp | ldVxDt | ldVxK | ldDtVx | ldStVx | addIVx | ldFVx | ldBVx | ldMemVx | ldVxMem =>
    exact ⟨_, rfl, selects_op_kk.mpr ⟨opField_wordXkk _ _ _, kkField_wordXkk _ _ _⟩⟩

/-- A row narrower than its family's matches the words of its own instruction only. -/
theorem exists_instr_of_narrow_row : ∀ (k : Nat) (q : OpcodeRow), opcodeRows[k]? = some q → q.mask ≠ 0xF000 →
    Selects q.value q.mask w → ∃ i : Instr, i.WellFormed ∧ encode i = w ∧ rowIndex i = k
  | 0, _, rfl, _, h => ⟨.cls, rfl, (selects_all.mp h).symm, rfl⟩
  | 1, _, rfl, _, h => ⟨.ret, rfl, (selects_all.mp h).symm, rfl⟩
  | 10, _, rfl, _, h => ⟨.ldReg _ _, rfl, wordXyn_of_selects h, rfl⟩
  | 11, _, rfl, _, h => ⟨.or _ _, rfl, wordXyn_of_selects h, rfl⟩
  | 12, _, rfl, _, h => ⟨.and _ _, rfl, wordXyn_of_selects h, rfl⟩
  | 13, _, rfl, _, h => ⟨.xor _ _, rfl, wordXyn_of_selects h, rfl⟩
  | 14, _, rfl, _, h => ⟨.addReg _ _, rfl, wordXyn_of_selects h, rfl⟩
  | 15, _, rfl, _, h => ⟨.sub _ _, rfl, wordXyn_of_selects h, rfl⟩
  | 16, _, rfl, _, h => ⟨.shr _ _, rfl, wordXyn_of_selects h, rfl⟩
  | 17, _, rfl, _, h => ⟨.subn _ _, rfl, wordXyn_of_selects h, rfl⟩
  | 18, _, rfl, _, h => ⟨.shl _ _, rfl, wordXyn_of_selects h, rfl⟩
  | 25, _, rfl, _, h => ⟨.skp _, rfl, wordXkk_of_selects h, rfl⟩
  | 26, _, rfl, _, h => ⟨.sknp _, rfl, wordXkk_of_selects h, rfl⟩
  | 28, _, rfl, _, h => ⟨.ldVxDt _, rfl, wordXkk_of_selects h, rfl⟩
  | 29, _, rfl, _, h => ⟨.ldVxK _, rfl, wordXkk_of_selects h, rfl⟩
  | 30, _, rfl, _, h => ⟨.ldDtVx _, rfl, wordXkk_of_selects h, rfl⟩
  | 31, _, rfl, _, h => ⟨.ldStVx _, rfl, wordXkk_of_selects h, rfl⟩
  | 32, _, rfl, _, h => ⟨.addIVx _, rfl, wordXkk_of_selects h, rfl⟩
  | 33, _, rfl, _, h => ⟨.ldFVx _, rfl, wordXkk_of_selects h, rfl⟩
  | 34, _, rfl, _, h => ⟨.ldBVx _, rfl, wordXkk_of_selects h, rfl⟩
  | 35, _, rfl, _, h => ⟨.ldMemVx _, rfl, wordXkk_of_selects h, rfl⟩
  | 36, _, rfl, _, h => ⟨.ldVxMem _, rfl, wordXkk_of_selects h, rfl⟩
  | 2, _, rfl, h, _ | 3, _, rfl, h, _ | 4, _, rfl, h, _ | 5, _, rfl, h, _ | 6, _, rfl, h, _ | 7, _, rfl, h, _
  | 8, _, rfl, h, _ | 9, _, rfl, h, _ | 19, _, rfl, h, _ | 20, _, rfl, h, _ | 21, _, rfl, h, _ | 22, _, rfl, h, _
  | 23, _, rfl, h, _ | 24, _, rfl, h, _ | 27, _, rfl, h, _ | 37, _, rfl, h, _ => absurd rfl h

theorem nodup_opcodeRows : opcodeRows.Nodup := by decide

/-- A family's mask has four 1 bits; every other mask of the map has more. -/
theorem four_lt_maskWeight : ∀ r ∈ opcodeRows, r.mask ≠ 0xF000 → 4 < maskWeight r.mask := by decide

/-- The rows with one mask have different values, so a word matches one of them at most. -/
theorem row_unique_of_mask {j k : Nat} {q r : OpcodeRow} (hr : opcodeRows[j]? = some r) (hq : opcodeRows[k]? = some q)
    (hmask : q.mask = r.mask) (hselr : Selects r.value r.mask w) (hselq : Selects q.value q.mask w) : k = j := by
  have hvalue : q.value = r.value := by rw [← hselq, ← hselr, hmask]
  obtain rfl : q = r := by cases q; cases r; exact congrArg₂ _ hvalue hmask
  have hk : k < opcodeRows.length := (List.getElem?_eq_some_iff.mp hq).1
  exact (List.getElem?_inj hk nodup_opcodeRows).mp (hq.trans hr.symm)

/-- A matching row that is not the decoded instruction's is its family's row, and the instruction's own is narrower:
a second narrow row would be the row of what the word decodes to. -/
theorem maskWeight_lt_of_selects {k : Nat} {q r : OpcodeRow} (hr : opcodeRows[rowIndex (decodeWord w)]? = some r)
    (hselr : Selects r.value r.mask w) (hq : opcodeRows[k]? = some q) (hselq : Selects q.value q.mask w)
    (hk : k ≠ rowIndex (decodeWord w)) : maskWeight q.mask < maskWeight r.mask := by
  have hfamily : q.mask = 0xF000 := by
    by_contra hnarrow
    obtain ⟨i, hwf, rfl, rfl⟩ := exists_instr_of_narrow_row k q hq hnarrow hselq
    exact hk (by rw [decodeWord_encode hwf])
  have hnarrow : r.mask ≠ 0xF000 := fun h => hk (row_unique_of_mask hr hq (hfamily.trans h.symm) hselr hselq)
  rw [hfamily]
  exact four_lt_maskWeight r (List.mem_of_getElem? hr) hnarrow

end Sys2Proof
end

section
/-! SUPPORT. The statements about the encoding. -/

namespace Sys2Proof

/-- Settles O1: the decoder reads back the encoded word, which decodes to the instruction. -/
theorem decodeOfEncode : Obligations.DecodeOfEncode := by
  unfold Obligations.DecodeOfEncode
  intro i rest h
  rw [encodeBytes, decode_wordBytes, decodeWord_encode h]

/-- Settles O3: both halves hold in every arm of the primary dispatch. -/
theorem encodeOfDecode : Obligations.EncodeOfDecode := by
  unfold Obligations.EncodeOfDecode
  exact decodeWord_roundTrip

/-- Settles O4: the decoded instruction's row matches its word, and any other matching row is a family's. -/
theorem wordSelectsMostSpecificRow : Obligations.WordSelectsMostSpecificRow := by
  unfold Obligations.WordSelectsMostSpecificRow
  intro w
  obtain ⟨r, hr, hsel⟩ := row_selects_encode (decodeWord w)
  rw [encode_decodeWord] at hsel
  refine ⟨r, hr, rowMatches_iff.mpr hsel, fun k q hq hmatch => ?_⟩
  by_cases hk : k = rowIndex (decodeWord w)
  · exact .inl hk
  · exact .inr (maskWeight_lt_of_selects hr hsel hq (rowMatches_iff.mp hmatch) hk)

/-- Settles O2: the word is rebuilt from its fields, and its value is their sum. -/
theorem nibblesRebuildWord : Obligations.NibblesRebuildWord := by
  unfold Obligations.NibblesRebuildWord
  intro w
  refine ⟨wordXyn_fields w, ?_, ?_, ?_⟩
  · rw [← wordXyn_toNat, wordXyn_fields]
  · rw [nnnField_toNat, xField_toNat, yField_toNat, nField_toNat]
    omega
  · rw [kkField_toNat, yField_toNat, nField_toNat]
    omega

end Sys2Proof
end

section
/-! SUPPORT. Where PC may stand after an instruction, and the bound on PC that every host call keeps (40_cycle R94,
R95). -/

namespace Sys2Proof.Machine

/-- Where PC may stand after an instruction that began in `s`: where it was, by a fault; the next word, or the one after
it by a skip; a jump's target; the word after a popped stack entry (40_cycle R94; 41_control_flow R112). -/
inductive PcAfter (s : State) : Word → Prop
  | faulted : PcAfter s s.pc
  | next : PcAfter s (s.pc + 2)
  | skipped : PcAfter s (s.pc + 2 + 2)
  | jumped (nnn : Addr) : PcAfter s (addrWord nnn)
  | jumpedV0 (nnn : Addr) (b : Byte) : PcAfter s (addrWord nnn + byteWord b)
  | returned {j : Nat} {a : Word} : s.stack[j]? = some a → PcAfter s (a + 2)

variable {i : Instr} {s t u : State}

/-! ### One instruction -/

theorem pcAfter_of_advance (h : (.next u.advance : Outcome) = .next t) (hu : u.pc = s.pc) : PcAfter s t.pc := by
  injection h with h
  rw [← h, State.advance_pc, hu]
  exact .next

theorem pcAfter_of_skip {b : Bool} (h : (.next (if b then s.advance else s).advance : Outcome) = .next t) :
    PcAfter s t.pc := by
  injection h with h
  subst h
  cases b
  · exact .next
  · exact .skipped

theorem pcAfter_of_error {cause : Cause} (h : retire i s (.error cause) = .next t) : PcAfter s t.pc := by
  injection h with h
  exact h ▸ .faulted

/-- Taking a draw leaves PC alone. -/
theorem State.takeDraw_pc (s : State) : s.takeDraw.pc = s.pc := by
  obtain ⟨_, _, _, _, htake⟩ | ⟨_, _, htake⟩ := s.draw_cases
  all_goals rw [htake]

/-- A store that is done leaves PC alone. -/
theorem State.pc_of_storeBytes {a : Nat} {bs : List Byte} (h : s.storeBytes a bs = .ok u) : u.pc = s.pc := by
  obtain ⟨_, hst⟩ | ⟨_, _, hst⟩ := s.storeBytes_cases a bs
  · injection hst.symm.trans h with hu
    exact hu ▸ rfl
  · cases hst.symm.trans h

/-- Every instruction that answers a next state leaves PC at one of the six places. -/
theorem pcAfter_of_exec (h : exec i s = .next t) : PcAfter s t.pc := by
  cases i with
  | sys | undef8 | undefE | undefF | cls | ldVxK | ldImm | addImm | ldReg | ldVxDt | ldI | addIVx | ldFVx | ldDtVx
  | ldStVx | or | and | xor | addReg | subn | sub | shr | shl => exact pcAfter_of_advance h rfl
  | seImm | sneImm | seReg | sneReg => exact pcAfter_of_skip h
  | jp nnn =>
    injection h with h
    exact h ▸ .jumped nnn
  | jpV0 nnn =>
    injection h with h
    exact h ▸ .jumpedV0 nnn (s.getV 0)
  | ret =>
    simp only [exec, execRet] at h
    split at h
    · exact pcAfter_of_error h
    · split at h
      · next htarget =>
        injection h with h
        exact h ▸ .returned htarget
      · cases h
  | call nnn =>
    simp only [exec, execCall] at h
    split at h
    · exact pcAfter_of_error h
    · split at h
      · injection h with h
        exact h ▸ .jumped nnn
      · cases h
  | rnd =>
    simp only [exec, execRnd] at h
    split at h
    · exact pcAfter_of_error h
    · exact pcAfter_of_advance h s.takeDraw_pc
  | drw =>
    simp only [exec, execDrw] at h
    split at h
    · exact pcAfter_of_advance h rfl
    · exact pcAfter_of_error h
  | ldVxMem =>
    simp only [exec, execLdVxMem] at h
    split at h
    · exact pcAfter_of_advance h (by rw [State.setVFrom_eq]; rfl)
    · exact pcAfter_of_error h
  | skp | sknp =>
    simp only [exec, execSkp, execSknp] at h
    split at h
    · exact pcAfter_of_skip h
    · exact pcAfter_of_error h
  | ldBVx | ldMemVx =>
    simp only [exec, execLdBVx, execLdMemVx] at h
    split at h
    · next hst =>
      have hu := State.pc_of_storeBytes hst
      exact pcAfter_of_advance h hu
    · exact pcAfter_of_error h

/-- An instruction that was fetched leaves PC at most 0x10FE, the greatest sum of a Bnnn (40_cycle R95). -/
theorem PcAfter.toNat_le {w : Word} (h : PcAfter s w) (hpc : s.pc.toNat ≤ 0xFFE)
    (hentry : ∀ (j : Nat) (a : Word), s.stack[j]? = some a → a.toNat ≤ 0xFFE) : w.toNat ≤ 0x10FE := by
  cases h with
  | faulted => omega
  | next | skipped => bv_omega
  | jumped nnn => simp only [addrWord]; bv_omega
  | jumpedV0 nnn b => simp only [addrWord, byteWord]; bv_omega
  | returned htarget =>
    have := hentry _ _ htarget
    bv_omega

/-- After an instruction every stack entry is one of before, or the instruction's own address (41_control_flow R114). -/
theorem stackEntry_of_exec (h : exec i s = .next t) {j : Nat} {a : Word} (ha : t.stack[j]? = some a) :
    s.stack[j]? = some a ∨ a = s.pc := by
  by_cases hi : ∃ nnn, i = .call nnn
  · obtain ⟨nnn, rfl⟩ := hi
    obtain ⟨_, _, rfl⟩ | ⟨u, w, ⟨hsp, rfl⟩, rfl⟩ := retires_of_exec h
    · exact .inl ha
    · rw [State.setPC_stack, State.push_stack, Vector.getElem?_set] at ha
      split at ha
      · exact .inr (Option.some.inj ha).symm
      · exact .inl ha
  · have hsame : t.stack[j]? = s.stack[j]? := exec_onlyChanges h (.stackEntry j) (by simpa [MayWrite] using hi)
    exact .inl (hsame ▸ ha)

/-! ### One slot -/

/-- The bound reads PC and the stack only. -/
theorem State.PcBounded.congr (h : s.PcBounded) (hpc : t.pc = s.pc) (hstack : t.stack = s.stack) : t.PcBounded :=
  ⟨hpc ▸ h.pcBound, hstack ▸ h.entryBound⟩

/-- Executing an instruction whose word was fetched keeps the bound. -/
theorem exec_keeps_pcBounded (hs : s.PcBounded) (hpc : s.pc.toNat ≤ 0xFFE) (h : exec i s = .next t) :
    t.PcBounded := by
  refine ⟨(pcAfter_of_exec h).toNat_le hpc hs.entryBound, fun j a ha => ?_⟩
  obtain hold | rfl := stackEntry_of_exec h ha
  · exact hs.entryBound j a hold
  · exact hpc

/-- A slot keeps the bound: it executes only where the word at PC exists (40_cycle R91). -/
theorem slot_keeps_pcBounded (hs : s.PcBounded) (h : slot s = .next t) : t.PcBounded := by
  obtain ⟨_, hslot⟩ | ⟨_, _, hslot⟩ | ⟨_, _, hfit, hslot⟩ | ⟨_, _, _, hslot⟩ := slot_cases s
  · injection hslot.symm.trans h with h
    exact h ▸ hs
  · injection hslot.symm.trans h with h
    subst h
    obtain ⟨_, hpoll⟩ | ⟨k, _, hpoll⟩ := s.poll_cases
    · exact hpoll.symm ▸ hs
    · exact hpoll.symm ▸ hs.congr rfl rfl
  · exact exec_keeps_pcBounded hs (by omega) (hslot.symm.trans h)
  · injection hslot.symm.trans h with h
    exact h ▸ hs.congr rfl rfl

/-! ### The host calls -/

theorem runSlots_keeps_pcBounded {delta : Nat} (hs : s.PcBounded) (h : runSlots delta s = .next u) : u.PcBounded :=
  drainSlots_induction (R := fun s t => s.PcBounded → t.PcBounded) (fun _ => id) (fun _ _ _ hst htu => htu ∘ hst)
    (fun _ hs => hs.congr rfl rfl) (fun _ _ hslot hs => slot_keeps_pcBounded hs hslot) h (hs.congr rfl rfl)

theorem State.PcBounded.runDecays (h : s.PcBounded) (delta : Nat) : (runDecays delta s).PcBounded :=
  drainDecays_induction (R := fun s t => s.PcBounded → t.PcBounded) (fun _ => id)
    (fun _ _ _ hst htu => htu ∘ hst) (fun _ hs => hs.congr rfl rfl) _ _ (h.congr rfl rfl)

theorem State.PcBounded.unlessHalted (hu : u.PcBounded) (ht : t.PcBounded) : (u.unlessHalted t).PcBounded := by
  unfold State.unlessHalted
  split
  · exact hu
  · exact ht

/-- The state after reset has the bound, for every font: PC is 0x200 and every stack entry 0 (70_reset R250). -/
theorem State.resetWith_pcBounded (f : Font) : (State.resetWith f).PcBounded := by
  refine ⟨by simp [State.resetWith], fun j a ha => ?_⟩
  have hzero : a = 0 := by simp_all [State.resetWith, Vector.getElem?_replicate]
  simp [hzero]

end Sys2Proof.Machine
end

section
/-! SUPPORT. The slot of a waiting core, and the host call `step`. -/

namespace Sys2Proof.Machine

variable {s : State}

/-! ### The poll (40_cycle R96) -/

/-- Ending the wait changes the wait alone. -/
theorem State.onlyChanges_endWait {c : Part → Prop} (hw : c .wait) : OnlyChanges c s s.endWait := by
  intro p hp
  cases p with
  | wait => exact absurd hw hp
  | draws => exact ⟨rfl, rfl⟩
  | _ => rfl

theorem State.poll_of_lowestKey_eq_none (h : lowestKey s.input.keyReleased = none) : s.poll = s := by
  simp only [State.poll, h]

theorem State.poll_of_lowestKey_eq_some {k : Nat} (h : lowestKey s.input.keyReleased = some k) :
    s.poll = (s.setV s.waitReg (BitVec.ofNat 8 k)).endWait := by
  simp only [State.poll, h]

/-- The slot of a core that waits is one poll. -/
theorem slot_of_waiting (hrun : s.fault.halted = false) (hwait : s.waitValid = true) : slot s = .next s.poll := by
  simp [slot, hrun, hwait]

/-! ### The host call `step` (60_exceptions R219) -/

/-- The step that takes a `step` call is that call. -/
theorem step_of_nextCall_step {sample : Input} (h : s.nextCall = .step sample) :
    step s = stepCall sample s.takeCall := by
  simp only [step, hostStep, h, runCall]

end Sys2Proof.Machine
end

section
/-! SUPPORT. The words that no row of a family's secondary decode selects (40_cycle R98). -/

namespace Sys2Proof

/-- A word that encodes a well-formed instruction decodes to it. -/
theorem decodeWord_eq_of_encode {w : Word} {i : Instr} (hwf : i.WellFormed) (h : encode i = w) : decodeWord w = i :=
  h ▸ decodeWord_encode hwf

/-- The low nibbles 8..D and F select no instruction of family 8 (30_encoding R76). -/
theorem wellFormed_undef8 (x y : Nibble) {n : Nibble} (hn : 8 ≤ n.toNat ∧ n.toNat ≤ 0xD ∨ n = 0xF) :
    (Instr.undef8 x y n).WellFormed := by
  have hnone : ∀ n : Nibble, 8 ≤ n.toNat ∧ n.toNat ≤ 0xD ∨ n = 0xF → (!family8Defined n) = true := by decide
  exact hnone n hn

/-- Every low byte but two selects no instruction of family E (30_encoding R77). -/
theorem wellFormed_undefE (x : Nibble) {kk : Byte} (h9E : kk ≠ 0x9E) (hA1 : kk ≠ 0xA1) :
    (Instr.undefE x kk).WellFormed := by
  simp_all [Instr.WellFormed, Instr.wellFormed, familyEDefined]

/-- Every low byte but nine selects no instruction of family F (30_encoding R78). -/
theorem wellFormed_undefF (x : Nibble) {kk : Byte}
    (hkk : kk ∉ [0x07, 0x0A, 0x15, 0x18, 0x1E, 0x29, 0x33, 0x55, 0x65]) : (Instr.undefF x kk).WellFormed := by
  simp_all [Instr.WellFormed, Instr.wellFormed, familyFDefined]

end Sys2Proof
end

section
/-! SUPPORT. The statements about the cycle. -/

namespace Sys2Proof.Machine

/-- Settles O52: each of the host calls `step_cases` names keeps the bound, by its slots or because it moves neither PC
nor the stack; `reset` puts both back. -/
theorem stepKeepsPcBounded : Obligations.StepKeepsPcBounded := by
  unfold Obligations.StepKeepsPcBounded
  intro s t hs h
  have hcall : ∀ sample, (s.takeCall.beginCall sample).PcBounded := fun _ => hs.congr rfl rfl
  obtain ⟨_, rfl⟩ | ⟨rom, _, _, _, rfl⟩ | ⟨_, _, rfl⟩ | ⟨delta, sample, u, _, _, hrun, rfl⟩ |
    ⟨sample, u, _, _, hslot, rfl⟩ := step_cases h
  · exact (State.resetWith_pcBounded s.font).congr rfl rfl
  · exact hs.congr rfl rfl
  · exact hs.congr rfl rfl
  · have hu : u.PcBounded := runSlots_keeps_pcBounded (hcall sample) hrun
    exact hu.unlessHalted (hu.runDecays delta)
  · have hu : u.PcBounded := slot_keeps_pcBounded (hcall sample) hslot
    exact hu.unlessHalted (hu.congr rfl rfl)

/-- Settles O39: no key found leaves the state, and the lowest one is written into V[waitReg]. -/
theorem pollStoresLowestKey : Obligations.PollStoresLowestKey := by
  unfold Obligations.PollStoresLowestKey
  refine ⟨fun s hrun hwait hnone => ?_, fun s k hrun hwait hk hbit hlow => ?_⟩
  · have hpoll : s.poll = s := State.poll_of_lowestKey_eq_none (hnone ▸ lowestKey_zero)
    rw [slot_of_waiting hrun hwait, hpoll]
  · have hpoll := State.poll_of_lowestKey_eq_some (lowestKey_eq_some hk hbit hlow)
    have hreg : (s.poll.getV s.waitReg).toNat = k := by
      have hread : s.poll.getV s.waitReg = BitVec.ofNat 8 k := by
        rw [hpoll]
        exact (s.getV_setV s.waitReg _ s.waitReg).trans (if_pos rfl)
      rw [hread, BitVec.toNat_ofNat, Nat.mod_eq_of_lt (by omega)]
    refine ⟨s.poll, slot_of_waiting hrun hwait, hreg, ?_⟩
    rw [hpoll]
    exact ⟨rfl, rfl, (State.onlyChanges_setV (.inl rfl)).trans (State.onlyChanges_endWait (.inr rfl))⟩

/-- Settles O8: the call's slot runs the word the two bytes make, and the call's decay follows unless it halted. -/
theorem stepRunsDecodedInstruction : Obligations.StepRunsDecodedInstruction := by
  unfold Obligations.StepRunsDecodedInstruction
  intro s sample hi lo i hrun hwait hcall hhi hlo hdec
  obtain rfl : decodeWord (hi ++ lo) = i := by
    injection hdec with hdec
    exact (Prod.mk.inj hdec).1
  refine ⟨(decodeWord_roundTrip _).1, ?_⟩
  have hslot := slot_of_readByte (s := s.takeCall.beginCall sample) hrun hwait hhi hlo
  have hgo : ¬s.takeCall.fault.halted = true := Bool.eq_false_iff.mp hrun
  rw [step_of_nextCall_step hcall, stepCall, if_neg hgo, hslot]
  cases exec (decodeWord (hi ++ lo)) (s.takeCall.beginCall sample) with
  | next t => exact (apply_ite Host.Outcome.next _ _ _).symm
  | fault f => rfl
  | refused r => rfl

/-- Settles O11: each such word is the undefined instruction's own encoding, and that instruction only advances. -/
theorem undefinedWordsOnlyAdvance : Obligations.UndefinedWordsOnlyAdvance := by
  unfold Obligations.UndefinedWordsOnlyAdvance
  refine ⟨fun w hsel hn => ?_, fun w hsel h9E hA1 => ?_, fun w hsel hkk => ?_, fun x y n s => ?_, fun x kk s => ?_,
    fun x kk s => ?_⟩
  · have hop : opField w = 0x8 := selects_op.mp hsel
    exact decodeWord_eq_of_encode (wellFormed_undef8 _ _ hn) (wordXyn_of_op (congrArg _ hop))
  · have hop : opField w = 0xE := selects_op.mp hsel
    exact decodeWord_eq_of_encode (wellFormed_undefE _ h9E hA1) (wordXkk_of_op (congrArg _ hop))
  · have hop : opField w = 0xF := selects_op.mp hsel
    exact decodeWord_eq_of_encode (wellFormed_undefF _ hkk) (wordXkk_of_op (congrArg _ hop))
  · exact ⟨s.advance, rfl, onlyAdvances_advance s⟩
  · exact ⟨s.advance, rfl, onlyAdvances_advance s⟩
  · exact ⟨s.advance, rfl, onlyAdvances_advance s⟩

end Sys2Proof.Machine
end

section
/-! SUPPORT. The words of a row that fixes `op` alone (30_encoding R74, R75), rebuilt from the fields the row names. -/

namespace Sys2Proof

open Machine (Selects)

variable {w : Word} {op : Nibble}

theorem wordNnn_of_selects_op (h : Selects (wordNnn op 0#12) 0xF000 w) : wordNnn op (nnnField w) = w :=
  selects_op.mp h ▸ wordNnn_fields w

theorem wordXkk_of_selects_op (h : Selects (wordNnn op 0#12) 0xF000 w) : wordXkk op (xField w) (kkField w) = w :=
  selects_op.mp h ▸ wordXkk_fields w

theorem wordXyn_of_selects_op (h : Selects (wordNnn op 0#12) 0xF000 w) :
    wordXyn op (xField w) (yField w) (nField w) = w :=
  selects_op.mp h ▸ wordXyn_fields w

/-- The words of family 0 are compared as a whole: all but two are SYS (R75). -/
theorem decodeWord_of_family0 (hop : opField w = 0x0) (hcls : w ≠ 0x00E0) (hret : w ≠ 0x00EE) :
    decodeWord w = .sys (nnnField w) := by
  have hfamily : decodeWord w = decodeFamily0 w := by simp only [decodeWord, hop]; rfl
  rw [hfamily, decodeFamily0, if_neg hcls, if_neg hret]

end Sys2Proof
end

section
/-! SUPPORT. What CALL and RET do to PC, SP and the return stack, and what a run of CALLs and a run of RETs do
(41_control_flow R112 to R114); what a skip does to PC. -/

namespace Sys2Proof.Machine

variable {s t : State} {nnn : Addr} {a : Word}

/-! ### Addresses as numbers (30_encoding R72) -/

@[simp] theorem addrWord_toNat (nnn : Addr) : (addrWord nnn).toNat = nnn.toNat := by
  simp only [addrWord]; bv_omega

/-- The sum of an address and a byte never wraps (41_control_flow R119). -/
theorem addrWord_add_byteWord_toNat (nnn : Addr) (b : Byte) :
    (addrWord nnn + byteWord b).toNat = nnn.toNat + b.toNat := by
  simp only [addrWord, byteWord]; bv_omega

/-! ### One CALL, one RET -/

/-- A push writes the entry at SP and no other. -/
theorem State.onlyChanges_push_top {c : Part → Prop} {h : s.sp.toNat < 16} (hsp : c .sp)
    (htop : c (.stackEntry s.sp.toNat)) : OnlyChanges c s (s.push h) := by
  intro p hp
  cases p with
  | stackEntry j =>
    have hj : s.sp.toNat ≠ j := fun e => hp (e ▸ htop)
    exact Vector.getElem?_set_ne h hj
  | sp => exact absurd hsp hp
  | wait | draws => exact ⟨rfl, rfl⟩
  | _ => rfl

theorem State.toNat_sp_push (h : s.sp.toNat < 16) : (s.push h).sp.toNat = s.sp.toNat + 1 := by
  rw [State.push_sp]; bv_omega

theorem State.toNat_sp_popInto (h : 0 < s.sp.toNat) : (s.popInto a).sp.toNat = s.sp.toNat - 1 := by
  rw [State.popInto_sp]; bv_omega

theorem exec_call_of_lt (h : s.sp.toNat < 16) :
    exec (.call nnn) s = .next ((s.push h).setPC (addrWord nnn)) := by
  have hfull : s.sp ≠ 16 := by bv_omega
  simp only [exec, execCall, if_neg hfull, dif_pos h, retire_jumpTo]

theorem exec_call_of_full (h : s.sp = 16) :
    exec (.call nnn) s = .next (s.raiseFault .stackOverflow (some (encode (.call nnn)))) := by
  simp only [exec, execCall, if_pos h, retire_error]

theorem exec_ret_of_entry (h : 0 < s.sp.toNat) (ha : s.stack[s.sp.toNat - 1]? = some a) :
    exec .ret s = .next (s.popInto a).advance := by
  have hempty : s.sp ≠ 0 := by bv_omega
  have htop : (s.sp - 1).toNat = s.sp.toNat - 1 := by bv_omega
  simp only [exec, execRet, if_neg hempty, htop, ha, retire_sequential]

theorem exec_ret_of_empty (h : s.sp = 0) :
    exec .ret s = .next (s.raiseFault .stackUnderflow (some (encode .ret))) := by
  simp only [exec, execRet, if_pos h, retire_error]

/-! ### Skips -/

/-- The skip of SE: PC by 4 where the two bytes are equal (41_control_flow R115, R117). -/
theorem skip_pc_beq (a b : Byte) (s : State) :
    (if (a == b) = true then s.advance else s).advance.pc = if a = b then s.pc + 4 else s.pc + 2 := by
  rw [skip_pc]; simp only [beq_iff_eq]

/-- The skip of SNE: PC by 2 where the two bytes are equal (41_control_flow R116, R118). -/
theorem skip_pc_bne (a b : Byte) (s : State) :
    (if (a != b) = true then s.advance else s).advance.pc = if a = b then s.pc + 2 else s.pc + 4 := by
  rw [skip_pc]; simp only [bne_iff_ne, ne_eq, ite_not]

/-! ### Runs of CALLs and of RETs -/

theorem execAll_cons_of_next {i : Instr} {is : List Instr} (h : exec i s = .next t) :
    execAll (i :: is) s = execAll is t := by
  simp only [execAll, h]

/-- The addresses of CALLs executed one after the other from `s`, each at the target of the one before, and after them
the last target, where PC then stands. -/
def callSites (targets : List Addr) (s : State) : List Word := s.pc :: targets.map (·.setWidth 16)

/-- What CALLs executed one after the other leave of SP and the stack: an entry for each, its own address, on top of the
entries there were. -/
structure AfterCalls (targets : List Addr) (s t : State) : Prop where
  toNat_sp : t.sp.toNat = s.sp.toNat + targets.length
  pushed : ∀ j < targets.length, t.stack[s.sp.toNat + j]? = (callSites targets s)[j]?
  kept : ∀ j < s.sp.toNat, t.stack[j]? = s.stack[j]?

/-- The CALL before the others pushes the first of the addresses, and the others start at its target. -/
theorem AfterCalls.cons {target : Addr} {targets : List Addr} {h : s.sp.toNat < 16}
    (ht : AfterCalls targets ((s.push h).setPC (addrWord target)) t) : AfterCalls (target :: targets) s t := by
  have hsp : ((s.push h).setPC (addrWord target)).sp.toNat = s.sp.toNat + 1 := State.toNat_sp_push h
  refine ⟨?_, fun j hj => ?_, fun j hj => ?_⟩
  · rw [ht.toNat_sp, hsp, List.length_cons]; omega
  · cases j with
    | zero => exact (ht.kept _ (by omega)).trans (Vector.getElem?_set_self h)
    | succ j =>
      have hentry := ht.pushed j (Nat.lt_of_succ_lt_succ hj)
      rw [hsp, Nat.add_right_comm] at hentry
      exact hentry
  · exact (ht.kept j (by omega)).trans (Vector.getElem?_set_ne h (by omega))

/-- CALLs that fit on the stack all complete. -/
theorem execAll_calls (targets : List Addr) (s : State) (hfit : s.sp.toNat + targets.length ≤ 16) :
    ∃ t, execAll (targets.map .call) s = .next t ∧ AfterCalls targets s t := by
  induction targets generalizing s with
  | nil => exact ⟨s, rfl, rfl, fun j hj => absurd hj (Nat.not_lt_zero j), fun _ _ => rfl⟩
  | cons target targets ih =>
    rw [List.length_cons] at hfit
    have hroom : s.sp.toNat < 16 := by omega
    have hsp : ((s.push hroom).setPC (addrWord target)).sp.toNat = s.sp.toNat + 1 := State.toNat_sp_push hroom
    obtain ⟨t, hrun, ht⟩ := ih ((s.push hroom).setPC (addrWord target)) (by omega)
    exact ⟨t, (execAll_cons_of_next (exec_call_of_lt hroom)).trans hrun, ht.cons⟩

/-- RETs executed one after the other take one entry each; PC stands two past the last one taken. -/
theorem execAll_rets (k : Nat) (s : State) (hbound : s.sp.toNat ≤ 16) (hk : k + 1 ≤ s.sp.toNat)
    (ha : s.stack[s.sp.toNat - (k + 1)]? = some a) :
    ∃ u, execAll (List.replicate (k + 1) .ret) s = .next u ∧ u.sp.toNat = s.sp.toNat - (k + 1) ∧ u.pc = a + 2 := by
  induction k generalizing s with
  | zero => exact ⟨_, execAll_cons_of_next (exec_ret_of_entry hk ha), State.toNat_sp_popInto hk, rfl⟩
  | succ k ih =>
    have hpos : 0 < s.sp.toNat := by omega
    obtain ⟨s₁, hret, hsp₁, hstack₁⟩ :
        ∃ s₁, exec .ret s = .next s₁ ∧ s₁.sp.toNat = s.sp.toNat - 1 ∧ s₁.stack = s.stack :=
      ⟨_, exec_ret_of_entry hpos (Vector.getElem?_eq_getElem (by omega)), State.toNat_sp_popInto hpos, rfl⟩
    have hleft : s₁.sp.toNat - (k + 1) = s.sp.toNat - (k + 1 + 1) := by omega
    have ha₁ : s₁.stack[s₁.sp.toNat - (k + 1)]? = some a := by rw [hstack₁, hleft, ha]
    obtain ⟨u, hrets, hsp, hpc⟩ := ih s₁ (by omega) (by omega) ha₁
    exact ⟨u, (execAll_cons_of_next hret).trans hrets, hsp.trans hleft, hpc⟩

end Sys2Proof.Machine
end

section
/-! SUPPORT. The statements about control flow. -/

namespace Sys2Proof.Machine

/-- Settles O16: the k-th RET takes the entry that the k-th last CALL pushed; sixteen entries leave no room for one
more. -/
theorem callsReturnInReverse : Obligations.CallsReturnInReverse := by
  unfold Obligations.CallsReturnInReverse
  refine ⟨fun targets s hfit => ?_, fun targets nnn s hfull => ?_⟩
  · obtain ⟨t, hcalls, ⟨hsp, hpushed, _⟩⟩ := execAll_calls targets s hfit
    refine ⟨t, hcalls, hsp, fun k hpos hk => ?_⟩
    obtain ⟨k, rfl⟩ := Nat.exists_eq_add_one.mpr hpos
    obtain ⟨site, hsite⟩ : ∃ site, (callSites targets s)[targets.length - (k + 1)]? = some site :=
      ⟨_, List.getElem?_eq_getElem (by simp only [callSites, List.length_cons, List.length_map]; omega)⟩
    have htop : t.sp.toNat - (k + 1) = s.sp.toNat + (targets.length - (k + 1)) := by omega
    have hentry : t.stack[t.sp.toNat - (k + 1)]? = some site := by
      rw [htop, hpushed _ (by omega), hsite]
    obtain ⟨u, hrets, husp, hpc⟩ := execAll_rets k t (by omega) (by omega) hentry
    exact ⟨u, hrets, hsp ▸ husp, site, hsite, hpc⟩
  · obtain ⟨t, hcalls, ht⟩ := execAll_calls targets s hfull.le
    have htfull : t.sp = 16 := BitVec.eq_of_toNat_eq (ht.toNat_sp.trans hfull)
    exact ⟨t, _, hcalls, exec_call_of_full htfull, faultTaken_raiseFault t _ _⟩

/-- Settles O10: the words of family 0 but two are SYS, which only advances. -/
theorem sysOnlyAdvances : Obligations.SysOnlyAdvances := by
  unfold Obligations.SysOnlyAdvances
  refine ⟨fun w hsel hcls hret => ?_, fun nnn s => ?_⟩
  · have hop : opField w = 0x0 := selects_op.mp hsel
    exact decodeWord_of_family0 hop hcls hret
  · exact ⟨s.advance, rfl, onlyAdvances_advance s⟩

/-- Settles O12: the jump is one write of PC. -/
theorem jumpSetsPc : Obligations.JumpSetsPc := by
  unfold Obligations.JumpSetsPc
  refine ⟨fun w hsel => ?_, fun nnn s => ?_⟩
  · exact decodeWord_eq_of_encode rfl (wordNnn_of_selects_op (op := 0x1) hsel)
  · exact ⟨s.setPC (addrWord nnn), rfl, addrWord_toNat nnn, State.onlyChanges_setPC rfl⟩

/-- Settles O13: the jump is one write of PC, and leaves a running core running, whose fetch faults past the end. -/
theorem jumpAddsV0 : Obligations.JumpAddsV0 := by
  unfold Obligations.JumpAddsV0
  refine ⟨fun w hsel => ?_, fun nnn s => ?_⟩
  · exact decodeWord_eq_of_encode rfl (wordNnn_of_selects_op (op := 0xB) hsel)
  · have hpc := addrWord_add_byteWord_toNat nnn (s.getV 0)
    refine ⟨s.setPC (addrWord nnn + byteWord (s.getV 0)), rfl, hpc, State.onlyChanges_setPC rfl,
      fun hrun hwait hpast => ?_⟩
    exact ⟨_, slot_past_end hrun hwait (hpast.le.trans hpc.ge), faultTaken_raiseFault _ _ _⟩

/-- Settles O14: CALL is one push and one write of PC, or the fault of a full stack. -/
theorem callPushesOwnAddress : Obligations.CallPushesOwnAddress := by
  unfold Obligations.CallPushesOwnAddress
  refine ⟨fun w hsel => ?_, fun nnn s hsp => ?_, fun nnn s hfull => ?_⟩
  · exact decodeWord_eq_of_encode rfl (wordNnn_of_selects_op (op := 0x2) hsel)
  · refine ⟨_, exec_call_of_lt hsp, Vector.getElem?_set_self hsp, State.toNat_sp_push hsp, addrWord_toNat nnn, ?_⟩
    exact OnlyChanges.trans (State.onlyChanges_push_top (.inr (.inl rfl)) (.inr (.inr rfl)))
      (State.onlyChanges_setPC (.inl rfl))
  · exact ⟨_, exec_call_of_full hfull, faultTaken_raiseFault _ _ _⟩

/-- Settles O15: RET is one pop and the advance, or the fault of an empty stack. -/
theorem retResumesAfterCall : Obligations.RetResumesAfterCall := by
  unfold Obligations.RetResumesAfterCall
  refine ⟨fun w hsel => ?_, fun s a hsp ha => ?_, fun s hempty => ?_⟩
  · exact decodeWord_eq_of_encode rfl (selects_all.mp hsel).symm
  · refine ⟨_, exec_ret_of_entry hsp ha, State.toNat_sp_popInto hsp, rfl, ?_⟩
    exact OnlyChanges.trans (State.onlyChanges_popInto (.inr rfl) (.inl rfl)) (State.onlyChanges_setPC (.inl rfl))
  · exact ⟨_, exec_ret_of_empty hempty, faultTaken_raiseFault _ _ _⟩

/-- Settles O17: both are a skip, on the comparison and on its opposite. -/
theorem skipsCompareImmediate : Obligations.SkipsCompareImmediate := by
  unfold Obligations.SkipsCompareImmediate
  refine ⟨fun w hsel => ?_, fun w hsel => ?_, fun x kk s => ⟨?_, ?_⟩⟩
  · exact decodeWord_eq_of_encode rfl (wordXkk_of_selects_op (op := 0x3) hsel)
  · exact decodeWord_eq_of_encode rfl (wordXkk_of_selects_op (op := 0x4) hsel)
  · exact ⟨_, rfl, skip_pc_beq _ _ s, skip_onlyChanges _ s⟩
  · exact ⟨_, rfl, skip_pc_bne _ _ s, skip_onlyChanges _ s⟩

/-- Settles O18: both are a skip, on the comparison and on its opposite; the low nibble is read by neither. -/
theorem skipsCompareRegisters : Obligations.SkipsCompareRegisters := by
  unfold Obligations.SkipsCompareRegisters
  refine ⟨fun w hsel => ?_, fun w hsel => ?_, fun x y n s => ⟨?_, ?_⟩⟩
  · exact decodeWord_eq_of_encode rfl (wordXyn_of_selects_op (op := 0x5) hsel)
  · exact decodeWord_eq_of_encode rfl (wordXyn_of_selects_op (op := 0x9) hsel)
  · exact ⟨_, rfl, skip_pc_beq _ _ s, skip_onlyChanges _ s⟩
  · exact ⟨_, rfl, skip_pc_bne _ _ s, skip_onlyChanges _ s⟩

end Sys2Proof.Machine
end

section
/-! SUPPORT. What the statements of the register and arithmetic unit (42_alu) do: the flags and results as numbers, the
two orders in which a result and VF are written, and a draw. -/

namespace Sys2Proof.Machine

variable {s : State} {x y : Nibble} {kk r flag : Byte} {g : Nibble → Byte}

/-! ### Results as numbers (42_alu R143) -/

theorem add_eq_ofNat (a b : Byte) : a + b = BitVec.ofNat 8 ((a.toNat + b.toNat) % 256) := by bv_omega

theorem sub_eq_ofNat (a b : Byte) : a - b = BitVec.ofNat 8 ((a.toNat + 256 - b.toNat) % 256) := by bv_omega

theorem ushiftRight_one_eq_ofNat (a : Byte) : a >>> 1 = BitVec.ofNat 8 (a.toNat / 2) := by bv_omega

theorem shiftLeft_one_eq_ofNat (a : Byte) : a <<< 1 = BitVec.ofNat 8 (a.toNat * 2 % 256) := by bv_omega

/-! ### Flags as numbers (10_state R36) -/

theorem flagByte_decide (p : Prop) [Decidable p] : flagByte (decide p) = if p then 1 else 0 := by
  simp only [flagByte, decide_eq_true_eq]

theorem carryFlag_eq (a b : Byte) : carryFlag a b = if a.toNat + b.toNat > 255 then 1 else 0 := flagByte_decide _

theorem greaterFlag_eq (a b : Byte) : greaterFlag a b = if a.toNat > b.toNat then 1 else 0 := flagByte_decide _

theorem resultLessFlag_eq (r b : Byte) : resultLessFlag r b = if r.toNat < b.toNat then 1 else 0 := flagByte_decide _

theorem lowBit_eq (a : Byte) : lowBit a = BitVec.ofNat 8 (a.toNat % 2) := by
  have hmod : (a &&& 1).toNat = a.toNat % 2 := (BitVec.toNat_and a 1).trans (Nat.and_one_is_mod a.toNat)
  unfold lowBit; bv_omega

theorem highBit_eq (a : Byte) : highBit a = BitVec.ofNat 8 (a.toNat / 128) := by
  unfold highBit; bv_omega

/-- SUBN's comparison of the result with the minuend (R144): below it exactly when something is subtracted and nothing
is borrowed. -/
theorem toNat_ofNat_sub_lt_iff (a b : Byte) :
    (BitVec.ofNat 8 ((b.toNat + 256 - a.toNat) % 256)).toNat < b.toNat ↔ 0 < a.toNat ∧ a.toNat ≤ b.toNat := by
  bv_omega

/-! ### Writes of registers -/

/-- Registers `g` that differ from those of `s` in one are what a write of that one leaves. -/
theorem State.getV_setV_of_forall_eq (hg : ∀ k, g k = if k = x then r else s.getV k) (k : Nibble) :
    (s.setV x r).getV k = g k := (s.getV_setV x r k).trans (hg k).symm

theorem registersBecome_setV (s : State) (x : Nibble) (b : Byte) :
    RegistersBecome (fun k => if k = x then b else s.getV k) s (s.setV x b).advance :=
  registersBecome_of_eq rfl (s.getV_setV x b)

/-- A result, then a flag: VF holds the flag whatever `x` is (R132). -/
theorem registersBecome_resultThenFlag (s : State) (x : Nibble) (r flag : Byte) :
    RegistersBecome (fun k => if k = 0xF then flag else if k = x then r else s.getV k) s
      (s.resultThenFlag x r flag).advance := by
  refine registersBecome_of_eq rfl fun k => ?_
  calc ((s.setV x r).setV vf flag).getV k
      = if k = vf then flag else (s.setV x r).getV k := State.getV_setV _ _ _ _
    _ = if k = 0xF then flag else if k = x then r else s.getV k := by rw [State.getV_setV]; rfl

/-- A flag, then a result: `g` is what the registers hold between the two, and the result wins where `x` is F (R132). -/
theorem registersBecome_flagThenResult (f : State → Byte) (hg : ∀ k, (s.setV vf flag).getV k = g k)
    (hr : f (s.setV vf flag) = r) :
    RegistersBecome (fun k => if k = x then r else g k) s (s.flagThenResult x flag f).advance := by
  refine registersBecome_of_eq rfl fun k => ?_
  calc ((s.setV vf flag).setV x (f (s.setV vf flag))).getV k
      = if k = x then f (s.setV vf flag) else (s.setV vf flag).getV k := State.getV_setV _ _ _ _
    _ = if k = x then r else g k := by rw [hr, hg]

/-- SUBN's flag reads the registers `g` that the subtraction left (R140). -/
theorem registersBecome_subnFlag (hg : ∀ k, (s.setV x r).getV k = g k) :
    RegistersBecome (fun k => if k = 0xF then (if (g x).toNat < (g y).toNat then 1 else 0) else g k) s
      ((s.setV x r).subnFlag x y).advance := by
  refine registersBecome_of_eq rfl fun k => ?_
  calc ((s.setV x r).subnFlag x y).getV k
      = if k = vf then resultLessFlag ((s.setV x r).getV x) ((s.setV x r).getV y) else (s.setV x r).getV k :=
        State.getV_setV _ _ _ _
    _ = if k = 0xF then (if (g x).toNat < (g y).toNat then 1 else 0) else g k := by
        rw [hg, hg, hg, resultLessFlag_eq]; rfl

/-! ### Draws (60_exceptions R228) -/

theorem State.draw_of_cons {rest : List Byte} (h : s.draws = r :: rest) :
    s.nextDraw = r ∧ s.takeDraw = { s with draws := rest } := by
  rw [State.nextDraw, State.takeDraw, h]; exact ⟨rfl, rfl⟩

theorem State.draw_of_nil (h : s.draws = []) :
    s.nextDraw = Config.randomByte s.drawCount ∧ s.takeDraw = { s with drawCount := s.drawCount + 1 } := by
  rw [State.nextDraw, State.takeDraw, h]; exact ⟨rfl, rfl⟩

/-- RND with a nonzero immediate takes one draw and writes its residue (R142). -/
theorem exec_rnd_of_ne_zero (hkk : kk ≠ 0) :
    ∃ t, exec (.rnd x kk) s = .next t ∧ t.pc = s.pc + 2 ∧ (t.getV x).toNat = s.nextDraw.toNat % kk.toNat ∧
      t.draws = s.takeDraw.draws ∧ t.drawCount = s.takeDraw.drawCount ∧
      OnlyChanges (fun p => p = .pc ∨ p = .v x ∨ p = .draws) s t := by
  have hexec : exec (.rnd x kk) s = .next (s.takeDraw.setV x (s.nextDraw % kk)).advance := by
    simp only [exec, execRnd, if_neg hkk, retire_sequential]
  have hread : (s.takeDraw.setV x (s.nextDraw % kk)).advance.getV x = s.nextDraw % kk :=
    (State.getV_setV _ x _ x).trans (if_pos rfl)
  refine ⟨_, hexec, congrArg (· + 2) s.takeDraw_pc, ?_, rfl, rfl, ?_⟩
  · rw [hread, BitVec.toNat_umod]
  · have hdraw : OnlyChanges (fun p => p = .pc ∨ p = .v x ∨ p = .draws) s s.takeDraw :=
      State.onlyChanges_takeDraw (.inr (.inr rfl))
    exact (hdraw.trans (State.onlyChanges_setV (.inr (.inl rfl)))).trans (State.onlyChanges_setPC (.inl rfl))

/-- A zero immediate is the fault, and no draw is taken (R142). -/
theorem exec_rnd_zero : exec (.rnd x 0) s = .next (s.raiseFault .randomModuloZero (some (encode (.rnd x 0)))) := by
  simp only [exec, execRnd, if_pos, retire_error]

end Sys2Proof.Machine
end

section
/-! SUPPORT. The statements about the register and arithmetic unit. -/

namespace Sys2Proof.Machine

/-- Settles O19: each is one write of V[x] and the advance. -/
theorem plainLoadsAndAdd : Obligations.PlainLoadsAndAdd := by
  unfold Obligations.PlainLoadsAndAdd
  refine ⟨fun w hsel => ?_, fun w hsel => ?_, fun w hsel => ?_, fun x kk s => ?_, fun x kk s => ?_, fun x y s => ?_⟩
  · exact decodeWord_eq_of_encode rfl (wordXkk_of_selects_op (op := 0x6) hsel)
  · exact decodeWord_eq_of_encode rfl (wordXkk_of_selects_op (op := 0x7) hsel)
  · exact decodeWord_eq_of_encode rfl (wordXyn_of_selects (op := 0x8) (n := 0x0) hsel)
  · exact ⟨_, rfl, registersBecome_setV s x kk⟩
  · rw [← add_eq_ofNat]
    exact ⟨_, rfl, registersBecome_setV s x (s.getV x + kk)⟩
  · exact ⟨_, rfl, registersBecome_setV s x (s.getV y)⟩

/-- Settles O20: each is a result, then the flag 0. -/
theorem logicClearsFlag : Obligations.LogicClearsFlag := by
  unfold Obligations.LogicClearsFlag
  refine ⟨fun w hsel => ?_, fun w hsel => ?_, fun w hsel => ?_, fun x y s => ⟨?_, ?_, ?_⟩⟩
  · exact decodeWord_eq_of_encode rfl (wordXyn_of_selects (op := 0x8) (n := 0x1) hsel)
  · exact decodeWord_eq_of_encode rfl (wordXyn_of_selects (op := 0x8) (n := 0x2) hsel)
  · exact decodeWord_eq_of_encode rfl (wordXyn_of_selects (op := 0x8) (n := 0x3) hsel)
  · exact ⟨_, rfl, registersBecome_resultThenFlag s x (s.getV x ||| s.getV y) 0⟩
  · exact ⟨_, rfl, registersBecome_resultThenFlag s x (s.getV x &&& s.getV y) 0⟩
  · exact ⟨_, rfl, registersBecome_resultThenFlag s x (s.getV x ^^^ s.getV y) 0⟩

/-- Settles O21: the wrapped sum, then the carry of the exact one. -/
theorem addSetsCarry : Obligations.AddSetsCarry := by
  unfold Obligations.AddSetsCarry
  refine ⟨fun w hsel => ?_, fun x y s => ?_⟩
  · exact decodeWord_eq_of_encode rfl (wordXyn_of_selects (op := 0x8) (n := 0x4) hsel)
  · rw [← add_eq_ofNat, ← carryFlag_eq]
    exact ⟨_, rfl, registersBecome_resultThenFlag s x _ _⟩

/-- Settles O22: the flag, then the subtraction of what the registers then hold. -/
theorem subSetsFlagFirst : Obligations.SubSetsFlagFirst := by
  unfold Obligations.SubSetsFlagFirst
  refine ⟨fun w hsel => ?_, fun x y s g hg => ?_⟩
  · exact decodeWord_eq_of_encode rfl (wordXyn_of_selects (op := 0x8) (n := 0x5) hsel)
  · rw [← greaterFlag_eq] at hg
    have hbetween := State.getV_setV_of_forall_eq (x := vf) hg
    refine ⟨_, rfl, registersBecome_flagThenResult (fun t => t.getV x - t.getV y) hbetween ?_⟩
    rw [hbetween, hbetween, sub_eq_ofNat]

/-- Settles O23: the bit shifted out, then the shift of what V[x] then holds. -/
theorem shiftsSetFlagFirst : Obligations.ShiftsSetFlagFirst := by
  unfold Obligations.ShiftsSetFlagFirst
  refine ⟨fun w hsel => ?_, fun w hsel => ?_, fun x y s g hg => ?_, fun x y s g hg => ?_⟩
  · exact decodeWord_eq_of_encode rfl (wordXyn_of_selects (op := 0x8) (n := 0x6) hsel)
  · exact decodeWord_eq_of_encode rfl (wordXyn_of_selects (op := 0x8) (n := 0xE) hsel)
  · rw [← lowBit_eq] at hg
    have hbetween := State.getV_setV_of_forall_eq (x := vf) hg
    refine ⟨_, rfl, registersBecome_flagThenResult (fun t => t.getV x >>> 1) hbetween ?_⟩
    rw [hbetween, ushiftRight_one_eq_ofNat]
  · rw [← highBit_eq] at hg
    have hbetween := State.getV_setV_of_forall_eq (x := vf) hg
    refine ⟨_, rfl, registersBecome_flagThenResult (fun t => t.getV x <<< 1) hbetween ?_⟩
    rw [hbetween, shiftLeft_one_eq_ofNat]

/-- Settles O24: the subtraction, then the flag from what the registers then hold. -/
theorem subnSetsFlagFromResult : Obligations.SubnSetsFlagFromResult := by
  unfold Obligations.SubnSetsFlagFromResult
  refine ⟨fun w hsel => ?_, fun x y s g hg => ?_⟩
  · exact decodeWord_eq_of_encode rfl (wordXyn_of_selects (op := 0x8) (n := 0x7) hsel)
  · rw [← sub_eq_ofNat] at hg
    have hbetween := State.getV_setV_of_forall_eq hg
    exact ⟨_, rfl, registersBecome_subnFlag hbetween⟩

/-- Settles O25: O24's flag, with the result in V[x] and V[y] as it was, is R144's closed form. -/
theorem subnFlagClosedForm : Obligations.SubnFlagClosedForm := by
  unfold Obligations.SubnFlagClosedForm
  intro x y s hxy _ _
  obtain ⟨t, hexec, _, hregisters, _⟩ := subnSetsFlagFromResult.2 x y s _ fun _ => rfl
  refine ⟨t, hexec, ?_⟩
  rw [hregisters, if_pos rfl]
  simp only [if_neg hxy.symm, if_true, toNat_ofNat_sub_lt_iff]

/-- Settles O26: one draw's residue into V[x], or the fault; the two supplies of a draw differ in what is taken. -/
theorem randomModuloImmediate : Obligations.RandomModuloImmediate := by
  unfold Obligations.RandomModuloImmediate
  refine ⟨fun w hsel => ?_, fun x kk r rest s hkk hdraws => ?_, fun x kk s hkk hdraws => ?_, fun x s => ?_⟩
  · exact decodeWord_eq_of_encode rfl (wordXkk_of_selects_op (op := 0xC) hsel)
  · obtain ⟨hnext, htake⟩ := State.draw_of_cons hdraws
    simpa only [hnext, htake] using exec_rnd_of_ne_zero (x := x) (s := s) hkk
  · obtain ⟨hnext, htake⟩ := State.draw_of_nil hdraws
    simpa only [hnext, htake, hdraws] using exec_rnd_of_ne_zero (x := x) (s := s) hkk
  · exact ⟨_, exec_rnd_zero, faultTaken_raiseFault s _ _⟩

end Sys2Proof.Machine
end

section
/-! SUPPORT. What the instructions of the index register and the memory datapath (43_index_memory) do: the values of I
as numbers, and each instruction where its bytes exist and where they do not. -/

namespace Sys2Proof.Machine

variable {s : State} {x k : Nibble} {a count : Nat} {bs : List Byte}

/-! ### The values of I as numbers -/

theorem add_byteWord_toNat (w : Word) (b : Byte) : (w + byteWord b).toNat = (w.toNat + b.toNat) % 65536 := by
  simp only [byteWord]; bv_omega

/-- The font address never wraps (43_index_memory R162). -/
theorem glyphAddress_toNat (b : Byte) : (glyphAddress b).toNat = 5 * b.toNat := by
  simp only [glyphAddress, byteWord]; bv_omega

/-- I one past V0..Vx's bytes never wraps where they all exist (43_index_memory R164, R165). -/
theorem State.toNat_i_bumpI (hfit : s.i.toNat + x.toNat ≤ 0xFFF) : (s.bumpI x).i.toNat = s.i.toNat + x.toNat + 1 := by
  rw [State.bumpI_i, prefixLength]; bv_omega

/-- Writing I to `w` and advancing changes I and PC alone. -/
theorem State.onlyChanges_setI_advance (s : State) (w : Word) :
    OnlyChanges (fun p => p = .pc ∨ p = .i) s (s.setI w).advance :=
  (State.onlyChanges_setI (.inr rfl)).trans (State.onlyChanges_setPC (.inl rfl))

/-! ### Loads, and stores past the end (20_memory R51, R52, R64) -/

theorem State.storeBytes_past_end (hne : bs.length ≠ 0) (hpast : 4096 < a + bs.length) :
    s.storeBytes a bs = .error .addressOutOfRange := by
  obtain ⟨hfit, _⟩ | ⟨_, _, hst⟩ := s.storeBytes_cases a bs
  · omega
  · exact hst

theorem State.loadBytes_of_fits (hfit : a + count ≤ 4096) :
    s.loadBytes a count = .ok (Mem.readMany s.font s.mem a count) := by
  obtain ⟨_, hld⟩ | ⟨_, hpast, _⟩ := s.loadBytes_cases a count
  · exact hld
  · omega

theorem State.loadBytes_past_end (hne : count ≠ 0) (hpast : 4096 < a + count) :
    s.loadBytes a count = .error .addressOutOfRange := by
  obtain ⟨hfit, _⟩ | ⟨_, _, hld⟩ := s.loadBytes_cases a count
  · omega
  · exact hld

/-- V[k] holds the `k`-th byte loaded from `a` on, which is the one read there. -/
theorem State.readByte_eq_getV_setVFrom (hcount : count ≤ 16) (hfit : a + count ≤ 4096) (hk : k.toNat < count) :
    s.readByte (a + k.toNat) = some ((s.setVFrom 0 (Mem.readMany s.font s.mem a count)).getV k) := by
  have hlen : (Mem.readMany s.font s.mem a count).length = count := Mem.length_readMany _ _ _
  have hin : 0 ≤ k.toNat ∧ k.toNat - 0 < (Mem.readMany s.font s.mem a count).length := by omega
  rw [State.getV_setVFrom _ _ _ (by omega), dif_pos hin, Mem.getElem_readMany]
  exact State.readByte_eq_some.mpr ⟨by omega, rfl⟩

/-- Bytes written to V0..Vx change those registers alone. -/
theorem State.onlyChanges_setVFrom_zero {c : Part → Prop} (hlen : bs.length = x.toNat + 1)
    (hc : ∀ k : Nibble, k.toNat ≤ x.toNat → c (.v k)) : OnlyChanges c s (s.setVFrom 0 bs) := by
  refine State.onlyChanges_setVFrom fun j hj => hc _ ?_
  rw [BitVec.toNat_ofNat]
  exact (Nat.mod_le _ _).trans (by omega)

/-! ### The memory instructions -/

/-- Fx33 with a byte past the end (43_index_memory R163). -/
theorem exec_ldBVx_past_end (hpast : 0xFFF < s.i.toNat + 2) :
    exec (.ldBVx x) s = .next (s.raiseFault .addressOutOfRange (some (encode (.ldBVx x)))) := by
  have hlen : (decimalDigits (s.getV x)).length = 3 := rfl
  have hst : s.storeBytes s.i.toNat (decimalDigits (s.getV x)) = .error .addressOutOfRange :=
    State.storeBytes_past_end (by omega) (by omega)
  simp only [exec, execLdBVx, hst, retire_error]

/-- Fx55 with a byte past the end (43_index_memory R164). -/
theorem exec_ldMemVx_past_end (hpast : 0xFFF < s.i.toNat + x.toNat) :
    exec (.ldMemVx x) s = .next (s.raiseFault .addressOutOfRange (some (encode (.ldMemVx x)))) := by
  have hlen := s.length_vPrefix x
  have hst : s.storeBytes s.i.toNat (s.vPrefix x) = .error .addressOutOfRange :=
    State.storeBytes_past_end (by omega) (by omega)
  simp only [exec, execLdMemVx, hst, retire_error]

/-- Fx65 whose bytes all exist (43_index_memory R165). -/
theorem exec_ldVxMem_of_fits (hfit : s.i.toNat + x.toNat ≤ 0xFFF) :
    exec (.ldVxMem x) s =
      .next ((s.setVFrom 0 (Mem.readMany s.font s.mem s.i.toNat (x.toNat + 1))).bumpI x).advance := by
  have hld : s.loadBytes s.i.toNat (prefixLength x) = .ok (Mem.readMany s.font s.mem s.i.toNat (x.toNat + 1)) :=
    State.loadBytes_of_fits (by rw [prefixLength]; omega)
  simp only [exec, execLdVxMem, hld, retire_sequential]

/-- Fx65 with a byte past the end (43_index_memory R165). -/
theorem exec_ldVxMem_past_end (hpast : 0xFFF < s.i.toNat + x.toNat) :
    exec (.ldVxMem x) s = .next (s.raiseFault .addressOutOfRange (some (encode (.ldVxMem x)))) := by
  have hld : s.loadBytes s.i.toNat (prefixLength x) = .error .addressOutOfRange :=
    State.loadBytes_past_end (Nat.succ_ne_zero _) (by rw [prefixLength]; omega)
  simp only [exec, execLdVxMem, hld, retire_error]

end Sys2Proof.Machine
end

section
/-! SUPPORT. The statements about the index register and memory. -/

namespace Sys2Proof.Machine

/-- Settles O28: Fx33 is one store of the three digits, or the fault. -/
theorem bcdStoresDigits : Obligations.BcdStoresDigits := by
  unfold Obligations.BcdStoresDigits
  refine ⟨fun w hsel => ?_, fun x s hm hfit => ?_, fun x s hpast => ?_⟩
  · exact decodeWord_eq_of_encode rfl (wordXkk_of_selects (op := 0xF) (kk := 0x33) hsel)
  · have hlen : (decimalDigits (s.getV x)).length = 3 := rfl
    have hread (j : Nat) (hj : j < 3) := State.readByte_writeMany_inside (s := s) (a := s.i.toNat)
      (bs := decimalDigits (s.getV x)) hm (by omega) (j := j) hj
    refine ⟨_, exec_ldBVx_of_fits hfit, rfl, hread 0 (by omega), hread 1 (by omega), hread 2 (by omega), ?_⟩
    exact (State.onlyChanges_writeMany fun b hlo hhi => .inr ⟨b, rfl, hlo, hhi⟩).trans
      (State.onlyChanges_setPC (.inl rfl))
  · exact ⟨_, exec_ldBVx_past_end hpast, faultTaken_raiseFault s _ _⟩

/-- Settles O29: Fx55 is one store of V0..Vx and one write of I, or the fault. -/
theorem storeRegistersAtI : Obligations.StoreRegistersAtI := by
  unfold Obligations.StoreRegistersAtI
  refine ⟨fun w hsel => ?_, fun x s hm hfit => ?_, fun x s hpast => ?_⟩
  · exact decodeWord_eq_of_encode rfl (wordXkk_of_selects (op := 0xF) (kk := 0x55) hsel)
  · have hlen := s.length_vPrefix x
    refine ⟨_, exec_ldMemVx_of_fits hfit, rfl, fun k hk => ?_, State.toNat_i_bumpI hfit, ?_⟩
    · have hj : k.toNat < (s.vPrefix x).length := by omega
      rw [← s.getElem_vPrefix x k hj]
      exact State.readByte_writeMany_inside hm (by omega) hj
    · exact ((State.onlyChanges_writeMany fun b hlo hhi => .inr (.inr ⟨b, rfl, hlo, hlen ▸ hhi⟩)).trans
        (State.onlyChanges_setI (.inr (.inl rfl)))).trans (State.onlyChanges_setPC (.inl rfl))
  · exact ⟨_, exec_ldMemVx_past_end hpast, faultTaken_raiseFault s _ _⟩

/-- Settles O30: Fx65 is one load into V0..Vx and one write of I, or the fault. -/
theorem loadRegistersFromI : Obligations.LoadRegistersFromI := by
  unfold Obligations.LoadRegistersFromI
  refine ⟨fun w hsel => ?_, fun x s hfit => ?_, fun x s hpast => ?_⟩
  · exact decodeWord_eq_of_encode rfl (wordXkk_of_selects (op := 0xF) (kk := 0x65) hsel)
  · have hkeep := s.setVFrom_eq 0 (Mem.readMany s.font s.mem s.i.toNat (x.toNat + 1))
    refine ⟨_, exec_ldVxMem_of_fits hfit, ?_, fun k hk => ?_, ?_, ?_⟩
    · rw [hkeep]; rfl
    · exact State.readByte_eq_getV_setVFrom x.isLt (by omega) (by omega)
    · rw [hkeep]; exact State.toNat_i_bumpI hfit
    · exact ((State.onlyChanges_setVFrom_zero (Mem.length_readMany _ _ _) fun k hk => .inr (.inr ⟨k, rfl, hk⟩)).trans
        (State.onlyChanges_setI (.inr (.inl rfl)))).trans (State.onlyChanges_setPC (.inl rfl))
  · exact ⟨_, exec_ldVxMem_past_end hpast, faultTaken_raiseFault s _ _⟩

/-- Settles O31: the byte Fx65 loads into V[k] is the one Fx55 stored from it. -/
theorem storeThenLoadRestores : Obligations.StoreThenLoadRestores := by
  unfold Obligations.StoreThenLoadRestores
  intro x s t u hm hfit hexec hi hread
  obtain ⟨t', hexec', _, hstored, _⟩ := storeRegistersAtI.2.1 x s hm hfit
  obtain rfl : t = t' := Host.Outcome.next.inj (hexec.symm.trans hexec')
  obtain ⟨w, hload, _, hloaded, _⟩ := loadRegistersFromI.2.1 x u (hi ▸ hfit)
  refine ⟨w, hload, fun k hk => Option.some.inj ?_⟩
  calc some (w.getV k)
      = u.readByte (s.i.toNat + k.toNat) := by rw [← hi, hloaded k hk]
    _ = t.readByte (s.i.toNat + k.toNat) := hread _
    _ = some (s.getV k) := hstored k hk

/-- Settles O27: each is one write of I and the advance. -/
theorem indexRegisterWrites : Obligations.IndexRegisterWrites := by
  unfold Obligations.IndexRegisterWrites
  refine ⟨fun w hsel => ?_, fun w hsel => ?_, fun w hsel => ?_, fun nnn s => ?_, fun x s => ?_, fun x s => ?_⟩
  · exact decodeWord_eq_of_encode rfl (wordNnn_of_selects_op (op := 0xA) hsel)
  · exact decodeWord_eq_of_encode rfl (wordXkk_of_selects (op := 0xF) (kk := 0x1E) hsel)
  · exact decodeWord_eq_of_encode rfl (wordXkk_of_selects (op := 0xF) (kk := 0x29) hsel)
  · exact ⟨_, rfl, rfl, addrWord_toNat nnn, s.onlyChanges_setI_advance _⟩
  · exact ⟨_, rfl, rfl, add_byteWord_toNat s.i (s.getV x), s.onlyChanges_setI_advance _⟩
  · exact ⟨_, rfl, rfl, glyphAddress_toNat (s.getV x), s.onlyChanges_setI_advance _⟩

end Sys2Proof.Machine
end

section
/-! SUPPORT. What CLS and DRW do (44_display): the rows a sprite reads are the ones `SpriteCovers` speaks of, and DRW
where its bytes exist and where they do not. -/

namespace Sys2Proof.Machine

variable {s t : State} {x y n : Nibble} {px0 py0 px py : Nat} {bs : List Byte} {c : Part → Prop}

/-! ### CLS -/

theorem State.pixel_setFb_blankFrame (s : State) (px py : Nat) : (s.setFb blankFrame).pixel px py = false := by
  rw [State.pixel_eq, State.setFb_fb, pixelAt_blankFrame]

/-! ### The rows a sprite reads -/

/-- The eight columns of a row, said by the distance from its left edge (44_display R181, R182). -/
theorem rowCovers_eight_columns_iff {b : Byte} :
    RowCovers b px0 py0 [0, 1, 2, 3, 4, 5, 6, 7] px py ↔
      px0 ≤ px ∧ px < px0 + 8 ∧ b.getLsbD (7 - (px - px0)) = true ∧ py = py0 := by
  constructor
  · rintro ⟨col, hcol, hbit, rfl, hrow⟩
    have hlt : col < 8 := List.mem_range.mp hcol
    rw [Nat.add_sub_cancel_left]
    exact ⟨by omega, by omega, hbit, hrow⟩
  · rintro ⟨hleft, hright, hbit, hrow⟩
    exact ⟨px - px0, List.mem_range.mpr (by omega : px - px0 < 8), hbit, by omega, hrow⟩

/-- The `j`-th byte a load reads, where the bytes all exist. -/
theorem State.getElem?_readMany_eq_some_iff {a count j : Nat} {b : Byte} (hfit : count = 0 ∨ a + count ≤ 4096) :
    (Mem.readMany s.font s.mem a count)[j]? = some b ↔ j < count ∧ s.readByte (a + j) = some b := by
  rw [List.getElem?_eq_some_iff, State.readByte_eq_some]
  constructor
  · rintro ⟨hj, hb⟩
    rw [Mem.length_readMany] at hj
    exact ⟨hj, by omega, by rw [← hb, Mem.getElem_readMany]⟩
  · rintro ⟨hj, _, hb⟩
    have hlen : j < (Mem.readMany s.font s.mem a count).length := by rwa [Mem.length_readMany]
    exact ⟨hlen, by rw [Mem.getElem_readMany, hb]⟩

/-- The rows loaded from I cover what the sprite at I covers. -/
theorem rowsCover_readMany_iff {count : Nat} (hfit : count = 0 ∨ s.i.toNat + count ≤ 4096) :
    RowsCover (Mem.readMany s.font s.mem s.i.toNat count) px0 py0 px py ↔ SpriteCovers s px0 py0 count px py := by
  simp only [RowsCover, State.getElem?_readMany_eq_some_iff hfit, rowCovers_eight_columns_iff]
  constructor
  · rintro ⟨j, b, ⟨hj, hb⟩, hleft, hright, hbit, rfl⟩
    exact ⟨hleft, hright, by omega, by omega, b, by rwa [Nat.add_sub_cancel_left], hbit⟩
  · rintro ⟨hleft, hright, htop, hbottom, b, hb, hbit⟩
    exact ⟨py - py0, b, ⟨by omega, hb⟩, hleft, hright, hbit, by omega⟩

/-- What a sprite covers depends on I and memory alone. -/
theorem spriteCovers_congr {count : Nat} (hi : t.i = s.i) (hread : ∀ a, t.readByte a = s.readByte a) :
    SpriteCovers t px0 py0 count px py ↔ SpriteCovers s px0 py0 count px py := by
  simp only [SpriteCovers, hi, hread]

/-! ### Drawing a sprite -/

theorem State.pixel_drawSprite_of_covered (h : RowsCover bs px0 py0 px py ∧ OnScreen px py) :
    (s.drawSprite px0 py0 bs).pixel px py = !s.pixel px py :=
  (pixelAt_drawRows bs px0 py0 px py (s.fb, false)).1 h

theorem State.pixel_drawSprite_of_not_covered (h : ¬(RowsCover bs px0 py0 px py ∧ OnScreen px py)) :
    (s.drawSprite px0 py0 bs).pixel px py = s.pixel px py :=
  (pixelAt_drawRows bs px0 py0 px py (s.fb, false)).2 h

theorem State.getV_vf_drawSprite (s : State) (px0 py0 : Nat) (bs : List Byte) :
    (s.drawSprite px0 py0 bs).getV vf = flagByte (drawRows px0 py0 bs (s.fb, false)).2 := by
  rw [State.drawSprite, State.getV_setV, if_pos rfl]

/-- The collision: the rows cover an on-screen pixel that is on. -/
theorem State.drawRows_flag_iff :
    (drawRows px0 py0 bs (s.fb, false)).2 = true ↔
      ∃ px py, RowsCover bs px0 py0 px py ∧ OnScreen px py ∧ s.pixel px py = true := by
  simp only [drawRows_flag, Bool.false_eq_true, false_or, State.pixel_eq]

theorem State.onlyChanges_drawSprite (hpixel : ∀ px py, c (.pixel px py)) (hvf : c (.v vf)) :
    OnlyChanges c s (s.drawSprite px0 py0 bs) :=
  (State.onlyChanges_setFb hpixel).trans (State.onlyChanges_setV hvf)

/-! ### DRW -/

/-- DRW's premise, that its last byte exists, as the load's range. -/
theorem sprite_fits_iff :
    n = 0 ∨ s.i.toNat + n.toNat - 1 ≤ 0xFFF ↔ n.toNat = 0 ∨ s.i.toNat + n.toNat ≤ 4096 := by
  have hzero : n = 0 ↔ n.toNat = 0 := BitVec.toNat_inj.symm
  rw [hzero]
  omega

theorem exec_drw_of_fits (hfit : n.toNat = 0 ∨ s.i.toNat + n.toNat ≤ 4096) :
    exec (.drw x y n) s =
      .next (s.drawSprite (s.getV x).toNat (s.getV y).toNat
        (Mem.readMany s.font s.mem s.i.toNat n.toNat)).advance := by
  obtain ⟨_, hld⟩ | ⟨hne, hpast, _⟩ := s.loadBytes_cases s.i.toNat n.toNat
  · simp only [exec, execDrw, hld, retire_sequential]
  · omega

theorem exec_drw_past_end (hne : n.toNat ≠ 0) (hpast : 4096 < s.i.toNat + n.toNat) :
    exec (.drw x y n) s = .next (s.raiseFault .addressOutOfRange (some (encode (.drw x y n)))) := by
  simp only [exec, execDrw, State.loadBytes_past_end hne hpast, retire_error]

end Sys2Proof.Machine
end

section
/-! SUPPORT. The statements about the display. -/

namespace Sys2Proof.Machine

/-- Settles O33: DRW draws the rows loaded from I, which cover what the sprite at I covers; or it is the fault. -/
theorem drwTogglesCoveredPixels : Obligations.DrwTogglesCoveredPixels := by
  unfold Obligations.DrwTogglesCoveredPixels
  refine ⟨fun w hsel => ?_, fun x y n s hlast => ?_, fun x y n s hne hpast => ?_⟩
  · exact decodeWord_eq_of_encode rfl (wordXyn_of_selects_op (op := 0xD) hsel)
  · have hfit := sprite_fits_iff.mp hlast
    refine ⟨_, exec_drw_of_fits hfit, rfl, ?_⟩
    simp only [← rowsCover_readMany_iff hfit, ← State.drawRows_flag_iff]
    refine ⟨fun px py hcov hon => ?_, fun px py hnot => ?_, fun hflag => ?_, fun hflag => ?_, ?_⟩
    · exact State.pixel_drawSprite_of_covered ⟨hcov, hon⟩
    · exact State.pixel_drawSprite_of_not_covered hnot
    · exact (s.getV_vf_drawSprite _ _ _).trans (by rw [hflag]; rfl)
    · exact (s.getV_vf_drawSprite _ _ _).trans (by rw [Bool.eq_false_of_not_eq_true hflag]; rfl)
    · exact (State.onlyChanges_drawSprite (fun px py => .inr (.inr ⟨px, py, rfl⟩)) (.inr (.inl rfl))).trans
        (State.onlyChanges_setPC (.inl rfl))
  · have hcount : n.toNat ≠ 0 := fun h => hne (BitVec.eq_of_toNat_eq h)
    exact ⟨_, exec_drw_past_end hcount (by omega), faultTaken_raiseFault s _ _⟩

/-- Settles O34: the first draw keeps I and memory, so the second covers the same pixels and toggles them back. -/
theorem doubleDrawRestoresPixels : Obligations.DoubleDrawRestoresPixels := by
  unfold Obligations.DoubleDrawRestoresPixels
  intro x y n s hlast
  obtain ⟨t, hexec, _, htoggle, hkeep, _, _, hframe⟩ := drwTogglesCoveredPixels.2.1 x y n s hlast
  refine ⟨t, hexec, fun hx hy => ?_⟩
  have hi : t.i = s.i := hframe .i (by simp)
  have hread (a : Nat) : t.readByte a = s.readByte a := hframe (.byte a) (by simp)
  obtain ⟨w, hexec', _, htoggle', hkeep', hone, hzero, _⟩ := drwTogglesCoveredPixels.2.1 x y n t (hi ▸ hlast)
  simp only [hx, hy, spriteCovers_congr hi hread] at htoggle' hkeep' hone hzero
  have hturnedOn (px py : Nat) :
      (SpriteCovers s (s.getV x).toNat (s.getV y).toNat n.toNat px py ∧ OnScreen px py ∧ t.pixel px py = true) ↔
        SpriteCovers s (s.getV x).toNat (s.getV y).toNat n.toNat px py ∧ OnScreen px py ∧ s.pixel px py = false :=
    and_congr_right fun hcov => and_congr_right fun hon => by rw [htoggle px py hcov hon, Bool.not_eq_true']
  simp only [hturnedOn] at hone hzero
  refine ⟨w, hexec', fun px py => ?_, hone, hzero⟩
  by_cases hcov : SpriteCovers s (s.getV x).toNat (s.getV y).toNat n.toNat px py ∧ OnScreen px py
  · rw [htoggle' px py hcov.1 hcov.2, htoggle px py hcov.1 hcov.2, Bool.not_not]
  · rw [hkeep' px py hcov, hkeep px py hcov]

/-- Settles O32: CLS is one write of the framebuffer and the advance. -/
theorem clsTurnsPixelsOff : Obligations.ClsTurnsPixelsOff := by
  unfold Obligations.ClsTurnsPixelsOff
  refine ⟨fun w hsel => ?_, fun s => ⟨(s.setFb blankFrame).advance, rfl, rfl, s.pixel_setFb_blankFrame, ?_⟩⟩
  · exact decodeWord_eq_of_encode rfl (selects_all.mp hsel).symm
  · exact (State.onlyChanges_setFb fun px py => .inr ⟨px, py, rfl⟩).trans (State.onlyChanges_setPC (.inl rfl))

end Sys2Proof.Machine
end

section
/-! SUPPORT. What the key and timer instructions (45_input_timer_ops) do: SKP and SKNP where V[x] is a key and where it
is none, and the audio port's calls a write of ST makes. -/

namespace Sys2Proof.Machine

variable {s : State} {x : Nibble} {b : Byte}

/-! ### The held key (45_input_timer_ops R190, R191) -/

theorem State.heldKey_of_le (hkey : b.toNat ≤ 15) : s.heldKey b = .ok (s.input.keyHeld.getLsbD b.toNat) := by
  obtain ⟨_, hheld⟩ | ⟨hnone, _⟩ := s.heldKey_cases b
  · exact hheld
  · omega

theorem State.heldKey_of_gt (hnone : 15 < b.toNat) : s.heldKey b = .error .keyIndexOutOfRange := by
  obtain ⟨hkey, _⟩ | ⟨_, hfault⟩ := s.heldKey_cases b
  · omega
  · exact hfault

/-- SKP on a key is a skip on its held level. -/
theorem exec_skp_of_key (hkey : (s.getV x).toNat ≤ 15) :
    exec (.skp x) s =
      .next (if s.input.keyHeld.getLsbD (s.getV x).toNat then s.advance else s).advance := by
  simp only [exec, execSkp, State.heldKey_of_le hkey, retire_skipIf]

/-- SKNP on a key is a skip on the opposite of its held level. -/
theorem exec_sknp_of_key (hkey : (s.getV x).toNat ≤ 15) :
    exec (.sknp x) s =
      .next (if !s.input.keyHeld.getLsbD (s.getV x).toNat then s.advance else s).advance := by
  simp only [exec, execSknp, State.heldKey_of_le hkey, retire_skipIf]

theorem exec_skp_of_no_key (hnone : 15 < (s.getV x).toNat) :
    exec (.skp x) s = .next (s.raiseFault .keyIndexOutOfRange (some (encode (.skp x)))) := by
  simp only [exec, execSkp, State.heldKey_of_gt hnone, retire_error]

theorem exec_sknp_of_no_key (hnone : 15 < (s.getV x).toNat) :
    exec (.sknp x) s = .next (s.raiseFault .keyIndexOutOfRange (some (encode (.sknp x)))) := by
  simp only [exec, execSknp, State.heldKey_of_gt hnone, retire_error]

/-- A skip on the opposite of a level: PC by 2 where the level is 1. -/
theorem skip_pc_not (held : Bool) (s : State) :
    (if (!held) = true then s.advance else s).advance.pc = if held = true then s.pc + 2 else s.pc + 4 := by
  rw [skip_pc]; simp only [Bool.not_eq_true', ← Bool.not_eq_true, ite_not]

/-! ### The tone under a write of ST (10_state R32; 45_input_timer_ops R195) -/

/-- The tone's calls where its level is ST not being 0: one where one of the old and the new ST is 0 and not both. -/
theorem toneCalls_ne_zero (old new : Byte) :
    toneCalls (old != 0) (new != 0) =
      if old = 0 ∧ new ≠ 0 then [.startTone] else if old ≠ 0 ∧ new = 0 then [.stopTone] else [] := by
  obtain rfl | hold := eq_or_ne old 0 <;> obtain rfl | hnew := eq_or_ne new 0
  · rfl
  · rw [bne_iff_ne.mpr hnew, if_pos ⟨rfl, hnew⟩]; rfl
  · rw [bne_iff_ne.mpr hold, if_neg (hold ·.1), if_pos ⟨hold, rfl⟩]; rfl
  · rw [bne_iff_ne.mpr hold, bne_iff_ne.mpr hnew, if_neg (hold ·.1), if_neg (hnew ·.2)]; rfl

/-- A running core's tone follows ST. -/
theorem State.setST_audio_of_running (hrun : s.fault.halted = false) :
    (s.setST b).audio = s.audio ++
      (if s.st = 0 ∧ b ≠ 0 then [.startTone] else if s.st ≠ 0 ∧ b = 0 then [.stopTone] else []) := by
  have hbefore : s.toneOn = (s.st != 0) := by rw [State.toneOn, hrun, Bool.not_false, Bool.and_true]
  rw [State.setST_audio, hbefore, hrun, Bool.not_false, Bool.and_true, toneCalls_ne_zero]

/-- A halted core's tone is off before and after. -/
theorem State.setST_audio_of_halted (hhalt : s.fault.halted = true) : (s.setST b).audio = s.audio := by
  have hbefore : s.toneOn = false := by rw [State.toneOn, hhalt, Bool.not_true, Bool.and_false]
  rw [State.setST_audio, hbefore, hhalt, Bool.not_true, Bool.and_false]
  exact List.append_nil _

end Sys2Proof.Machine
end

section
/-! SUPPORT. The statements about keys and timers. -/

namespace Sys2Proof.Machine

/-- Settles O35: on a key both are a skip, on its held level and on the opposite; on no key both are the fault. -/
theorem skipsReadHeldKey : Obligations.SkipsReadHeldKey := by
  unfold Obligations.SkipsReadHeldKey
  refine ⟨fun w hsel => ?_, fun w hsel => ?_, fun x s hkey => ⟨?_, ?_⟩, fun x s hnone => ⟨?_, ?_⟩⟩
  · exact decodeWord_eq_of_encode rfl (wordXkk_of_selects (op := 0xE) (kk := 0x9E) hsel)
  · exact decodeWord_eq_of_encode rfl (wordXkk_of_selects (op := 0xE) (kk := 0xA1) hsel)
  · exact ⟨_, exec_skp_of_key hkey, skip_pc _ s, skip_onlyChanges _ s⟩
  · exact ⟨_, exec_sknp_of_key hkey, skip_pc_not _ s, skip_onlyChanges _ s⟩
  · exact ⟨_, exec_skp_of_no_key hnone, faultTaken_raiseFault s _ _⟩
  · exact ⟨_, exec_sknp_of_no_key hnone, faultTaken_raiseFault s _ _⟩

/-- Settles O36: each is one write, of V[x] or of DT, and the advance. -/
theorem delayTimerMoves : Obligations.DelayTimerMoves := by
  unfold Obligations.DelayTimerMoves
  refine ⟨fun w hsel => ?_, fun w hsel => ?_, fun x s => ⟨?_, ?_⟩⟩
  · exact decodeWord_eq_of_encode rfl (wordXkk_of_selects (op := 0xF) (kk := 0x07) hsel)
  · exact decodeWord_eq_of_encode rfl (wordXkk_of_selects (op := 0xF) (kk := 0x15) hsel)
  · exact ⟨_, rfl, registersBecome_setV s x s.dt⟩
  · refine ⟨(s.setDT (s.getV x)).advance, rfl, rfl, rfl, ?_⟩
    exact (State.onlyChanges_setDT (.inr rfl)).trans (State.onlyChanges_setPC (.inl rfl))

/-- Settles O37: one write of ST, which the tone follows, and the advance. -/
theorem soundTimerDrivesTone : Obligations.SoundTimerDrivesTone := by
  unfold Obligations.SoundTimerDrivesTone
  refine ⟨fun w hsel => ?_, fun x s => ?_⟩
  · exact decodeWord_eq_of_encode rfl (wordXkk_of_selects (op := 0xF) (kk := 0x18) hsel)
  · refine ⟨(s.setST (s.getV x)).advance, rfl, rfl, rfl, State.setST_audio_of_running, State.setST_audio_of_halted, ?_⟩
    exact (State.onlyChanges_setST (.inr (.inl rfl)) (.inr (.inr rfl))).trans (State.onlyChanges_setPC (.inl rfl))

/-- Settles O38: the wait is entered and PC advances; V[x] is written only by the poll that ends the wait. -/
theorem keyWaitIsEntered : Obligations.KeyWaitIsEntered := by
  unfold Obligations.KeyWaitIsEntered
  refine ⟨fun w hsel => ?_, fun x s => ⟨(s.enterWait x).advance, rfl, rfl, rfl, rfl, ?_⟩⟩
  · exact decodeWord_eq_of_encode rfl (wordXkk_of_selects (op := 0xF) (kk := 0x0A) hsel)
  · exact (State.onlyChanges_enterWait (.inr rfl)).trans (State.onlyChanges_setPC (.inl rfl))

end Sys2Proof.Machine
end

section
/-! SUPPORT. The timers and the tone: what one decay event and a drain of them do, and that the audio port's record of a
call replays the tone's level (10_state R32; 60_exceptions R220, R229). -/

namespace Sys2Proof.Machine

variable {c : Part → Prop} {i : Instr} {s t u : State}

/-! ### The tone's level -/

theorem State.toneOn_of_halted (hhalt : s.fault.halted = true) : s.toneOn = false := by
  rw [State.toneOn, hhalt, Bool.not_true, Bool.and_false]

/-! ### Decay events -/

theorem State.onlyChanges_decay (hdt : c .dt) (hst : c .st) (haudio : c .audio) : OnlyChanges c s s.decay :=
  (State.onlyChanges_setDT hdt).trans (State.onlyChanges_setST hst haudio)

theorem decrement_eq_zero_iff {b : Byte} : decrement b = 0 ↔ b = 0 ∨ b = 1 := by
  have hnat := decrement_toNat b
  bv_omega

/-- A decay event stops the tone where it takes a playing ST from 1 to 0, and makes no other call. -/
theorem State.decay_audio (s : State) :
    s.decay.audio = s.audio ++ (if s.st = 1 ∧ s.fault.halted = false then [.stopTone] else []) := by
  cases hrun : s.fault.halted with
  | true =>
    have hkept : s.decay.audio = s.audio := (s.setDT _).setST_audio_of_halted hrun
    simp [hkept]
  | false =>
    have hcalls := State.setST_audio_of_running (s := s.setDT (decrement s.dt)) (b := decrement s.st) hrun
    have hnorise : ¬(s.st = 0 ∧ decrement s.st ≠ 0) := fun ⟨hzero, hpos⟩ =>
      hpos (decrement_eq_zero_iff.mpr (.inl hzero))
    have hfall : s.st ≠ 0 ∧ decrement s.st = 0 ↔ s.st = 1 ∧ false = false := by
      rw [decrement_eq_zero_iff, eq_self, and_true]
      bv_omega
    rw [State.setDT_st, if_neg hnorise, if_congr hfall rfl rfl] at hcalls
    exact hcalls

theorem State.onlyChanges_spendDecay (hacc : c .decayAcc) (hdt : c .dt) (hst : c .st) (haudio : c .audio) :
    OnlyChanges c s s.spendDecay := by
  intro p hp
  cases p with
  | decayAcc => exact absurd hacc hp
  | dt => exact absurd hdt hp
  | st => exact absurd hst hp
  | audio => exact absurd haudio hp
  | wait | draws => exact ⟨rfl, rfl⟩
  | _ => rfl

/-- A drain of `count` decay events lowers each timer by `count`, not below 0. -/
theorem drainDecays_timers (count : Nat) (s : State) :
    (drainDecays count s).dt.toNat = s.dt.toNat - count ∧ (drainDecays count s).st.toNat = s.st.toNat - count := by
  induction count generalizing s with
  | zero => exact ⟨rfl, rfl⟩
  | succ count ih =>
    obtain ⟨hdt, hst⟩ := ih s.spendDecay
    rw [State.spendDecay_dt, decrement_toNat] at hdt
    rw [State.spendDecay_st, decrement_toNat] at hst
    rw [drainDecays, hdt, hst]
    omega

/-! ### The audio port's record -/

/-- The audio port's calls from `s` to `t` replay the tone from its level in `s` to its level in `t`. -/
def ToneReplays (s t : State) : Prop := ∃ es, t.audio = s.audio ++ es ∧ toneAfter s.toneOn es = some t.toneOn

theorem ToneReplays.trans (h : ToneReplays s t) (h' : ToneReplays t u) : ToneReplays s u := by
  obtain ⟨es, haudio, hes⟩ := h
  obtain ⟨fs, haudio', hfs⟩ := h'
  refine ⟨es ++ fs, by rw [haudio', haudio, List.append_assoc], ?_⟩
  rw [toneAfter_append, hes]
  exact hfs

/-- Where neither the tone's level nor the record moves there is nothing to replay. -/
theorem toneReplays_of_same (hst : t.st = s.st) (hfault : t.fault = s.fault) (haudio : t.audio = s.audio) :
    ToneReplays s t :=
  ⟨[], by rw [haudio, List.append_nil], by rw [State.toneOn, State.toneOn, hst, hfault]; rfl⟩

theorem toneReplays_refl (s : State) : ToneReplays s s := toneReplays_of_same rfl rfl rfl

/-- Driving the tone records its edge. -/
theorem toneReplays_driveTone (haudio : t.audio = s.audio) : ToneReplays s (s.driveTone t) :=
  ⟨toneEdge s.toneOn t.toneOn, congrArg (· ++ _) haudio, toneAfter_toneEdge _ _⟩

theorem toneReplays_raiseFault (s : State) (cause : Cause) (op : Option Word) :
    ToneReplays s (s.raiseFault cause op) := toneReplays_driveTone rfl

theorem toneReplays_setST (s : State) (b : Byte) : ToneReplays s (s.setST b) := toneReplays_driveTone rfl

theorem toneReplays_decay (s : State) : ToneReplays s s.decay :=
  (toneReplays_of_same (t := s.setDT (decrement s.dt)) rfl rfl rfl).trans (toneReplays_setST _ _)

theorem toneReplays_spendDecay (s : State) : ToneReplays s s.spendDecay :=
  (toneReplays_of_same (t := { s with decayAcc := s.decayAcc - Config.decayPeriod }) rfl rfl rfl).trans
    (toneReplays_decay _)

/-- Of the completing instructions only the write of ST moves the tone (10_state R32). -/
theorem completes_toneReplays (h : Completes s u i) : ToneReplays s u := by
  cases i with
  | sys | jp | seImm | sneImm | seReg | sneReg | jpV0 | skp | sknp | undef8 | undefE | undefF | cls | ldVxK =>
    obtain rfl := h
    exact toneReplays_of_same rfl rfl rfl
  | call | ldImm | addImm | ldReg | ldVxDt | ldI | addIVx | ldFVx | ldDtVx =>
    obtain ⟨_, rfl⟩ := h
    exact toneReplays_of_same rfl rfl rfl
  | ret | or | and | xor | addReg | subn | sub | shr | shl | drw | ldBVx | ldMemVx =>
    obtain ⟨_, _, rfl⟩ := h
    exact toneReplays_of_same rfl rfl rfl
  | rnd =>
    obtain ⟨b, rfl⟩ := h
    obtain ⟨_, _, _, _, htake⟩ | ⟨_, _, htake⟩ := s.draw_cases
    all_goals rw [htake]; exact toneReplays_of_same rfl rfl rfl
  | ldVxMem =>
    obtain ⟨bs, _, rfl⟩ := h
    rw [State.setVFrom_eq]
    exact toneReplays_of_same rfl rfl rfl
  | ldStVx =>
    obtain ⟨b, rfl⟩ := h
    exact toneReplays_setST s b

theorem exec_toneReplays (h : exec i s = .next t) : ToneReplays s t := by
  obtain ⟨cause, _, rfl⟩ | ⟨u, w, hu, rfl⟩ := retires_of_exec h
  · exact toneReplays_raiseFault s cause _
  · exact (completes_toneReplays hu).trans (toneReplays_of_same rfl rfl rfl)

theorem slot_toneReplays (h : slot s = .next t) : ToneReplays s t := by
  obtain ⟨_, hslot⟩ | ⟨_, _, hslot⟩ | ⟨_, _, _, hslot⟩ | ⟨_, _, _, hslot⟩ := slot_cases s
  · injection hslot.symm.trans h with h
    exact h ▸ toneReplays_refl s
  · injection hslot.symm.trans h with h
    subst h
    obtain ⟨_, hpoll⟩ | ⟨k, _, hpoll⟩ := s.poll_cases
    all_goals rw [hpoll]; exact toneReplays_of_same rfl rfl rfl
  · exact exec_toneReplays (hslot.symm.trans h)
  · injection hslot.symm.trans h with h
    exact h ▸ toneReplays_raiseFault s _ _

theorem runSlots_toneReplays {delta : Nat} (h : runSlots delta s = .next u) : ToneReplays s u :=
  drainSlots_induction (R := ToneReplays) (s := { s with instAcc := s.instAcc + delta }) toneReplays_refl
    (fun _ _ _ => .trans) (fun _ => toneReplays_of_same rfl rfl rfl) (fun _ _ => slot_toneReplays) h

theorem runDecays_toneReplays (delta : Nat) (s : State) : ToneReplays s (runDecays delta s) :=
  drainDecays_induction (R := ToneReplays) toneReplays_refl (fun _ _ _ => .trans) toneReplays_spendDecay _
    { s with decayAcc := s.decayAcc + delta }

theorem ToneReplays.unlessHalted (hu : ToneReplays s u) (ht : ToneReplays u t) : ToneReplays s (u.unlessHalted t) := by
  unfold State.unlessHalted
  split
  · exact hu
  · exact hu.trans ht

/-- A call's record begins empty, so what replays the tone from the call taken on is the whole record. -/
theorem toneAfter_of_takeCall (h : ToneReplays s.takeCall t) : toneAfter s.toneOn t.audio = some t.toneOn := by
  obtain ⟨es, haudio, hes⟩ := h
  obtain rfl : t.audio = es := haudio
  exact hes

/-- Settles O53: every host call `step_cases` names replays the tone, by the edges its slots, its decays or its reset
record. -/
theorem toneCallsAreTheEdges : Obligations.ToneCallsAreTheEdges := by
  unfold Obligations.ToneCallsAreTheEdges
  intro s t h
  have hcall : ∀ sample, ToneReplays s.takeCall (s.takeCall.beginCall sample) :=
    fun _ => toneReplays_of_same rfl rfl rfl
  refine toneAfter_of_takeCall ?_
  obtain ⟨_, rfl⟩ | ⟨rom, _, _, _, rfl⟩ | ⟨_, _, rfl⟩ | ⟨delta, sample, u, _, _, hrun, rfl⟩ |
    ⟨sample, u, _, _, hslot, rfl⟩ := step_cases h
  · exact toneReplays_driveTone rfl
  · exact toneReplays_of_same rfl rfl rfl
  · exact toneReplays_refl _
  · have hu : ToneReplays s.takeCall u := (hcall sample).trans (runSlots_toneReplays hrun)
    exact hu.unlessHalted (runDecays_toneReplays delta u)
  · have hu : ToneReplays s.takeCall u := (hcall sample).trans (slot_toneReplays hslot)
    exact hu.unlessHalted (toneReplays_decay u)

/-- Settles O43: the clamped decrements, and the one call the fall of ST makes. -/
theorem decayClampsAtZero : Obligations.DecayClampsAtZero := by
  unfold Obligations.DecayClampsAtZero
  intro s
  exact ⟨decrement_toNat s.dt, decrement_toNat s.st, s.decay_audio,
    State.onlyChanges_decay (.inl rfl) (.inr (.inl rfl)) (.inr (.inr rfl))⟩

end Sys2Proof.Machine
end

section
/-! SUPPORT. What no instruction reads: the input sample, but for the held keys under SKP and SKNP, and the instruction
accumulator (10_state R30; 60_exceptions R226). Replacing both commutes with executing. -/

namespace Sys2Proof.Machine

variable {f : Input → Input} {g : Nat → Nat} {i : Instr} {x : Nibble} {kk : Byte} {b : Bool} {s t u : State}

/-- RND with a nonzero immediate writes the residue of one draw (42_alu R142). -/
theorem exec_rnd_draws (hkk : kk ≠ 0) :
    exec (.rnd x kk) s = .next (s.takeDraw.setV x (s.nextDraw % kk)).advance := by
  simp only [exec, execRnd, if_neg hkk, retire_sequential]

/-- RET that answers a state found the stack empty, or an entry to pop (41_control_flow R112). -/
theorem exec_ret_cases (h : exec .ret s = .next t) :
    s.sp = 0 ∨ 0 < s.sp.toNat ∧ ∃ a, s.stack[s.sp.toNat - 1]? = some a := by
  by_cases hempty : s.sp = 0
  · exact .inl hempty
  · have htop : (s.sp - 1).toNat = s.sp.toNat - 1 := by bv_omega
    simp only [exec, execRet, if_neg hempty, htop] at h
    cases ha : s.stack[s.sp.toNat - 1]? with
    | some a => exact .inr ⟨by bv_omega, a, rfl⟩
    | none => rw [ha] at h; cases h

/-- CALL that answers a state found the stack full, or room on it (41_control_flow R114). -/
theorem exec_call_cases {nnn : Addr} (h : exec (.call nnn) s = .next t) : s.sp = 16 ∨ s.sp.toNat < 16 := by
  by_cases hfull : s.sp = 16
  · exact .inl hfull
  · simp only [exec, execCall, if_neg hfull] at h
    split at h
    · next hroom => exact .inr hroom
    · cases h

/-- The state with another input sample and another instruction accumulator. -/
def State.mapUnread (f : Input → Input) (g : Nat → Nat) (s : State) : State :=
  { s with input := f s.input, instAcc := g s.instAcc }

theorem State.mapUnread_setVFrom (s : State) (first : Nat) (bs : List Byte) :
    (s.mapUnread f g).setVFrom first bs = (s.setVFrom first bs).mapUnread f g := by
  induction bs generalizing s first with
  | nil => rfl
  | cons b bs ih => exact ih (s.setV (BitVec.ofNat 4 first) b) (first + 1)

theorem State.mapUnread_takeDraw (s : State) : (s.mapUnread f g).takeDraw = s.takeDraw.mapUnread f g := by
  obtain ⟨r, rest, hdraws, _, htake⟩ | ⟨hdraws, _, htake⟩ := s.draw_cases
  · rw [htake]
    exact (State.draw_of_cons (s := s.mapUnread f g) hdraws).2
  · rw [htake]
    exact (State.draw_of_nil (s := s.mapUnread f g) hdraws).2

theorem State.mapUnread_skip (s : State) :
    (if b then (s.mapUnread f g).advance else s.mapUnread f g).advance =
      ((if b then s.advance else s).advance).mapUnread f g := by
  cases b <;> rfl

/-- What an instruction does in `s` and in the replaced state, against the state it answered. -/
theorem exec_mapUnread_of_eq (h : exec i s = .next t) (hs : exec i s = .next u)
    (hs' : exec i (s.mapUnread f g) = .next (u.mapUnread f g)) :
    exec i (s.mapUnread f g) = .next (t.mapUnread f g) := by
  injection hs.symm.trans h with hu
  exact hu ▸ hs'

/-- Executing commutes with replacing what is not read; SKP and SKNP read the held keys. -/
theorem exec_mapUnread (hheld : (∃ x, i = .skp x ∨ i = .sknp x) → (f s.input).keyHeld = s.input.keyHeld)
    (h : exec i s = .next t) : exec i (s.mapUnread f g) = .next (t.mapUnread f g) := by
  cases i with
  | sys | undef8 | undefE | undefF | cls | ldVxK | ldImm | addImm | ldReg | ldVxDt | ldI | addIVx | ldFVx | ldDtVx
  | ldStVx | or | and | xor | addReg | subn | sub | shr | shl | jp | jpV0 =>
    exact exec_mapUnread_of_eq h rfl rfl
  | seImm | sneImm | seReg | sneReg => exact exec_mapUnread_of_eq h rfl (congrArg _ s.mapUnread_skip)
  | skp x =>
    have hread : (s.mapUnread f g).input.keyHeld = s.input.keyHeld := hheld ⟨x, .inl rfl⟩
    by_cases hkey : (s.getV x).toNat ≤ 15
    · refine exec_mapUnread_of_eq h (exec_skp_of_key hkey) ?_
      rw [exec_skp_of_key (s := s.mapUnread f g) hkey, hread]
      exact congrArg _ s.mapUnread_skip
    · have hnone := Nat.lt_of_not_le hkey
      exact exec_mapUnread_of_eq h (exec_skp_of_no_key hnone) (exec_skp_of_no_key hnone)
  | sknp x =>
    have hread : (s.mapUnread f g).input.keyHeld = s.input.keyHeld := hheld ⟨x, .inr rfl⟩
    by_cases hkey : (s.getV x).toNat ≤ 15
    · refine exec_mapUnread_of_eq h (exec_sknp_of_key hkey) ?_
      rw [exec_sknp_of_key (s := s.mapUnread f g) hkey, hread]
      exact congrArg _ s.mapUnread_skip
    · have hnone := Nat.lt_of_not_le hkey
      exact exec_mapUnread_of_eq h (exec_sknp_of_no_key hnone) (exec_sknp_of_no_key hnone)
  | ret =>
    obtain hempty | ⟨hpos, a, ha⟩ := exec_ret_cases h
    · exact exec_mapUnread_of_eq h (exec_ret_of_empty hempty) (exec_ret_of_empty hempty)
    · exact exec_mapUnread_of_eq h (exec_ret_of_entry hpos ha) (exec_ret_of_entry hpos ha)
  | call nnn =>
    obtain hfull | hroom := exec_call_cases h
    · exact exec_mapUnread_of_eq h (exec_call_of_full hfull) (exec_call_of_full hfull)
    · exact exec_mapUnread_of_eq h (exec_call_of_lt hroom) (exec_call_of_lt (s := s.mapUnread f g) hroom)
  | rnd x kk =>
    obtain rfl | hkk := eq_or_ne kk 0
    · exact exec_mapUnread_of_eq h exec_rnd_zero exec_rnd_zero
    · refine exec_mapUnread_of_eq h (exec_rnd_draws hkk) ?_
      rw [exec_rnd_draws hkk, State.mapUnread_takeDraw]
      rfl
  | drw x y n =>
    by_cases hfit : n.toNat = 0 ∨ s.i.toNat + n.toNat ≤ 4096
    · exact exec_mapUnread_of_eq h (exec_drw_of_fits hfit) (exec_drw_of_fits hfit)
    · have hne : n.toNat ≠ 0 := by omega
      have hpast : 4096 < s.i.toNat + n.toNat := by omega
      exact exec_mapUnread_of_eq h (exec_drw_past_end hne hpast) (exec_drw_past_end hne hpast)
  | ldBVx x =>
    obtain hpast | hfit := Nat.lt_or_ge 0xFFF (s.i.toNat + 2)
    · exact exec_mapUnread_of_eq h (exec_ldBVx_past_end hpast) (exec_ldBVx_past_end hpast)
    · exact exec_mapUnread_of_eq h (exec_ldBVx_of_fits hfit) (exec_ldBVx_of_fits hfit)
  | ldMemVx x =>
    obtain hpast | hfit := Nat.lt_or_ge 0xFFF (s.i.toNat + x.toNat)
    · exact exec_mapUnread_of_eq h (exec_ldMemVx_past_end hpast) (exec_ldMemVx_past_end hpast)
    · exact exec_mapUnread_of_eq h (exec_ldMemVx_of_fits hfit) (exec_ldMemVx_of_fits hfit)
  | ldVxMem x =>
    obtain hpast | hfit := Nat.lt_or_ge 0xFFF (s.i.toNat + x.toNat)
    · exact exec_mapUnread_of_eq h (exec_ldVxMem_past_end hpast) (exec_ldVxMem_past_end hpast)
    · refine exec_mapUnread_of_eq h (exec_ldVxMem_of_fits hfit) ?_
      rw [exec_ldVxMem_of_fits (s := s.mapUnread f g) hfit, State.mapUnread_setVFrom]
      rfl

/-- The poll reads the released keys alone. -/
theorem State.poll_mapUnread (hreleased : (f s.input).keyReleased = s.input.keyReleased) :
    (s.mapUnread f g).poll = s.poll.mapUnread f g := by
  have hread : (s.mapUnread f g).input.keyReleased = s.input.keyReleased := hreleased
  obtain ⟨hnone, hpoll⟩ | ⟨k, hkey, hpoll⟩ := s.poll_cases
  · rw [hpoll]
    exact State.poll_of_lowestKey_eq_none (hread ▸ hnone)
  · rw [hpoll]
    exact State.poll_of_lowestKey_eq_some (s := s.mapUnread f g) (hread ▸ hkey)

/-- A slot does not read the instruction accumulator. -/
theorem slot_mapInstAcc (h : slot s = .next t) : slot (s.mapUnread id g) = .next (t.mapUnread id g) := by
  obtain ⟨hhalt, hslot⟩ | ⟨hrun, hwait, hslot⟩ | ⟨hrun, hwait, hfit, hslot⟩ | ⟨hrun, hwait, hpast, hslot⟩ :=
    slot_cases s
  · injection hslot.symm.trans h with h
    exact h ▸ if_pos hhalt
  · injection hslot.symm.trans h with h
    rw [slot_of_waiting (s := s.mapUnread id g) hrun hwait, State.poll_mapUnread rfl, h]
  · have hhi : (s.mapUnread id g).readByte s.pc.toNat = some _ := State.readByte_eq_some.mpr ⟨by omega, rfl⟩
    have hlo : (s.mapUnread id g).readByte (s.pc.toNat + 1) = some _ := State.readByte_eq_some.mpr ⟨by omega, rfl⟩
    rw [slot_of_readByte (s := s.mapUnread id g) hrun hwait hhi hlo]
    exact exec_mapUnread (fun _ => rfl) (hslot.symm.trans h)
  · have hpc : 0xFFF ≤ s.pc.toNat := by omega
    injection hslot.symm.trans h with h
    exact h ▸ slot_past_end (s := s.mapUnread id g) hrun hwait hpc

/-- Settles O56: replacing the sample commutes with executing and with the poll where the half that is read stays. -/
theorem onlyKeySkipsReadInput : Obligations.OnlyKeySkipsReadInput := by
  unfold Obligations.OnlyKeySkipsReadInput
  refine ⟨fun i s t other hi h => ?_, fun x i s t released _ h => ?_, fun s held => ?_⟩
  · have hnoskip : ¬∃ x, i = .skp x ∨ i = .sknp x := fun ⟨x, hx⟩ => hx.elim (hi x).1 (hi x).2
    exact exec_mapUnread (f := fun _ => other) (g := id) (fun hx => absurd hx hnoskip) h
  · exact exec_mapUnread (f := fun _ => { s.input with keyReleased := released }) (g := id) (fun _ => rfl) h
  · exact State.poll_mapUnread (f := fun _ => { s.input with keyHeld := held }) (g := id) rfl

end Sys2Proof.Machine
end

section
/-! SUPPORT. Every instruction's fault, exactly on the condition of 60_exceptions R211. -/

namespace Sys2Proof.Machine

variable {i : Instr} {s : State}

/-- Where the condition R211 names for the instruction holds, it takes that fault. -/
theorem exec_of_causeOf_ne_none (h : causeOf i s ≠ .none) :
    exec i s = .next (s.raiseFault (causeOf i s) (some (encode i))) := by
  cases i with
  | sys | jp | jpV0 | seImm | sneImm | seReg | sneReg | undef8 | undefE | undefF | cls | ldVxK | ldImm | addImm
  | ldReg | ldVxDt | ldI | addIVx | ldFVx | ldDtVx | ldStVx | or | and | xor | addReg | subn | sub | shr | shl =>
    exact absurd rfl h
  | ret =>
    have hc : s.sp = 0 := by_contra fun hn => h (if_neg hn)
    rw [causeOf, if_pos hc, exec_ret_of_empty hc]
  | call =>
    have hc : s.sp = 16 := by_contra fun hn => h (if_neg hn)
    rw [causeOf, if_pos hc, exec_call_of_full hc]
  | rnd x kk =>
    obtain rfl : kk = 0 := by_contra fun hn => h (if_neg hn)
    exact exec_rnd_zero
  | skp x =>
    have hc : 15 < (s.getV x).toNat := by_contra fun hn => h (if_neg hn)
    rw [causeOf, if_pos hc, exec_skp_of_no_key hc]
  | sknp x =>
    have hc : 15 < (s.getV x).toNat := by_contra fun hn => h (if_neg hn)
    rw [causeOf, if_pos hc, exec_sknp_of_no_key hc]
  | drw x y n =>
    have hc : n ≠ 0 ∧ 0xFFF < s.i.toNat + n.toNat - 1 := by_contra fun hn => h (if_neg hn)
    have hne : n.toNat ≠ 0 := by bv_omega
    rw [causeOf, if_pos hc, exec_drw_past_end hne (by omega)]
  | ldBVx =>
    have hc : 0xFFF < s.i.toNat + 2 := by_contra fun hn => h (if_neg hn)
    rw [causeOf, if_pos hc, exec_ldBVx_past_end hc]
  | ldMemVx x =>
    have hc : 0xFFF < s.i.toNat + x.toNat := by_contra fun hn => h (if_neg hn)
    rw [causeOf, if_pos hc, exec_ldMemVx_past_end hc]
  | ldVxMem x =>
    have hc : 0xFFF < s.i.toNat + x.toNat := by_contra fun hn => h (if_neg hn)
    rw [causeOf, if_pos hc, exec_ldVxMem_past_end hc]

/-- Where it does not hold and SP is one of R25's values, the instruction completes and leaves the record alone. -/
theorem exec_of_causeOf_eq_none (hsp : s.sp.toNat ≤ 16) (h : causeOf i s = .none) :
    ∃ t, exec i s = .next t ∧ t.fault = s.fault := by
  cases i with
  | sys | jp | jpV0 | undef8 | undefE | undefF | cls | ldVxK | ldImm | addImm | ldReg | ldVxDt | ldI | addIVx | ldFVx
  | ldDtVx | ldStVx | or | and | xor | addReg | subn | sub | shr | shl => exact ⟨_, rfl, rfl⟩
  | seImm | sneImm | seReg | sneReg => exact ⟨_, rfl, skip_onlyChanges _ s .fault nofun⟩
  | ret =>
    have hc : s.sp ≠ 0 := fun hn => nomatch (if_pos hn).symm.trans h
    have hpos : 0 < s.sp.toNat := by bv_omega
    exact ⟨_, exec_ret_of_entry hpos (Vector.getElem?_eq_getElem (by omega)), rfl⟩
  | call =>
    have hc : s.sp ≠ 16 := fun hn => nomatch (if_pos hn).symm.trans h
    exact ⟨_, exec_call_of_lt (by bv_omega), rfl⟩
  | rnd x kk =>
    have hc : kk ≠ 0 := fun hn => nomatch (if_pos hn).symm.trans h
    obtain ⟨t, hexec, _, _, _, _, hframe⟩ := exec_rnd_of_ne_zero (s := s) (x := x) hc
    exact ⟨t, hexec, hframe .fault (by simp)⟩
  | skp x =>
    have hc : ¬15 < (s.getV x).toNat := fun hn => nomatch (if_pos hn).symm.trans h
    exact ⟨_, exec_skp_of_key (by omega), skip_onlyChanges _ s .fault nofun⟩
  | sknp x =>
    have hc : ¬15 < (s.getV x).toNat := fun hn => nomatch (if_pos hn).symm.trans h
    exact ⟨_, exec_sknp_of_key (by omega), skip_onlyChanges _ s .fault nofun⟩
  | drw x y n =>
    have hc : ¬(n ≠ 0 ∧ 0xFFF < s.i.toNat + n.toNat - 1) := fun hn => nomatch (if_pos hn).symm.trans h
    have hfit : n = 0 ∨ s.i.toNat + n.toNat - 1 ≤ 0xFFF := by rwa [not_and_or, not_not, Nat.not_lt] at hc
    exact ⟨_, exec_drw_of_fits (sprite_fits_iff.mp hfit), rfl⟩
  | ldBVx =>
    have hc : ¬0xFFF < s.i.toNat + 2 := fun hn => nomatch (if_pos hn).symm.trans h
    exact ⟨_, exec_ldBVx_of_fits (by omega), rfl⟩
  | ldMemVx x =>
    have hc : ¬0xFFF < s.i.toNat + x.toNat := fun hn => nomatch (if_pos hn).symm.trans h
    exact ⟨_, exec_ldMemVx_of_fits (by omega), rfl⟩
  | ldVxMem x =>
    have hc : ¬0xFFF < s.i.toNat + x.toNat := fun hn => nomatch (if_pos hn).symm.trans h
    exact ⟨_, exec_ldVxMem_of_fits (by omega), by rw [State.setVFrom_eq]; rfl⟩

/-- Settles O41: the instruction's condition holds and it takes the fault, or it does not and the record stays. -/
theorem faultsExactlyOnTheirConditions : Obligations.FaultsExactlyOnTheirConditions := by
  unfold Obligations.FaultsExactlyOnTheirConditions
  intro i s hsp
  by_cases hc : causeOf i s = .none
  · obtain ⟨t, hexec, hfault⟩ := exec_of_causeOf_eq_none hsp hc
    exact ⟨t, hexec, fun _ => hfault, fun hn => absurd hc hn⟩
  · exact ⟨_, exec_of_causeOf_ne_none hc, fun hn => absurd hn hc, fun _ => faultTaken_raiseFault s _ _⟩

end Sys2Proof.Machine
end

section
/-! SUPPORT. The host calls `tick` and `step` by the slots and the decays they run (60_exceptions R218, R219). -/

namespace Sys2Proof.Machine

variable {c : Part → Prop} {delta n : Nat} {sample : Input} {s t u : State}

/-! ### The two calls -/

theorem State.unlessHalted_of_halted (h : u.fault.halted = true) : u.unlessHalted t = u := if_pos h

theorem State.unlessHalted_of_running (h : u.fault.halted = false) : u.unlessHalted t = t :=
  if_neg (Bool.eq_false_iff.mp h)

/-- The step that takes a `tick` call is that call. -/
theorem step_of_nextCall_tick (h : s.nextCall = .tick delta sample) : step s = tickCall delta sample s.takeCall := by
  simp only [step, hostStep, h, runCall]

theorem tickCall_of_halted (h : s.fault.halted = true) : tickCall delta sample s = .next s := if_pos h

theorem stepCall_of_halted (h : s.fault.halted = true) : stepCall sample s = .next s := if_pos h

theorem tickCall_of_runSlots (hrun : s.fault.halted = false) (h : runSlots delta (s.beginCall sample) = .next u) :
    tickCall delta sample s = .next (u.unlessHalted (runDecays delta u)) := by
  rw [tickCall, if_neg (Bool.eq_false_iff.mp hrun), h]
  exact (apply_ite Host.Outcome.next _ _ _).symm

theorem stepCall_of_slot (hrun : s.fault.halted = false) (h : slot (s.beginCall sample) = .next u) :
    stepCall sample s = .next (u.unlessHalted u.decay) := by
  rw [stepCall, if_neg (Bool.eq_false_iff.mp hrun), h]
  exact (apply_ite Host.Outcome.next _ _ _).symm

/-- A call's sample changes the sample and the record of a first call alone. -/
theorem State.onlyChanges_beginCall (hinput : c .input) (hstarted : c .started) :
    OnlyChanges c s (s.beginCall sample) := by
  intro p hp
  cases p with
  | input => exact absurd hinput hp
  | started => exact absurd hstarted hp
  | wait | draws => exact ⟨rfl, rfl⟩
  | _ => rfl

/-- So the start of a call changes these two, the list of calls and the call's own record alone. -/
theorem State.onlyChanges_takeCall_beginCall (hcalls : c .calls) (haudio : c .audio) (hinput : c .input)
    (hstarted : c .started) : OnlyChanges c s (s.takeCall.beginCall sample) :=
  (State.onlyChanges_takeCall hcalls haudio).trans (State.onlyChanges_beginCall hinput hstarted)

/-! ### The decays of a tick -/

theorem runDecays_decayAcc (delta : Nat) (s : State) : (runDecays delta s).decayAcc = (s.decayAcc + delta) % 50 := by
  rw [runDecays, drainDecays_decayAcc]
  simp only [Config.decayPeriod]
  omega

theorem runDecays_instAcc (delta : Nat) (s : State) : (runDecays delta s).instAcc = s.instAcc :=
  drainDecays_instAcc _ { s with decayAcc := s.decayAcc + delta }

theorem runDecays_timers (delta : Nat) (s : State) :
    (runDecays delta s).dt.toNat = s.dt.toNat - (s.decayAcc + delta) / 50 ∧
      (runDecays delta s).st.toNat = s.st.toNat - (s.decayAcc + delta) / 50 :=
  drainDecays_timers _ { s with decayAcc := s.decayAcc + delta }

theorem onlyChanges_runDecays (hacc : c .decayAcc) (hdt : c .dt) (hst : c .st) (haudio : c .audio) :
    OnlyChanges c s (runDecays delta s) := by
  have hadd : OnlyChanges c s { s with decayAcc := s.decayAcc + delta } := by
    intro p hp
    cases p with
    | decayAcc => exact absurd hacc hp
    | wait | draws => exact ⟨rfl, rfl⟩
    | _ => rfl
  exact hadd.trans (drainDecays_induction (R := OnlyChanges c) (onlyChanges_refl c) (fun _ _ _ => .trans)
    (fun _ => State.onlyChanges_spendDecay hacc hdt hst haudio) _ _)

/-! ### The slots of a tick -/

theorem slotTimes_succ_of_halted (h : slot s = .next t) (hhalt : t.fault.halted = true) :
    slotTimes (n + 1) s = .next t := by
  simp only [slotTimes, h, if_pos hhalt]

theorem slotTimes_succ_of_running (h : slot s = .next t) (hrun : t.fault.halted = false) :
    slotTimes (n + 1) s = slotTimes n t := by
  simp only [slotTimes, h, if_neg (Bool.eq_false_iff.mp hrun)]

/-- Slots that answer a state begin with one that halts and answers it, or that does not and leaves the rest to run. -/
theorem slotTimes_succ_cases (h : slotTimes (n + 1) s = .next u) :
    (slot s = .next u ∧ u.fault.halted = true) ∨
      ∃ t, slot s = .next t ∧ t.fault.halted = false ∧ slotTimes n t = .next u := by
  cases hslot : slot s with
  | next t =>
    cases hhalt : t.fault.halted with
    | true =>
      injection (slotTimes_succ_of_halted hslot hhalt).symm.trans h with htu
      exact .inl (htu ▸ ⟨rfl, hhalt⟩)
    | false => exact .inr ⟨t, rfl, hhalt, (slotTimes_succ_of_running hslot hhalt).symm.trans h⟩
  | fault r => simp only [slotTimes, hslot] at h; cases h
  | refused r => simp only [slotTimes, hslot] at h; cases h

/-- The state with another instruction accumulator. -/
def State.withInstAcc (s : State) (acc : Nat) : State := s.mapUnread id fun _ => acc

theorem drainSlots_succ_of_halted {acc : Nat} (h : slot s = .next t) (hhalt : t.fault.halted = true) :
    drainSlots (n + 1) (s.withInstAcc acc) = .next (t.withInstAcc (acc - 4)) := by
  have hspent : slot (s.withInstAcc acc).spendInstr = .next (t.withInstAcc (acc - 4)) :=
    slot_mapInstAcc (s := s) (g := fun _ => acc - 4) h
  simp only [drainSlots, hspent]
  exact if_pos hhalt

theorem drainSlots_succ_of_running {acc : Nat} (h : slot s = .next t) (hrun : t.fault.halted = false) :
    drainSlots (n + 1) (s.withInstAcc acc) = drainSlots n (t.withInstAcc (acc - 4)) := by
  have hspent : slot (s.withInstAcc acc).spendInstr = .next (t.withInstAcc (acc - 4)) :=
    slot_mapInstAcc (s := s) (g := fun _ => acc - 4) h
  simp only [drainSlots, hspent]
  exact if_neg (Bool.eq_false_iff.mp hrun)

/-- Of at most `n` slots from `s` the first `count` ran and answered `u`: all of them where none halted, else those up
to the one that did. -/
structure SlotsRan (n : Nat) (s u : State) (count : Nat) : Prop where
  le : count ≤ n
  answers : slotTimes count s = .next u
  all : u.fault.halted = false → count = n
  last : u.fault.halted = true → 0 < count ∧ ∃ v, slotTimes (count - 1) s = .next v ∧ v.fault.halted = false

/-- The drain spends 4 units for each slot that ran, and its slots are those of a core with no accumulator to spend. -/
theorem drainSlots_of_slotTimes (hs : s.fault.halted = false) (h : slotTimes n s = .next u) (acc : Nat) :
    ∃ count, SlotsRan n s u count ∧
      drainSlots n (s.withInstAcc acc) = .next (u.withInstAcc (acc - 4 * count)) := by
  induction n generalizing s acc with
  | zero =>
    injection h with h
    subst h
    have hran : SlotsRan 0 s s 0 := ⟨Nat.le_refl 0, rfl, fun _ => rfl, fun hhalt => nomatch hs.symm.trans hhalt⟩
    exact ⟨0, hran, rfl⟩
  | succ n ih =>
    obtain ⟨hslot, hhalt⟩ | ⟨t, hslot, hrun, hrest⟩ := slotTimes_succ_cases h
    · have hran : SlotsRan (n + 1) s u 1 :=
        ⟨Nat.succ_pos n, slotTimes_succ_of_halted hslot hhalt, fun hrun => (nomatch hhalt.symm.trans hrun),
          fun _ => ⟨Nat.one_pos, s, rfl, hs⟩⟩
      exact ⟨1, hran, drainSlots_succ_of_halted hslot hhalt⟩
    · obtain ⟨count, ⟨hle, hanswers, hall, hlast⟩, hdrain⟩ := ih hrun hrest (acc - 4)
      refine ⟨count + 1, ⟨by omega, (slotTimes_succ_of_running hslot hrun).trans hanswers,
        fun hgo => congrArg (· + 1) (hall hgo), fun hhalt => ?_⟩, ?_⟩
      · obtain ⟨hpos, v, hv, hgo⟩ := hlast hhalt
        obtain ⟨k, rfl⟩ : ∃ k, count = k + 1 := ⟨count - 1, by omega⟩
        exact ⟨by omega, v, (slotTimes_succ_of_running hslot hrun).trans hv, hgo⟩
      · have hunits : acc - 4 * (count + 1) = acc - 4 - 4 * count := by omega
        rw [drainSlots_succ_of_running hslot hrun, hdrain, hunits]

/-- A tick's slots by the slots alone. -/
theorem runSlots_of_slotTimes (hs : s.fault.halted = false)
    (h : slotTimes ((s.instAcc + delta) / 4) s = .next u) :
    ∃ count, SlotsRan ((s.instAcc + delta) / 4) s u count ∧
      runSlots delta s = .next (u.withInstAcc (s.instAcc + delta - 4 * count)) :=
  drainSlots_of_slotTimes hs h (s.instAcc + delta)

theorem slotTimes_accumulators (h : slotTimes n s = .next u) : u.instAcc = s.instAcc ∧ u.decayAcc = s.decayAcc := by
  induction n generalizing s with
  | zero => injection h with h; exact h ▸ ⟨rfl, rfl⟩
  | succ n ih =>
    obtain ⟨hslot, _⟩ | ⟨t, hslot, _, hrest⟩ := slotTimes_succ_cases h
    · exact slot_accumulators hslot
    · obtain ⟨hinst, hdecay⟩ := slot_accumulators hslot
      obtain ⟨hinst', hdecay'⟩ := ih hrest
      exact ⟨hinst'.trans hinst, hdecay'.trans hdecay⟩

theorem State.onlyChanges_withInstAcc {acc : Nat} (hacc : c .instAcc) : OnlyChanges c s (s.withInstAcc acc) := by
  intro p hp
  cases p with
  | instAcc => exact absurd hacc hp
  | wait | draws => exact ⟨rfl, rfl⟩
  | _ => rfl

/-- A waiting core's slots with no key released are polls that find none (40_cycle R96). -/
theorem slotTimes_of_waiting (hrun : s.fault.halted = false) (hwait : s.waitValid = true)
    (hnone : s.input.keyReleased = 0) (n : Nat) : slotTimes n s = .next s := by
  have hslot : slot s = .next s := pollStoresLowestKey.1 s hrun hwait hnone
  induction n with
  | zero => rfl
  | succ n ih => rw [slotTimes_succ_of_running hslot hrun, ih]

/-- The step that takes a `tick` call, by the slots alone. -/
theorem step_tick_of_slotTimes (hrun : s.fault.halted = false) (hcall : s.nextCall = .tick delta sample)
    (h : slotTimes ((s.instAcc + delta) / 4) (s.takeCall.beginCall sample) = .next u) :
    ∃ count v, SlotsRan ((s.instAcc + delta) / 4) (s.takeCall.beginCall sample) u count ∧
      v = u.withInstAcc (s.instAcc + delta - 4 * count) ∧ step s = .next (v.unlessHalted (runDecays delta v)) := by
  obtain ⟨count, hran, hdrain⟩ := runSlots_of_slotTimes (s := s.takeCall.beginCall sample) hrun h
  exact ⟨count, _, hran, rfl, (step_of_nextCall_tick hcall).trans (tickCall_of_runSlots hrun hdrain)⟩

/-- The instruction drain of a tick that no fault stopped leaves what is less than a period. -/
theorem runSlots_instAcc (h : runSlots delta s = .next u) (hrun : u.fault.halted = false) :
    u.instAcc = (s.instAcc + delta) % 4 := by
  have hspent := drainSlots_instAcc h hrun
  simp only [Config.instrPeriod] at hspent
  omega

/-! ### What stays on the host's list of calls -/

theorem slot_calls (h : slot s = .next t) : t.calls = s.calls := by
  obtain ⟨_, hslot⟩ | ⟨_, _, hslot⟩ | ⟨_, _, _, hslot⟩ | ⟨_, _, _, hslot⟩ := slot_cases s
  · injection hslot.symm.trans h with h
    exact h ▸ rfl
  · injection hslot.symm.trans h with h
    subst h
    obtain ⟨_, hpoll⟩ | ⟨k, _, hpoll⟩ := s.poll_cases
    · rw [hpoll]
    · rw [hpoll]
      rfl
  · exact exec_onlyChanges (hslot.symm.trans h) .calls (by simp [MayWrite])
  · injection hslot.symm.trans h with h
    exact h ▸ rfl

theorem runSlots_calls (h : runSlots delta s = .next u) : u.calls = s.calls :=
  drainSlots_induction (R := fun s t => t.calls = s.calls) (s := { s with instAcc := s.instAcc + delta })
    (fun _ => rfl) (fun _ _ _ hst htu => htu.trans hst) (fun _ => rfl) (fun _ _ => slot_calls) h

theorem State.unlessHalted_calls (h : t.calls = u.calls) : (u.unlessHalted t).calls = u.calls := by
  unfold State.unlessHalted
  split
  · rfl
  · exact h

/-! ### Ticks one after the other -/

/-- Everything a step that takes a `tick` call can do. -/
theorem step_tick_cases (hcall : s.nextCall = .tick delta sample) (h : step s = .next t) :
    (s.fault.halted = true ∧ t = s.takeCall) ∨
      (s.fault.halted = false ∧ ∃ u, runSlots delta (s.takeCall.beginCall sample) = .next u ∧
        t = u.unlessHalted (runDecays delta u)) := by
  obtain ⟨hother, _⟩ | ⟨rom, hother, _⟩ | ⟨_, hhalt, ht⟩ | ⟨delta', sample', u, htick, hrun, hslots, ht⟩ |
    ⟨sample', u, hother, _⟩ := step_cases h
  · cases hcall.symm.trans hother
  · cases hcall.symm.trans hother
  · exact .inl ⟨hhalt, ht⟩
  · injection hcall.symm.trans htick with hdelta hsample
    subst hdelta hsample
    exact .inr ⟨hrun, u, hslots, ht⟩
  · cases hcall.symm.trans hother

theorem step_tick_calls (hcall : s.nextCall = .tick delta sample) (h : step s = .next t) :
    t.calls = s.calls.tail := by
  obtain ⟨_, rfl⟩ | ⟨_, u, hslots, rfl⟩ := step_tick_cases hcall h
  · rfl
  · have hdecays : (runDecays delta u).calls = u.calls :=
      onlyChanges_runDecays (c := (· ≠ .calls)) nofun nofun nofun nofun .calls (· rfl)
    exact (State.unlessHalted_calls hdecays).trans (runSlots_calls hslots)

/-- A tick that ends without a fault began without one, and left each accumulator's remainder. -/
theorem step_tick_accumulators (hcall : s.nextCall = .tick delta sample) (h : step s = .next t)
    (hrun : t.fault.halted = false) :
    s.fault.halted = false ∧ t.instAcc = (s.instAcc + delta) % 4 ∧ t.decayAcc = (s.decayAcc + delta) % 50 := by
  obtain ⟨hhalt, rfl⟩ | ⟨hs, u, hslots, rfl⟩ := step_tick_cases hcall h
  · cases hrun.symm.trans hhalt
  · cases hu : u.fault.halted with
    | true =>
      rw [State.unlessHalted_of_halted hu] at hrun
      cases hu.symm.trans hrun
    | false =>
      have hinst : u.instAcc = (s.instAcc + delta) % 4 := runSlots_instAcc (s := s.takeCall.beginCall sample) hslots hu
      have hdecay : u.decayAcc = s.decayAcc := runSlots_decayAcc (s := s.takeCall.beginCall sample) hslots
      rw [State.unlessHalted_of_running hu, runDecays_instAcc, runDecays_decayAcc, hdecay]
      exact ⟨hs, hinst, rfl⟩

/-- Over ticks that end without a fault each accumulator is the remainder of all their deltas. -/
theorem run_ticks_accumulators {ticks : List (Nat × Input)} {later : List HostCall} (hinv : s.Inv)
    (hcalls : s.calls = ticks.map (fun c => .tick c.1 c.2) ++ later)
    (hrun : Host.Core.run core ticks.length s = .next t) (hgo : t.fault.halted = false) :
    s.fault.halted = false ∧ t.instAcc = (s.instAcc + (ticks.map (·.1)).sum) % 4 ∧
      t.decayAcc = (s.decayAcc + (ticks.map (·.1)).sum) % 50 := by
  induction ticks generalizing s with
  | nil =>
    injection hrun with hrun
    subst hrun
    exact ⟨hgo, (Nat.mod_eq_of_lt (hinv.instAccBound hgo)).symm, (Nat.mod_eq_of_lt hinv.decayAccBound).symm⟩
  | cons tick ticks ih =>
    have hcall : s.nextCall = .tick tick.1 tick.2 := by rw [State.nextCall, hcalls]; rfl
    obtain ⟨u, hstep, hrest⟩ := step_of_run_succ hrun
    have hlist : u.calls = ticks.map (fun c => .tick c.1 c.2) ++ later := by
      rw [step_tick_calls hcall hstep, hcalls]
      rfl
    obtain ⟨hu, hinst, hdecay⟩ := ih (stepKeepsInvariant s u hinv hstep) hlist hrest
    obtain ⟨hs, hinst', hdecay'⟩ := step_tick_accumulators hcall hstep hu
    refine ⟨hs, ?_, ?_⟩
    · rw [hinst, hinst', List.map_cons, List.sum_cons]
      omega
    · rw [hdecay, hdecay', List.map_cons, List.sum_cons]
      omega

end Sys2Proof.Machine
end

section
/-! SUPPORT. The statements about the timing controller and the halted core. -/

namespace Sys2Proof.Machine

/-- Settles O44: the call's slot, and one decay after it unless it halted, neither of which touches an accumulator. -/
theorem stepIsSlotThenDecay : Obligations.StepIsSlotThenDecay := by
  unfold Obligations.StepIsSlotThenDecay
  intro s u sample hrun hcall hslot
  obtain ⟨hinst, hdecay⟩ := slot_accumulators hslot
  have hstep : step s = .next (u.unlessHalted u.decay) :=
    (step_of_nextCall_step hcall).trans (stepCall_of_slot hrun hslot)
  cases hu : u.fault.halted with
  | true =>
    rw [State.unlessHalted_of_halted hu] at hstep
    exact ⟨u, hstep, hinst, hdecay, fun _ => rfl, nofun⟩
  | false =>
    rw [State.unlessHalted_of_running hu] at hstep
    obtain ⟨hdt, hst, _, hframe⟩ := decayClampsAtZero u
    exact ⟨u.decay, hstep, hinst, hdecay, nofun, fun _ => ⟨hdt, hst, hframe⟩⟩

/-- Settles O45: the drain's slots are those of `slotTimes`, 4 units spent for each, and the decays follow where none of
them halted. -/
theorem tickIsSlotsThenDecays : Obligations.TickIsSlotsThenDecays := by
  unfold Obligations.TickIsSlotsThenDecays
  refine ⟨fun s u delta sample hrun hcall hslots hu => ?_, fun s u delta sample hrun hcall hslots hu => ?_⟩
  all_goals
    have hdecay : u.decayAcc = s.decayAcc := (slotTimes_accumulators hslots).2
    obtain ⟨count, v, ⟨hle, hanswers, hall, hlast⟩, hv, hstep⟩ := step_tick_of_slotTimes hrun hcall hslots
    have hfault : v.fault = u.fault := hv ▸ rfl
    have hspent : v.instAcc = s.instAcc + delta - 4 * count := hv ▸ rfl
    have hkept : v.decayAcc = s.decayAcc := hv ▸ hdecay
  · rw [State.unlessHalted_of_running (hfault ▸ hu)] at hstep
    obtain ⟨hdt, hst⟩ := runDecays_timers delta v
    have hcount : count = (s.instAcc + delta) / 4 := hall hu
    have hframe : OnlyChanges (fun p => p = .dt ∨ p = .st ∨ p = .audio ∨ p = .instAcc ∨ p = .decayAcc) u v :=
      hv ▸ State.onlyChanges_withInstAcc (by simp)
    refine ⟨runDecays delta v, hstep, ?_, ?_, ?_, ?_, hframe.trans (onlyChanges_runDecays ?_ ?_ ?_ ?_)⟩
    · rw [runDecays_instAcc, hspent]
      omega
    · rw [runDecays_decayAcc, hkept]
    · rw [hdt, hkept, hv]
      rfl
    · rw [hst, hkept, hv]
      rfl
    all_goals simp
  · rw [State.unlessHalted_of_halted (hfault ▸ hu)] at hstep
    obtain ⟨hpos, hbefore⟩ := hlast hu
    exact ⟨v, count, hstep, hpos, hle, hanswers, hbefore, hspent, hkept, hv ▸ State.onlyChanges_withInstAcc rfl⟩

/-- Settles O46: by induction on the ticks, each of which leaves the remainders of its own delta. -/
theorem accumulatorsAreDecoupled : Obligations.AccumulatorsAreDecoupled := by
  unfold Obligations.AccumulatorsAreDecoupled
  intro ticks later s t hinv hcalls hrun hgo
  exact (run_ticks_accumulators hinv hcalls hrun hgo).2

/-- Settles O40: the slots of the call are polls that find no key, so that the call is its decays. -/
theorem keyWaitHoldsWhileTimersDecay : Obligations.KeyWaitHoldsWhileTimersDecay := by
  unfold Obligations.KeyWaitHoldsWhileTimersDecay
  refine ⟨fun s delta held hrun hwait hcall => ?_, fun s held hrun hwait hcall => ?_⟩
  · have hslots := slotTimes_of_waiting (s := s.takeCall.beginCall { keyHeld := held, keyReleased := 0 })
      hrun hwait rfl ((s.instAcc + delta) / 4)
    obtain ⟨t, hstep, _, _, hdt, hst, hframe⟩ := tickIsSlotsThenDecays.1 s _ delta _ hrun hcall hslots hrun
    refine ⟨t, hstep, hdt, hst, (State.onlyChanges_takeCall_beginCall ?_ ?_ ?_ ?_).trans (hframe.mono ?_)⟩
    all_goals simp +contextual
  · have hslot := pollStoresLowestKey.1 (s.takeCall.beginCall { keyHeld := held, keyReleased := 0 }) hrun hwait rfl
    obtain ⟨t, hstep, _, _, _, hgo⟩ := stepIsSlotThenDecay s _ _ hrun hcall hslot
    obtain ⟨hdt, hst, hframe⟩ := hgo hrun
    refine ⟨t, hstep, hdt, hst, (State.onlyChanges_takeCall_beginCall ?_ ?_ ?_ ?_).trans (hframe.mono ?_)⟩
    all_goals simp +contextual

/-- Settles O42: taking the call is all that happens. -/
theorem haltedCoreIsStuck : Obligations.HaltedCoreIsStuck := by
  unfold Obligations.HaltedCoreIsStuck
  intro s delta sample hhalt hcall
  have hstep : step s = .next s.takeCall := by
    obtain hcall | hcall := hcall
    · exact (step_of_nextCall_tick hcall).trans (tickCall_of_halted hhalt)
    · exact (step_of_nextCall_step hcall).trans (stepCall_of_halted hhalt)
  exact ⟨s.takeCall, hstep, rfl, State.toneOn_of_halted hhalt, State.onlyChanges_takeCall (.inl rfl) (.inr rfl)⟩

end Sys2Proof.Machine
end

section
/-! SUPPORT. What the reset state holds where a statement looks (70_reset R250 to R252), and the host call `reset`
(70_reset R255). -/

namespace Sys2Proof.Machine

variable {f : Font} {a : Nat} {s : State} {c : Part → Prop}

/-! ### The reset state -/

theorem State.getV_resetWith (k : Nibble) : (State.resetWith f).getV k = 0 :=
  Vector.getElem_replicate k.isLt

theorem State.stack_resetWith {j : Nat} (hj : j < 16) : (State.resetWith f).stack[j]? = some 0 := by
  rw [State.resetWith_stack, Vector.getElem?_replicate, if_pos hj]

theorem State.pixel_resetWith (px py : Nat) : (State.resetWith f).pixel px py = false :=
  pixelAt_blankFrame px py

theorem State.toneOn_resetWith : (State.resetWith f).toneOn = false := rfl

theorem State.readByte_resetWith (ha : a < 4096) : (State.resetWith f).readByte a = some (resetByte f a) :=
  State.readByte_eq_some.mpr ⟨ha, rfl⟩

/-- There is no byte beyond the 4096 (20_memory R50). -/
theorem State.readByte_eq_none (ha : 4096 ≤ a) : s.readByte a = none := if_neg (Nat.not_lt.mpr ha)

/-! ### The host call `reset` -/

/-- The step that takes a `reset` is the reset. -/
theorem step_of_nextCall_reset (h : s.nextCall = .reset) : step s = .next (resetCall s.takeCall) := by
  simp only [step, hostStep, h, runCall]

/-- A reset leaves the reset state under the machine's font, but for the environment's side of the ports. -/
theorem onlyChanges_resetCall (hinput : c .input) (hcalls : c .calls) (hdraws : c .draws) (haudio : c .audio) :
    OnlyChanges c (State.resetWith s.font) (resetCall s) := by
  intro p hp
  cases p with
  | input => exact absurd hinput hp
  | calls => exact absurd hcalls hp
  | draws => exact absurd hdraws hp
  | audio => exact absurd haudio hp
  | wait => exact ⟨rfl, rfl⟩
  | _ => rfl

end Sys2Proof.Machine
end

section
/-! SUPPORT. The statements about reset. -/

namespace Sys2Proof.Machine

/-- Settles O47: what is read from a vector or from memory by its lemma, every other field as the reset state lists
it. -/
theorem resetLeavesTheseValues : Obligations.ResetLeavesTheseValues := by
  unfold Obligations.ResetLeavesTheseValues
  refine ⟨State.reset_eq, fun f => ⟨State.getV_resetWith, rfl, rfl, rfl, fun j hj => State.stack_resetWith hj,
    rfl, rfl, State.pixel_resetWith, rfl, rfl, rfl, rfl, rfl, rfl, rfl, rfl, rfl, rfl, State.toneOn_resetWith,
    fun a ha => ?font, fun a hfont ha => ?zero, fun a ha => State.readByte_eq_none ha⟩⟩
  case font => rw [State.readByte_resetWith (by omega), resetByte_font ha]
  case zero => rw [State.readByte_resetWith ha, resetByte_zero hfont]

/-- Settles O48: the step is the reset call, whose frame `onlyChanges_resetCall` names; the ports' fields are copied
from the state before. -/
theorem resetCallDiscardsEverything : Obligations.ResetCallDiscardsEverything := by
  unfold Obligations.ResetCallDiscardsEverything
  intro s hcall
  refine ⟨resetCall s.takeCall, step_of_nextCall_reset hcall, ?frame, rfl, rfl, rfl, rfl⟩
  case frame => apply onlyChanges_resetCall (s := s.takeCall) <;> simp

/-- Settles O50: both invariants of the reset state of any font, the default one among them. -/
theorem invariantsHoldAtReset : Obligations.InvariantsHoldAtReset := by
  unfold Obligations.InvariantsHoldAtReset
  have hreset (f : Font) : (State.resetWith f).Inv ∧ (State.resetWith f).PcBounded :=
    ⟨State.resetWith_inv f, State.resetWith_pcBounded f⟩
  exact ⟨hreset defaultFont, hreset⟩

end Sys2Proof.Machine
end

section
/-! SUPPORT. The statement about words written out from the opcode map (30_encoding, section 3). -/

namespace Sys2Proof.Machine

/-- Settles O5: each instruction is well-formed and its encoding is the word, so the word decodes to it. -/
theorem sampleWordsDecode : Obligations.SampleWordsDecode := by
  unfold Obligations.SampleWordsDecode
  refine ⟨?cls, ?sys, ?call, ?seReg, ?addReg, ?undef8, ?drw, ?skp, ?ldVxMem, ?undefF⟩
  all_goals exact decodeWord_eq_of_encode rfl rfl

end Sys2Proof.Machine
end
